-- ==== Sys2Proof/Word.lean ====
section
/-! DEFINITION. The word types of the core: bytes (00_scope.md, notation), 32-bit words (registers, commands, the W = 32 engines) and 64-bit words (chaining registers, lanes, the W = 64 engines). Addition is `BitVec` addition, which is modulo 2^W (R45), and the bitwise operations are `BitVec`'s (R46). -/

namespace Sys2Proof

/-- A byte. -/
abbrev Byte := BitVec 8

/-- A 32-bit word. -/
abbrev Word32 := BitVec 32

/-- A 64-bit word. -/
abbrev Word64 := BitVec 64

end Sys2Proof
end

