-- ==== Sys2Proof/Syntax.lean ====
section
/-! DEFINITION. The commands of spec/opcode_table.json, one constructor per row, with the operands R40 takes from the word. -/

namespace Sys2Proof

/-- A command of the core (R39 to R41). Operands are the zero-extended bytes of R40. -/
inductive Instr where
  /-- INIT var (R103): `var` is zext_8(cmd[7:4]). -/
  | init (var : Byte)
  /-- BLOCK (R104). -/
  | block
  /-- FINAL lst (R105): `lst` is zext_8(cmd[15:8]), a byte count. -/
  | final (lst : Byte)
  deriving DecidableEq, Repr

end Sys2Proof
end

