-- ==== Sys2Proof/WellFormed.lean ====
section
/-! DEFINITION. Which commands an encoding can carry (R40): the variant id of INIT has four bits. -/

namespace Sys2Proof

/-- `i` fits its encoding: var is in 0..15, and every 8-bit lst fits (R40). VAR 13..15 are
well-formed INITs of no variant (R43). -/
def Instr.wellFormed : Instr → Bool
  | .init var => var.toNat < 16
  | .block => true
  | .final _ => true

/-- The proposition of `Instr.wellFormed`. -/
abbrev Instr.WellFormed (i : Instr) : Prop := i.wellFormed = true

end Sys2Proof
end

