-- ==== Sys2Proof/Decode.lean ====
section
/-! DEFINITION. The command decoder, total on every 32-bit word and rejecting by name, and the encoder (30_encoding.md R39 to R43). A command is one 32-bit number, so no byte order enters (R31, R39). -/

namespace Sys2Proof

/-- OP, bits [3:0] of a command word (R39). -/
def cmdOp (w : Word32) : BitVec 4 := w.extractLsb' 0 4

/-- VAR, bits [7:4] (R39). -/
def cmdVar (w : Word32) : BitVec 4 := w.extractLsb' 4 4

/-- LST, bits [15:8] (R39). -/
def cmdLst (w : Word32) : Byte := w.extractLsb' 8 8

/-- RSV, bits [31:16] (R39). -/
def cmdRsv (w : Word32) : BitVec 16 := w.extractLsb' 16 16

/-- Why a word is no command (R43), by name. -/
inductive IllegalWord where
  /-- OP = 0x0 or 0x4..0xF. -/
  | reservedOp
  /-- An INIT with LST ≠ 0 or RSV ≠ 0. -/
  | initReservedBits
  /-- A BLOCK with VAR ≠ 0, LST ≠ 0 or RSV ≠ 0. -/
  | blockReservedBits
  /-- A FINAL with VAR ≠ 0 or RSV ≠ 0. -/
  | finalReservedBits
  deriving DecidableEq, Repr

/-- A row of the opcode map (R41). -/
structure OpRow where
  mnemonic : String
  matchBits : Word32
  maskBits : Word32
  deriving DecidableEq, Repr

/-- The INIT row of R41. -/
def initRow : OpRow := ⟨"INIT", 0x00000001, 0xFFFFFF0F⟩

/-- The BLOCK row of R41. -/
def blockRow : OpRow := ⟨"BLOCK", 0x00000002, 0xFFFFFFFF⟩

/-- The FINAL row of R41. -/
def finalRow : OpRow := ⟨"FINAL", 0x00000003, 0xFFFF00FF⟩

/-- The opcode map of R41. -/
def opRows : List OpRow := [initRow, blockRow, finalRow]

/-- `w` matches row `r`: its bits under the mask are the row's. -/
def OpRow.accepts (r : OpRow) (w : Word32) : Bool := (w &&& r.maskBits) == r.matchBits

/-- The reason a word that matches no row is illegal (R43): its OP decides. -/
def illegalReason (w : Word32) : IllegalWord :=
  if cmdOp w = 1 then .initReservedBits
  else if cmdOp w = 2 then .blockReservedBits
  else if cmdOp w = 3 then .finalReservedBits
  else .reservedOp

/-- `decode` (R41): "the first matching row wins"; the operands are those of R40, zero-extended. -/
def decode (w : Word32) : Except IllegalWord Instr :=
  if initRow.accepts w then .ok (.init ((cmdVar w).setWidth 8))
  else if blockRow.accepts w then .ok .block
  else if finalRow.accepts w then .ok (.final (cmdLst w))
  else .error (illegalReason w)

/-- The encoder: each row's match bits with the operand in its field (R41, R44). -/
def encode : Instr → Word32
  | .init var => initRow.matchBits ||| (var.setWidth 32 <<< 4)
  | .block => blockRow.matchBits
  | .final lst => finalRow.matchBits ||| (lst.setWidth 32 <<< 8)

/-- The host's entry: the instruction in a word numbered as the opcode table numbers it, bit 0 the
least significant. Bits at and above `nbits` are 0, and a command has 32 bits (log 13). -/
def decodeTableWord (nbits w : Nat) : Option Instr :=
  match decode (BitVec.ofNat 32 (w % 2 ^ nbits)) with
  | .ok i => some i
  | .error _ => none

end Sys2Proof
end

