-- ==== Sys2Proof/Machine/Primitives.lean ====
section
/-! DEFINITION. The word primitives of 40_primitives.md: rotates, shift, boolean functions, pack and unpack. -/

namespace Sys2Proof

/-- `rotr_W(x, n)` (R47); the amount is taken modulo W (D23). -/
def rotr {w : Nat} (x : BitVec w) (n : Nat) : BitVec w :=
  (x >>> (n % w)) ||| (x <<< (w - n % w))

/-- `rotl_W(x, n)` (R48); the amount is taken modulo W (D23). -/
def rotl {w : Nat} (x : BitVec w) (n : Nat) : BitVec w :=
  (x <<< (n % w)) ||| (x >>> (w - n % w))

/-- `shr_W(x, n)` (R49): logical shift right, filling with 0. -/
def shr {w : Nat} (x : BitVec w) (n : Nat) : BitVec w := x >>> n

/-- `Ch_W(x, y, z)` (R50). -/
def ch {w : Nat} (x y z : BitVec w) : BitVec w := (x &&& y) ^^^ (~~~x &&& z)

/-- `Maj_W(x, y, z)` (R51). -/
def maj {w : Nat} (x y z : BitVec w) : BitVec w := (x &&& y) ^^^ (x &&& z) ^^^ (y &&& z)

/-- `Parity_W(x, y, z)` (R52). -/
def parity {w : Nat} (x y z : BitVec w) : BitVec w := x ^^^ y ^^^ z

/-- The unsigned number whose big-endian bytes are `bs` (R53). -/
def beNat (bs : List Byte) : Nat := bs.foldl (fun n b => n * 256 + b.toNat) 0

/-- The unsigned number whose little-endian bytes are `bs` (R55). -/
def leNat : List Byte → Nat
  | [] => 0
  | b :: bs => b.toNat + 256 * leNat bs

/-- `B[i..i+n)`, the `n` bytes of a sequence from index `i` on (00_scope.md, notation). -/
def slice (bs : List Byte) (i n : Nat) : List Byte := (bs.drop i).take n

/-- `zeros(n)` (00_scope.md, notation). -/
def zeros (n : Nat) : List Byte := List.replicate n 0

/-- `pack_be_W(B)` (R53). -/
def packBe (w : Nat) (bs : List Byte) : List (BitVec w) :=
  (List.range (bs.length / (w / 8))).map fun j =>
    BitVec.ofNat w (beNat (slice bs (j * (w / 8)) (w / 8)))

/-- `be_bytes(v, k)` (R57): the k-byte big-endian encoding of `v`. -/
def beBytes (v k : Nat) : List Byte :=
  (List.range k).map fun i => BitVec.ofNat 8 (v / 2 ^ (8 * (k - 1 - i)))

/-- `unpack_be_W(words)` (R54). -/
def unpackBe {w : Nat} (words : List (BitVec w)) : List Byte :=
  words.flatMap fun x => beBytes x.toNat (w / 8)

/-- `pack_le64(B)` (R55). -/
def packLe64 (bs : List Byte) : List Word64 :=
  (List.range (bs.length / 8)).map fun j => BitVec.ofNat 64 (leNat (slice bs (8 * j) 8))

/-- `unpack_le64(lanes)` (R56). -/
def unpackLe64 (lanes : List Word64) : List Byte :=
  lanes.flatMap fun x => (List.range 8).map fun i => x.extractLsb' (8 * i) 8

end Sys2Proof
end

