-- ==== Sys2Proof/Machine/Digest.lean ====
section
/-! DEFINITION. The digest value and its codec (41_digest.md R58 to R64): byte sequences, construction from words, hex rendering and parsing, equality and order. These are host-side functions: they read and write no core state (D21). -/

namespace Sys2Proof

/-- `from_words(w, W, N)` (R61). -/
def fromWords {w : Nat} (words : List (BitVec w)) (n : Nat) : List Byte :=
  (unpackBe words).take n

/-- The lowercase digits of R62. -/
def hexDigits : List Char :=
  ['0', '1', '2', '3', '4', '5', '6', '7', '8', '9', 'a', 'b', 'c', 'd', 'e', 'f']

/-- `digit(v)`, v in 0..15 (R62). -/
def hexDigit (v : Nat) : Char := hexDigits.getD v '0'

/-- `to_hex(D)` (R62), as the sequence of its characters. -/
def toHex (d : List Byte) : List Char :=
  d.flatMap fun b => [hexDigit (b.toNat / 16), hexDigit (b.toNat % 16)]

/-- `val(c)` (R63); none where the character has no value. -/
def hexVal (c : Char) : Option Nat :=
  if '0' ≤ c ∧ c ≤ '9' then some (c.toNat - '0'.toNat)
  else if 'a' ≤ c ∧ c ≤ 'f' then some (c.toNat - 'a'.toNat + 10)
  else if 'A' ≤ c ∧ c ≤ 'F' then some (c.toNat - 'A'.toNat + 10)
  else none

/-- The one error of the codec (R109). It is no core fault: it has no code and sets no FCODE. -/
inductive HexError where
  /-- Some character of the string is not a hex digit. -/
  | invalidEncoding
  deriving DecidableEq, Repr

/-- The value of digit `i` of `s`, and 0 beyond the end of the string (R63). -/
def hexNibble (s : List Char) (i : Nat) : Nat :=
  match s[i]? with
  | some c => (hexVal c).getD 0
  | none => 0

/-- `from_hex(s, N)` (R63): every character is checked, those at positions ≥ 2N too. -/
def fromHex (s : List Char) (n : Nat) : Except HexError (List Byte) :=
  if s.any (fun c => (hexVal c).isNone) then .error .invalidEncoding
  else .ok ((List.range n).map fun i =>
    BitVec.ofNat 8 (hexNibble s (2 * i) * 16 + hexNibble s (2 * i + 1)))

/-- Equality of digests (R60): the same length and the same byte at every index. -/
def digestEqual (d1 d2 : List Byte) : Bool :=
  d1.length == d2.length && (List.range d1.length).all fun i => d1.getD i 0 == d2.getD i 0

/-- The order of digests (R60, U22): lexicographic over bytes, a proper prefix first. -/
def digestLess : List Byte → List Byte → Bool
  | _, [] => false
  | [], _ :: _ => true
  | a :: as, b :: bs => a.toNat < b.toNat || (a == b && digestLess as bs)

end Sys2Proof
end

