-- ==== Sys2Proof/Config.lean ====
section
/-! DEFINITION. What the design fixes (R7), what the platform or the silicon leaves open (WINDOW_BASE, BUS_ERROR_REPORT, the contents that reset leaves unspecified), and the closed list of variants (R2). -/

namespace Sys2Proof

namespace Config

/-- BLK_BYTES (R7): the size of the block input buffer BLK. -/
def blkBytes : Nat := 168

/-- MAX_XOF_BYTES (R7, D10): the size of DOUT and the largest SHAKE output in bytes. -/
def maxXofBytes : Nat := 512

/-- MAX_MSG_BYTES (R7, D9): the largest message length in bytes. -/
def maxMsgBytes : Nat := 2 ^ 61 - 1

/-- The size of the host register window in bytes (R7, R23). -/
def windowBytes : Nat := 0x400

/-- OPEN parameter WINDOW_BASE (R23, D3): where the window sits in the platform's address map.
No body: nothing can be proved about its value (log 7). -/
opaque windowBase : Nat

/-- OPEN parameter BUS_ERROR_REPORT (R27, D24): what the platform tells the host when the access at
this offset with this width is refused. No body: any report is allowed (log 8). -/
opaque busErrorReport : Nat → Nat → Word32

/-- Free values for H[0..7], "unspecified" after a reset (R22, U11): word `8 * r + i` is H[i] after
reset number `r` (log 6). -/
opaque freeH : Nat → Word64

/-- Free values for S[0..199], "unspecified" after a reset (R22, U11): byte `200 * r + i` is S[i]
after reset number `r` (log 6). -/
opaque freeSponge : Nat → Byte

/-- Free values for BLK[0..167], "unspecified" after a reset (R22, U12): byte `168 * r + i` is
BLK[i] after reset number `r` (log 6). -/
opaque freeBlk : Nat → Byte

end Config

/-- The seven variants of the Merkle–Damgård engine (R2, R5). -/
inductive MdVariant where
  | sha1
  | sha224
  | sha256
  | sha384
  | sha512
  | sha512t224
  | sha512t256
  deriving DecidableEq, Repr

/-- The six variants of the sponge engine (R2, R6). -/
inductive SpongeVariant where
  | sha3_224
  | sha3_256
  | sha3_384
  | sha3_512
  | shake128
  | shake256
  deriving DecidableEq, Repr

/-- The thirteen digest variants (R2): "the first seven use the Merkle–Damgård engine and the last
six the sponge engine". -/
inductive Variant where
  | md (v : MdVariant)
  | sponge (v : SpongeVariant)
  deriving DecidableEq, Repr

end Sys2Proof
end

