-- ==== Sys2Proof/Machine/Params.lean ====
section
/-! DEFINITION. The parameters of the thirteen variants (00_scope.md R5, R6) and their ids and names (30_encoding.md R42). -/

namespace Sys2Proof

/-- W, the word width in bits (R5). -/
def MdVariant.wordBits : MdVariant → Nat
  | .sha1 | .sha224 | .sha256 => 32
  | .sha384 | .sha512 | .sha512t224 | .sha512t256 => 64

/-- R, the round count (R5). -/
def MdVariant.rounds : MdVariant → Nat
  | .sha1 => 80
  | .sha224 | .sha256 => 64
  | .sha384 | .sha512 | .sha512t224 | .sha512t256 => 80

/-- Blk, the block size in bytes (R5). -/
def MdVariant.blockBytes : MdVariant → Nat
  | .sha1 | .sha224 | .sha256 => 64
  | .sha384 | .sha512 | .sha512t224 | .sha512t256 => 128

/-- L, the width of the length field in bytes (R5, R80; 90_conflicts.md C4). -/
def MdVariant.lengthBytes : MdVariant → Nat
  | .sha1 | .sha224 | .sha256 => 8
  | .sha384 | .sha512 | .sha512t224 | .sha512t256 => 16

/-- N, the digest size in bytes (R5, R59). -/
def MdVariant.digestBytes : MdVariant → Nat
  | .sha1 => 20
  | .sha224 => 28
  | .sha256 => 32
  | .sha384 => 48
  | .sha512 => 64
  | .sha512t224 => 28
  | .sha512t256 => 32

/-- "H words used" (R5, R85): SHA-1 uses five chaining words, the others eight. -/
def MdVariant.chainWords : MdVariant → Nat
  | .sha1 => 5
  | .sha224 | .sha256 | .sha384 | .sha512 | .sha512t224 | .sha512t256 => 8

/-- The rate in bytes (R6). -/
def SpongeVariant.rate : SpongeVariant → Nat
  | .sha3_224 => 144
  | .sha3_256 => 136
  | .sha3_384 => 104
  | .sha3_512 => 72
  | .shake128 => 168
  | .shake256 => 136

/-- The capacity in bits (R6): "the capacity is 1600 − 8·rate bits". For SHA3-384 R6's table prints
832 instead of this 768 (log 18); no rule reads a capacity. -/
def SpongeVariant.capacityBits (v : SpongeVariant) : Nat := 1600 - 8 * v.rate

/-- The domain-separation suffix byte (R6). -/
def SpongeVariant.suffix : SpongeVariant → Byte
  | .sha3_224 | .sha3_256 | .sha3_384 | .sha3_512 => 0x06
  | .shake128 | .shake256 => 0x1F

/-- SHAKE128 and SHAKE256, whose output length is chosen by OUTBITS (R6). -/
def SpongeVariant.isShake : SpongeVariant → Bool
  | .shake128 | .shake256 => true
  | .sha3_224 | .sha3_256 | .sha3_384 | .sha3_512 => false

/-- N of a fixed-output sponge variant; OUTBITS / 8 for SHAKE (R6, R16). -/
def SpongeVariant.digestBytes (v : SpongeVariant) (outbits : Nat) : Nat :=
  match v with
  | .sha3_224 => 28
  | .sha3_256 => 32
  | .sha3_384 => 48
  | .sha3_512 => 64
  | .shake128 | .shake256 => outbits / 8

/-- B, the block size of a variant: Blk for a Merkle–Damgård variant, the rate for a sponge variant
(R42). -/
def Variant.blockBytes : Variant → Nat
  | .md v => v.blockBytes
  | .sponge v => v.rate

/-- SHAKE means VAR ∈ {11, 12} (46_commands.md). -/
def Variant.isShake : Variant → Bool
  | .md _ => false
  | .sponge v => v.isShake

/-- N, the digest size in bytes of a computation of the variant with these OUTBITS (R16, R59). -/
def Variant.digestBytes (v : Variant) (outbits : Nat) : Nat :=
  match v with
  | .md v => v.digestBytes
  | .sponge v => v.digestBytes outbits

/-- The variants in the order of their ids (R42). -/
def allVariants : List Variant :=
  [.md .sha1, .md .sha224, .md .sha256, .md .sha384, .md .sha512, .md .sha512t224, .md .sha512t256,
   .sponge .sha3_224, .sponge .sha3_256, .sponge .sha3_384, .sponge .sha3_512,
   .sponge .shake128, .sponge .shake256]

/-- The id of a variant, the VAR field that selects it (R42). -/
def Variant.id : Variant → Nat
  | .md .sha1 => 0
  | .md .sha224 => 1
  | .md .sha256 => 2
  | .md .sha384 => 3
  | .md .sha512 => 4
  | .md .sha512t224 => 5
  | .md .sha512t256 => 6
  | .sponge .sha3_224 => 7
  | .sponge .sha3_256 => 8
  | .sponge .sha3_384 => 9
  | .sponge .sha3_512 => 10
  | .sponge .shake128 => 11
  | .sponge .shake256 => 12

/-- The variant an id selects; none for 13 and above (R42). -/
def variantOfId (id : Nat) : Option Variant := allVariants[id]?

/-- The name of a variant in the host syntax (R42, R44). -/
def Variant.name : Variant → String
  | .md .sha1 => "SHA-1"
  | .md .sha224 => "SHA-224"
  | .md .sha256 => "SHA-256"
  | .md .sha384 => "SHA-384"
  | .md .sha512 => "SHA-512"
  | .md .sha512t224 => "SHA-512/224"
  | .md .sha512t256 => "SHA-512/256"
  | .sponge .sha3_224 => "SHA3-224"
  | .sponge .sha3_256 => "SHA3-256"
  | .sponge .sha3_384 => "SHA3-384"
  | .sponge .sha3_512 => "SHA3-512"
  | .sponge .shake128 => "SHAKE128"
  | .sponge .shake256 => "SHAKE256"

/-- The variant with a name (R44); none for any other text. -/
def variantOfName (name : String) : Option Variant := allVariants.find? (fun v => v.name == name)

end Sys2Proof
end

