-- ==== Sys2Proof/Machine/State.lean ====
section
/-! DEFINITION. The state of the core (10_state.md), the host's side of its window, and the state after reset (R22). -/

namespace Sys2Proof.Machine

/-- STATUS.PHASE (R14). -/
inductive Phase where
  /-- 0: no computation started since reset. -/
  | idle
  /-- 1: INIT done, message being consumed. -/
  | absorb
  /-- 2: FINAL done, digest valid in DOUT. -/
  | done
  /-- 3: a fault is latched. -/
  | fault
  deriving DecidableEq, Repr

/-- STATUS.FCODE (R108). Codes 6 and 7 are "never written", so they are not representable. -/
inductive FaultCode where
  /-- 0: no fault latched. -/
  | none
  /-- 1: a CMD word that decodes as none of INIT, BLOCK, FINAL. -/
  | illegalCommand
  /-- 2: INIT with VAR 13..15. -/
  | unsupportedVariant
  /-- 3: BLOCK or FINAL with PHASE ≠ ABSORB. -/
  | sequenceError
  /-- 4: SHAKE INIT with bad OUTBITS, FINAL with lst ≥ B. -/
  | badArgument
  /-- 5: BLOCK or FINAL that would take LEN above MAX_MSG_BYTES. -/
  | lengthOverflow
  deriving DecidableEq, Repr

/-- What the outside does next: a host access to the window, by offset and width in bytes (R24), or
an assertion of reset (R122). -/
inductive HostEvent where
  /-- MemRead(offset, width) (R25). -/
  | read (offset width : Nat)
  /-- MemWrite(offset, width, value) (R26); an 8-bit write carries its byte in `value[7:0]`. -/
  | write (offset width : Nat) (value : Word32)
  /-- Reset is asserted between two accesses (R122). -/
  | reset
  deriving DecidableEq, Repr

/-- What the host received for its last access. It is an output of the core: no command and no
access reads it (log 2). -/
inductive Response where
  /-- No access answered yet since reset. -/
  | nothing
  /-- An admitted write was performed. -/
  | ack
  /-- The data of an admitted read; an 8-bit datum is zero-extended (log 2). -/
  | data (value : Word32)
  /-- A refused access (R27), with the platform's report BUS_ERROR_REPORT (log 8). -/
  | busError (report : Word32)
  deriving DecidableEq, Repr

/-- The chaining registers H[0..7] (R9). -/
abbrev Chain := Vector Word64 8

/-- The sponge state S[0..199] (R10), held as bytes; the lane view is computed from it (R88). -/
abbrev SpongeBytes := Vector Byte 200

/-- The state of the machine. -/
structure State where
  /-- STATUS.PHASE (R14). -/
  phase : Phase
  /-- STATUS.VAR (R14): the variant latched by the last successful INIT. -/
  var : Variant
  /-- STATUS.FCODE (R14, R108). -/
  fcode : FaultCode
  /-- STATUS.DLEN (R14). -/
  dlen : BitVec 10
  /-- OUTBITS (R15). -/
  outbits : Word32
  /-- XOFN (R16). -/
  xofn : BitVec 10
  /-- LEN (R17). -/
  len : Word64
  /-- H[0..7] (R9). -/
  h : Chain
  /-- S[0..199] (R10). -/
  sponge : SpongeBytes
  /-- BLK[0..167] (R19). -/
  blk : Vector Byte 168
  /-- DOUT[0..511] (R20). -/
  dout : Vector Byte 512
  /-- The model's own: what the outside does next, oldest first (R33; log 1). -/
  pending : List HostEvent
  /-- The model's own: what the host received last (R25, R27; log 2). -/
  resp : Response
  /-- The model's own: how many reset inputs were taken; it indexes the free values (log 6). -/
  resets : Nat
  deriving DecidableEq, Repr

/-- Why a step can stop the machine: it cannot. Every command and every access ends in a next state
(R107): a refused command latches FCODE and a refused access answers a bus error (log 9). -/
inductive Fault where
  deriving DecidableEq, Repr

/-- Why an instruction can have no meaning. -/
inductive Refusal where
  /-- Raised by `exec` for an instruction with no meaning yet (none is left). Safe. -/
  | notModelled (mnemonic : String)
  deriving DecidableEq, Repr

/-- The core after reset (R22, R122), with the given contents of what reset leaves unspecified
(H, S, BLK). -/
def State.afterReset (h : Chain) (sponge : SpongeBytes) (blk : Vector Byte 168) : State where
  phase := .idle
  var := .md .sha1
  fcode := .none
  dlen := 0
  outbits := 0
  xofn := 0
  len := 0
  h := h
  sponge := sponge
  blk := blk
  dout := Vector.replicate 512 0
  pending := []
  resp := .nothing
  resets := 0

/-- The machine right after reset. DESIGN CHOICE: H, S and BLK, which R22 leaves unspecified, are
zero here (log 3, 4, 5); nothing is pending (log 1). -/
def State.reset : State :=
  State.afterReset (Vector.replicate 8 0) (Vector.replicate 200 0) (Vector.replicate 168 0)

end Sys2Proof.Machine
end

