-- ==== Sys2Proof/Machine/Sha1.lean ====
section
/-! DEFINITION. The SHA-1 core (42_md_sha1.md R65 to R70): 80 rounds on a 5-word state. -/

namespace Sys2Proof.Machine

/-- The SHA-1 initialization vector (R65); H[5..7] = 0 (90_conflicts.md C1, C6). -/
def sha1Iv : Chain :=
  (#v[0x67452301, 0xEFCDAB89, 0x98BADCFE, 0x10325476, 0xC3D2E1F0, 0, 0, 0])

/-- K_t (R66): one of four constants, one per group of 20 rounds. -/
def sha1K (t : Nat) : Word32 :=
  if t < 20 then 0x5A827999
  else if t < 40 then 0x6ED9EBA1
  else if t < 60 then 0x8F1BBCDC
  else 0xCA62C1D6

/-- f_t(b, c, d) (R67). -/
def sha1F (t : Nat) (b c d : Word32) : Word32 :=
  if t < 20 then ch b c d
  else if t < 40 then parity b c d
  else if t < 60 then maj b c d
  else parity b c d

/-- `sha1_schedule(blk)` (R68): 16 big-endian words expanded to 80. -/
def sha1Schedule (blk : List Byte) : List Word32 :=
  (List.range' 16 64).foldl
    (fun w t => w ++ [rotl (w.getD (t - 3) 0 ^^^ w.getD (t - 8) 0 ^^^ w.getD (t - 14) 0 ^^^
      w.getD (t - 16) 0) 1])
    (packBe 32 blk)

/-- The working variables of SHA-1 (R69). -/
structure Sha1Vars where
  a : Word32
  b : Word32
  c : Word32
  d : Word32
  e : Word32
  deriving DecidableEq, Repr

/-- `sha1_round(t, (a, b, c, d, e), W[t])` (R69). -/
def sha1Round (t : Nat) (v : Sha1Vars) (wt : Word32) : Sha1Vars where
  a := rotl v.a 5 + sha1F t v.b v.c v.d + v.e + sha1K t + wt
  b := v.a
  c := rotl v.b 30
  d := v.c
  e := v.d

/-- The 80 rounds of R70 on schedule `w`. -/
def sha1Rounds (w : List Word32) (v : Sha1Vars) : Sha1Vars :=
  (List.range 80).foldl (fun v t => sha1Round t v (w.getD t 0)) v

/-- The low 32 bits of a chaining register (R9, R70). -/
def low32 (x : Word64) : Word32 := x.setWidth 32

/-- The working variables as loaded from H[0..4] (R70). -/
def sha1Load (h : Chain) : Sha1Vars :=
  ⟨low32 h[0], low32 h[1], low32 h[2], low32 h[3], low32 h[4]⟩

/-- `sha1_compress(H, blk)` (R70). H[5..7] are not read or written. -/
def sha1Compress (h : Chain) (blk : List Byte) : Chain :=
  let v := sha1Rounds (sha1Schedule blk) (sha1Load h)
  (#v[(low32 h[0] + v.a).setWidth 64, (low32 h[1] + v.b).setWidth 64,
     (low32 h[2] + v.c).setWidth 64, (low32 h[3] + v.d).setWidth 64,
     (low32 h[4] + v.e).setWidth 64, h[5], h[6], h[7]])

end Sys2Proof.Machine
end

