-- ==== Sys2Proof/Machine/Sha2.lean ====
section
/-! DEFINITION. The SHA-2 32-bit and 64-bit cores (43_md_sha2.md R71 to R78), one structure at two word widths. -/

namespace Sys2Proof.Machine

/-- K256[0..63] (R72). -/
def k256 : List Word32 :=
  [0x428A2F98, 0x71374491, 0xB5C0FBCF, 0xE9B5DBA5, 0x3956C25B, 0x59F111F1, 0x923F82A4, 0xAB1C5ED5,
    0xD807AA98, 0x12835B01, 0x243185BE, 0x550C7DC3, 0x72BE5D74, 0x80DEB1FE, 0x9BDC06A7, 0xC19BF174] ++
  [0xE49B69C1, 0xEFBE4786, 0x0FC19DC6, 0x240CA1CC, 0x2DE92C6F, 0x4A7484AA, 0x5CB0A9DC, 0x76F988DA,
    0x983E5152, 0xA831C66D, 0xB00327C8, 0xBF597FC7, 0xC6E00BF3, 0xD5A79147, 0x06CA6351, 0x14292967] ++
  [0x27B70A85, 0x2E1B2138, 0x4D2C6DFC, 0x53380D13, 0x650A7354, 0x766A0ABB, 0x81C2C92E, 0x92722C85,
    0xA2BFE8A1, 0xA81A664B, 0xC24B8B70, 0xC76C51A3, 0xD192E819, 0xD6990624, 0xF40E3585, 0x106AA070] ++
  [0x19A4C116, 0x1E376C08, 0x2748774C, 0x34B0BCB5, 0x391C0CB3, 0x4ED8AA4A, 0x5B9CCA4F, 0x682E6FF3,
    0x748F82EE, 0x78A5636F, 0x84C87814, 0x8CC70208, 0x90BEFFFA, 0xA4506CEB, 0xBEF9A3F7, 0xC67178F2]

/-- K512[0..79] (R73). -/
def k512 : List Word64 :=
  [0x428A2F98D728AE22, 0x7137449123EF65CD, 0xB5C0FBCFEC4D3B2F, 0xE9B5DBA58189DBBC,
    0x3956C25BF348B538, 0x59F111F1B605D019, 0x923F82A4AF194F9B, 0xAB1C5ED5DA6D8118,
    0xD807AA98A3030242, 0x12835B0145706FBE, 0x243185BE4EE4B28C, 0x550C7DC3D5FFB4E2,
    0x72BE5D74F27B896F, 0x80DEB1FE3B1696B1, 0x9BDC06A725C71235, 0xC19BF174CF692694] ++
  [0xE49B69C19EF14AD2, 0xEFBE4786384F25E3, 0x0FC19DC68B8CD5B5, 0x240CA1CC77AC9C65,
    0x2DE92C6F592B0275, 0x4A7484AA6EA6E483, 0x5CB0A9DCBD41FBD4, 0x76F988DA831153B5,
    0x983E5152EE66DFAB, 0xA831C66D2DB43210, 0xB00327C898FB213F, 0xBF597FC7BEEF0EE4,
    0xC6E00BF33DA88FC2, 0xD5A79147930AA725, 0x06CA6351E003826F, 0x142929670A0E6E70] ++
  [0x27B70A8546D22FFC, 0x2E1B21385C26C926, 0x4D2C6DFC5AC42AED, 0x53380D139D95B3DF,
    0x650A73548BAF63DE, 0x766A0ABB3C77B2A8, 0x81C2C92E47EDAEE6, 0x92722C851482353B,
    0xA2BFE8A14CF10364, 0xA81A664BBC423001, 0xC24B8B70D0F89791, 0xC76C51A30654BE30,
    0xD192E819D6EF5218, 0xD69906245565A910, 0xF40E35855771202A, 0x106AA07032BBD1B8] ++
  [0x19A4C116B8D2D0C8, 0x1E376C085141AB53, 0x2748774CDF8EEB99, 0x34B0BCB5E19B48A8,
    0x391C0CB3C5C95A63, 0x4ED8AA4AE3418ACB, 0x5B9CCA4F7763E373, 0x682E6FF3D6B2B8A3,
    0x748F82EE5DEFB2FC, 0x78A5636F43172F60, 0x84C87814A1F0AB72, 0x8CC702081A6439EC,
    0x90BEFFFA23631E28, 0xA4506CEBDE82BDE9, 0xBEF9A3F7B2C67915, 0xC67178F2E372532B] ++
  [0xCA273ECEEA26619C, 0xD186B8C721C0C207, 0xEADA7DD6CDE0EB1E, 0xF57D4F7FEE6ED178,
    0x06F067AA72176FBA, 0x0A637DC5A2C898A6, 0x113F9804BEF90DAE, 0x1B710B35131C471B,
    0x28DB77F523047D84, 0x32CAAB7B40C72493, 0x3C9EBE0A15C9BEBC, 0x431D67C49C100D4C,
    0x4CC5D4BECB3E42B6, 0x597F299CFC657E2A, 0x5FCB6FAB3AD6FAEC, 0x6C44198C4A475817]

/-- The initialization vectors of VAR 1..6 (R71), and of SHA-1 (R65), as INIT writes them into H[0..7]; 32-bit values are stored as zext_64. -/
def mdIv : MdVariant → Chain
  | .sha1 => sha1Iv
  | .sha224 => #v[0xC1059ED8, 0x367CD507, 0x3070DD17, 0xF70E5939,
      0xFFC00B31, 0x68581511, 0x64F98FA7, 0xBEFA4FA4]
  | .sha256 => #v[0x6A09E667, 0xBB67AE85, 0x3C6EF372, 0xA54FF53A,
      0x510E527F, 0x9B05688C, 0x1F83D9AB, 0x5BE0CD19]
  | .sha384 => #v[0xCBBB9D5DC1059ED8, 0x629A292A367CD507, 0x9159015A3070DD17, 0x152FECD8F70E5939,
      0x67332667FFC00B31, 0x8EB44A8768581511, 0xDB0C2E0D64F98FA7, 0x47B5481DBEFA4FA4]
  | .sha512 => #v[0x6A09E667F3BCC908, 0xBB67AE8584CAA73B, 0x3C6EF372FE94F82B, 0xA54FF53A5F1D36F1,
      0x510E527FADE682D1, 0x9B05688C2B3E6C1F, 0x1F83D9ABFB41BD6B, 0x5BE0CD19137E2179]
  | .sha512t224 => #v[0x8C3D37C819544DA2, 0x73E1996689DCD4D6, 0x1DFAB7AE32FF9C82, 0x679DD514582F9FCF,
      0x0F6D2B697BD44DA8, 0x77E36F7304C48942, 0x3F9D85A86A1D36C8, 0x1112E6AD91D692A1]
  | .sha512t256 => #v[0x22312194FC2BF72C, 0x9F555FA3C84C64C2, 0x2393B86B6F53B151, 0x963877195940EABD,
      0x96283EE2A88EFFE3, 0xBE5E1E2553863992, 0x2B0199FC2C85B8AA, 0x0EB72DDC81C52CA2]

/-- Σ0_32 (R74). -/
def bigSigma0_32 (x : Word32) : Word32 := rotr x 2 ^^^ rotr x 13 ^^^ rotr x 22

/-- Σ1_32 (R74). -/
def bigSigma1_32 (x : Word32) : Word32 := rotr x 6 ^^^ rotr x 11 ^^^ rotr x 25

/-- σ0_32 (R74). -/
def smallSigma0_32 (x : Word32) : Word32 := rotr x 7 ^^^ rotr x 18 ^^^ shr x 3

/-- σ1_32 (R74). -/
def smallSigma1_32 (x : Word32) : Word32 := rotr x 17 ^^^ rotr x 19 ^^^ shr x 10

/-- Σ0_64 (R75). -/
def bigSigma0_64 (x : Word64) : Word64 := rotr x 28 ^^^ rotr x 34 ^^^ rotr x 39

/-- Σ1_64 (R75). -/
def bigSigma1_64 (x : Word64) : Word64 := rotr x 14 ^^^ rotr x 18 ^^^ rotr x 41

/-- σ0_64 (R75). -/
def smallSigma0_64 (x : Word64) : Word64 := rotr x 1 ^^^ rotr x 8 ^^^ shr x 7

/-- σ1_64 (R75). -/
def smallSigma1_64 (x : Word64) : Word64 := rotr x 19 ^^^ rotr x 61 ^^^ shr x 6

/-- What distinguishes the 32-bit and the 64-bit core: round count, constants, sigma functions. -/
structure Sha2Core (w : Nat) where
  rounds : Nat
  k : List (BitVec w)
  bigSigma0 : BitVec w → BitVec w
  bigSigma1 : BitVec w → BitVec w
  smallSigma0 : BitVec w → BitVec w
  smallSigma1 : BitVec w → BitVec w

/-- The 32-bit core: SHA-224 and SHA-256. -/
def sha2Core32 : Sha2Core 32 :=
  ⟨64, k256, bigSigma0_32, bigSigma1_32, smallSigma0_32, smallSigma1_32⟩

/-- The 64-bit core: SHA-384, SHA-512, SHA-512/224 and SHA-512/256. -/
def sha2Core64 : Sha2Core 64 :=
  ⟨80, k512, bigSigma0_64, bigSigma1_64, smallSigma0_64, smallSigma1_64⟩

/-- `sha2_schedule_W(blk)` (R76): 16 big-endian words expanded to R. -/
def sha2Schedule {w : Nat} (core : Sha2Core w) (blk : List Byte) : List (BitVec w) :=
  (List.range' 16 (core.rounds - 16)).foldl
    (fun ws t => ws ++ [ws.getD (t - 16) 0 + ws.getD (t - 7) 0 +
      core.smallSigma0 (ws.getD (t - 15) 0) + core.smallSigma1 (ws.getD (t - 2) 0)])
    (packBe w blk)

/-- The working variables of SHA-2 (R77). -/
structure Sha2Vars (w : Nat) where
  a : BitVec w
  b : BitVec w
  c : BitVec w
  d : BitVec w
  e : BitVec w
  f : BitVec w
  g : BitVec w
  h : BitVec w
  deriving DecidableEq, Repr

/-- T1 of R77. -/
def sha2T1 {w : Nat} (core : Sha2Core w) (t : Nat) (v : Sha2Vars w) (wt : BitVec w) : BitVec w :=
  v.h + core.bigSigma1 v.e + ch v.e v.f v.g + core.k.getD t 0 + wt

/-- T2 of R77. -/
def sha2T2 {w : Nat} (core : Sha2Core w) (v : Sha2Vars w) : BitVec w :=
  core.bigSigma0 v.a + maj v.a v.b v.c

/-- `sha2_round_W(t, (a, ..., h), W[t])` (R77). -/
def sha2Round {w : Nat} (core : Sha2Core w) (t : Nat) (v : Sha2Vars w) (wt : BitVec w) :
    Sha2Vars w where
  a := sha2T1 core t v wt + sha2T2 core v
  b := v.a
  c := v.b
  d := v.c
  e := v.d + sha2T1 core t v wt
  f := v.e
  g := v.f
  h := v.g

/-- The R rounds of R78 on schedule `ws`. -/
def sha2Rounds {w : Nat} (core : Sha2Core w) (ws : List (BitVec w)) (v : Sha2Vars w) : Sha2Vars w :=
  (List.range core.rounds).foldl (fun v t => sha2Round core t v (ws.getD t 0)) v

/-- H[i][W-1:0] (R78). -/
def lowWord (w : Nat) (x : Word64) : BitVec w := x.setWidth w

/-- The working variables as loaded from H[0..7] (R78). -/
def sha2Load (w : Nat) (h : Chain) : Sha2Vars w :=
  ⟨lowWord w h[0], lowWord w h[1], lowWord w h[2], lowWord w h[3],
   lowWord w h[4], lowWord w h[5], lowWord w h[6], lowWord w h[7]⟩

/-- `sha2_compress_W(H, blk)` (R78). -/
def sha2Compress {w : Nat} (core : Sha2Core w) (h : Chain) (blk : List Byte) : Chain :=
  let v := sha2Rounds core (sha2Schedule core blk) (sha2Load w h)
  (#v[(lowWord w h[0] + v.a).setWidth 64, (lowWord w h[1] + v.b).setWidth 64,
     (lowWord w h[2] + v.c).setWidth 64, (lowWord w h[3] + v.d).setWidth 64,
     (lowWord w h[4] + v.e).setWidth 64, (lowWord w h[5] + v.f).setWidth 64,
     (lowWord w h[6] + v.g).setWidth 64, (lowWord w h[7] + v.h).setWidth 64])

end Sys2Proof.Machine
end

