-- ==== Sys2Proof/Machine/MerkleDamgard.lean ====
section
/-! DEFINITION. Merkle–Damgård padding, length injection, digest extraction and the pure function of the engine (44_md_padding.md R79 to R86). -/

namespace Sys2Proof.Machine

/-- `compress(H, blk)` of a Merkle–Damgård variant: R70 for SHA-1, R78 at the variant's W otherwise. -/
def compress (v : MdVariant) (h : Chain) (blk : List Byte) : Chain :=
  match v with
  | .sha1 => sha1Compress h blk
  | .sha224 | .sha256 => sha2Compress sha2Core32 h blk
  | .sha384 | .sha512 | .sha512t224 | .sha512t256 => sha2Compress sha2Core64 h blk

/-- `pad_first(rem, lst)` (R81): rem, one 0x80 byte, and zeros up to Blk bytes. -/
def padFirst (v : MdVariant) (rem : List Byte) (lst : Nat) : List Byte :=
  rem ++ 0x80 :: zeros (v.blockBytes - lst - 1)

/-- The extra-block condition (R82): the length field has no room after lst bytes and 0x80. -/
def needsExtraBlock (v : MdVariant) (lst : Nat) : Bool := v.blockBytes - v.lengthBytes ≤ lst

/-- Length injection (R83): the last 8 bytes become the big-endian bit length. -/
def injectLength (v : MdVariant) (pb : List Byte) (total : Nat) : List Byte :=
  pb.take (v.blockBytes - 8) ++ beBytes (8 * total) 8

/-- The padded blocks that the final step compresses, in order (R84): one, or two where the extra
block is needed. `buf` is BLK, of which only the first `lst` bytes are read. -/
def mdFinalBlocks (v : MdVariant) (buf : List Byte) (lst total : Nat) : List (List Byte) :=
  let pb := padFirst v (buf.take lst) lst
  if needsExtraBlock v lst then [pb, injectLength v (zeros v.blockBytes) total]
  else [injectLength v pb total]

/-- `md_extract(H)` (R85): the first words of H, each rendered big-endian, truncated to N bytes. -/
def mdExtract (v : MdVariant) (h : Chain) : List Byte :=
  let words := h.toList.take v.chainWords
  if v.wordBits = 32 then fromWords (words.map low32) v.digestBytes
  else fromWords words v.digestBytes

/-- `md_final(H, BLK, lst, total)` (R84): the final H and the digest. -/
def mdFinal (v : MdVariant) (h : Chain) (buf : List Byte) (lst total : Nat) : Chain × List Byte :=
  let h' := (mdFinalBlocks v buf lst total).foldl (compress v) h
  (h', mdExtract v h')

/-- `MDHash_v(M)` (R86). -/
def mdHash (v : MdVariant) (m : List Byte) : List Byte :=
  let q := m.length / v.blockBytes
  let lst := m.length - q * v.blockBytes
  let h := (List.range q).foldl
    (fun h j => compress v h (slice m (j * v.blockBytes) v.blockBytes)) (mdIv v)
  (mdFinal v h (m.drop (q * v.blockBytes)) lst m.length).2

end Sys2Proof.Machine
end

