-- ==== Sys2Proof/Machine/Flags.lean ====
section
/-! DEFINITION. The STATUS word (R14). The core has no arithmetic flags: "no rule sets a carry, overflow or zero flag"; STATUS is its only status. -/

namespace Sys2Proof.Machine

/-- The PHASE field (R14). -/
def phaseBits : Phase → BitVec 2
  | .idle => 0
  | .absorb => 1
  | .done => 2
  | .fault => 3

/-- The FCODE field (R108). -/
def faultBits : FaultCode → BitVec 3
  | .none => 0
  | .illegalCommand => 1
  | .unsupportedVariant => 2
  | .sequenceError => 3
  | .badArgument => 4
  | .lengthOverflow => 5

/-- The VAR field (R14, R42). -/
def variantBits (v : Variant) : BitVec 4 := BitVec.ofNat 4 v.id

/-- STATUS as the host reads it (R14): DLEN [25:16], FCODE [10:8], VAR [7:4], PHASE [1:0], the
reserved bits 0. -/
def statusWord (s : State) : Word32 :=
  (0 : BitVec 6) ++ s.dlen ++ (0 : BitVec 5) ++ faultBits s.fcode ++ variantBits s.var ++
    (0 : BitVec 2) ++ phaseBits s.phase

end Sys2Proof.Machine
end

