-- ==== Sys2Proof/Machine/Operands.lean ====
section
/-! DEFINITION. The operands of the commands (R40, R103 to R105): the variant an INIT selects, the OUTBITS check, and the bytes of BLK that a command reads. -/

namespace Sys2Proof.Machine

/-- The variant INIT var selects (R42); none for var > 12. -/
def initVariant (var : Byte) : Option Variant := variantOfId var.toNat

/-- The OUTBITS a SHAKE INIT refuses (R103): not a multiple of 8, or above 8·MAX_XOF_BYTES. -/
def badOutbits (outbits : Word32) : Bool :=
  outbits.toNat % 8 != 0 || 8 * Config.maxXofBytes < outbits.toNat

/-- BLK[0..n) (R104, R105). -/
def blkPrefix (s : State) (n : Nat) : List Byte := s.blk.toList.take n

/-- The XOFN that INIT latches (R16): OUTBITS / 8 for SHAKE, N of the variant otherwise. -/
def initXofn (v : Variant) (outbits : Word32) : BitVec 10 :=
  BitVec.ofNat 10 (v.digestBytes outbits.toNat)

/-- LEN + n would exceed MAX_MSG_BYTES (R104, R105). The sum is exact, so nothing wraps. -/
def lengthOverflows (s : State) (n : Nat) : Bool := Config.maxMsgBytes < s.len.toNat + n

end Sys2Proof.Machine
end

