-- ==== Sys2Proof/Machine/Ops.lean ====
section
/-! DEFINITION. The shared operations: fault entry (R111), the way every command is ignored in FAULT (R102, R112), writing the digest buffer (R105), and reset as an input (R122). -/

namespace Sys2Proof.Machine

/-- `raise Fault(code)`, fault entry (R111): PHASE and FCODE, nothing else. -/
def raiseFault (code : FaultCode) (s : State) : State :=
  { s with phase := .fault, fcode := code }

/-- The first line of Dispatch (R102): "every command is ignored in FAULT". Otherwise `f` is the
command's own effect. -/
def unlessFault (f : State → State) (s : State) : State :=
  if s.phase = .fault then s else f s

/-- What Dispatch does for a word that is no command (R102, R43). -/
def illegalCommand (s : State) : State := unlessFault (raiseFault .illegalCommand) s

/-- `DOUT[0..n) <- D` (R105). Where D is shorter than n or n is above 512, which no run reaches, the
bytes that have no counterpart stay (log 12). -/
def writeDigest (n : Nat) (d : List Byte) (dout : Vector Byte 512) : Vector Byte 512 :=
  Vector.ofFn fun i => if i.val < n then d.getD i.val dout[i] else dout[i]

/-- The end of FINAL (R105): DOUT, DLEN and PHASE. -/
def finishDigest (d : List Byte) (s : State) : State :=
  { s with dout := writeDigest s.xofn.toNat d s.dout, dlen := s.xofn, phase := .done }

/-- Reset as an input (R122): every element as R22 says; H, S and BLK, "unspecified", become free
values (log 6). The host's further accesses stay. This is the only way out of FAULT (R112). -/
def takeReset (s : State) : State :=
  { State.afterReset
      (Vector.ofFn fun i => Config.freeH (8 * s.resets + i.val))
      (Vector.ofFn fun i => Config.freeSponge (200 * s.resets + i.val))
      (Vector.ofFn fun i => Config.freeBlk (168 * s.resets + i.val)) with
    pending := s.pending
    resets := s.resets + 1 }

end Sys2Proof.Machine
end

