-- ==== Sys2Proof/Machine/Sponge.lean ====
section
/-! DEFINITION. The sponge engine and the Keccak-f[1600] permutation (45_sponge.md R88 to R100). -/

namespace Sys2Proof.Machine

/-- The 25 lanes of the sponge state; lane (x, y) is at index x + 5y (R88). -/
abbrev Lanes := Vector Word64 25

/-- A[x][y] (R88): "indices x and y are taken modulo 5 everywhere". -/
def lane (a : Lanes) (x y : Nat) : Word64 := a[x % 5 + 5 * (y % 5)]'(by omega)

/-- The lanes whose lane (x, y) is `f x y`, for x, y in 0..4. -/
def mkLanes (f : Nat → Nat → Word64) : Lanes := Vector.ofFn fun k => f (k.val % 5) (k.val / 5)

/-- The lane view of S (R88): lane k is pack_le64(S[8k .. 8k+8)). -/
def lanesOf (s : SpongeBytes) : Lanes :=
  Vector.ofFn fun k => BitVec.ofNat 64 (leNat (slice s.toList (8 * k.val) 8))

/-- The byte view of the lanes (R56, R88): S[8k + i] is bits [8i+7:8i] of lane k. -/
def bytesOf (a : Lanes) : SpongeBytes :=
  Vector.ofFn fun i => (a[i.val / 8]'(by omega)).extractLsb' (8 * (i.val % 8)) 8

/-- C[x] of θ (R89): the parity of column x. -/
def columnParity (a : Lanes) (x : Nat) : Word64 :=
  lane a x 0 ^^^ lane a x 1 ^^^ lane a x 2 ^^^ lane a x 3 ^^^ lane a x 4

/-- D[x] of θ (R89): C[x-1] ^ rotl_64(C[x+1], 1), indices mod 5. -/
def thetaTerm (a : Lanes) (x : Nat) : Word64 :=
  columnParity a (x + 4) ^^^ rotl (columnParity a (x + 1)) 1

/-- θ (R89). -/
def theta (a : Lanes) : Lanes := mkLanes fun x y => lane a x y ^^^ thetaTerm a x

/-- One row of the table of R90: the entry in column x, with x taken modulo 5. -/
def rhoRow (c0 c1 c2 c3 c4 x : Nat) : Nat :=
  match x % 5 with
  | 0 => c0
  | 1 => c1
  | 2 => c2
  | 3 => c3
  | _ => c4

/-- RHO[x][y] (R90): "Rows are y, columns are x". -/
def rhoOffset (x y : Nat) : Nat :=
  match y % 5 with
  | 0 => rhoRow 0 1 62 28 27 x
  | 1 => rhoRow 36 44 6 55 20 x
  | 2 => rhoRow 3 10 43 25 39 x
  | 3 => rhoRow 41 45 15 21 8 x
  | _ => rhoRow 18 2 61 56 14 x

/-- The sources of ρ and π: the lane that arrives at (x', y') = (y, 2x + 3y mod 5) came from
y = x' and x = x' + 3y' mod 5 (R91, "the inverse A'[x][y] = A[(x + 3y) mod 5][x]"). -/
def rhoPi (a : Lanes) : Lanes :=
  mkLanes fun x y => rotl (lane a (x + 3 * y) x) (rhoOffset (x + 3 * y) x)

/-- χ (R92): every lane from the input lanes. -/
def chi (a : Lanes) : Lanes :=
  mkLanes fun x y => lane a x y ^^^ (~~~(lane a (x + 1) y) &&& lane a (x + 2) y)

/-- The rows of the table of R93: row k holds RC[2k] and RC[2k + 1]. -/
def roundConstantRows : List (Word64 × Word64) :=
  [(0x0000000000000001, 0x0000000000008082),
   (0x800000000000808A, 0x8000000080008000),
   (0x000000000000808B, 0x0000000080000001),
   (0x8000000080008081, 0x8000000000008009),
   (0x000000000000008A, 0x0000000000000088),
   (0x0000000080008009, 0x000000008000000A),
   (0x000000008000808B, 0x800000000000008B),
   (0x8000000000008089, 0x8000000000008003),
   (0x8000000000008002, 0x8000000000000080),
   (0x000000000000800A, 0x800000008000000A),
   (0x8000000080008081, 0x8000000000008080),
   (0x0000000080000001, 0x8000000080008008)]

/-- The round constants RC[0..23] (R93), read along the rows. -/
def roundConstants : List Word64 := roundConstantRows.flatMap fun r => [r.1, r.2]

/-- ι (R94): RC[i] into lane (0, 0) only. -/
def iota (i : Nat) (a : Lanes) : Lanes := a.set 0 (a[0] ^^^ roundConstants.getD i 0)

/-- `keccak_round(A, i)` (R95). -/
def keccakRound (a : Lanes) (i : Nat) : Lanes := iota i (chi (rhoPi (theta a)))

/-- `keccak_f(S)` (R96): 24 rounds on the lane view. -/
def keccakF (s : SpongeBytes) : SpongeBytes :=
  bytesOf ((List.range 24).foldl keccakRound (lanesOf s))

/-- `S[j] <- S[j] ^ B[j]` for j in 0..n-1 (R97, R98). -/
def xorPrefix (s : SpongeBytes) (bs : List Byte) (n : Nat) : SpongeBytes :=
  Vector.ofFn fun i => if i.val < n then s[i] ^^^ bs.getD i.val 0 else s[i]

/-- `S[i] <- S[i] ^ b` (R98). -/
def xorAt (s : SpongeBytes) (i : Nat) (b : Byte) : SpongeBytes :=
  if h : i < 200 then s.set i (s[i] ^^^ b) else s

/-- `sp_absorb(S, blk)` (R97). -/
def spAbsorb (v : SpongeVariant) (s : SpongeBytes) (blk : List Byte) : SpongeBytes :=
  keccakF (xorPrefix s blk v.rate)

/-- The state that `sp_pad` hands to the permutation (R98). -/
def spPadXor (v : SpongeVariant) (s : SpongeBytes) (rem : List Byte) (lst : Nat) : SpongeBytes :=
  xorAt (xorAt (xorPrefix s rem lst) lst v.suffix) (v.rate - 1) 0x80

/-- `sp_pad(S, rem, lst)` (R98). -/
def spPad (v : SpongeVariant) (s : SpongeBytes) (rem : List Byte) (lst : Nat) : SpongeBytes :=
  keccakF (spPadXor v s rem lst)

/-- The loop of `sp_squeeze` (R99) with `need` bytes still wanted. `fuel` bounds the chunks; the
caller gives more than enough. -/
def squeezeLoop (rate : Nat) : Nat → Nat → SpongeBytes → SpongeBytes × List Byte
  | 0, _, s => (s, [])
  | fuel + 1, need, s =>
    let chunk := s.toList.take (min rate need)
    if need ≤ rate then (s, chunk)
    else
      let r := squeezeLoop rate fuel (need - rate) (keccakF s)
      (r.1, chunk ++ r.2)

/-- `sp_squeeze(S, N)` (R99): the final S and the N-byte digest. -/
def spSqueeze (v : SpongeVariant) (s : SpongeBytes) (n : Nat) : SpongeBytes × List Byte :=
  squeezeLoop v.rate (n + 1) n s

/-- The number of squeeze permutations (R99): ceil(N / rate) − 1 for N ≥ 1, and 0 for N = 0. -/
def squeezePermutations (v : SpongeVariant) (n : Nat) : Nat := (n + v.rate - 1) / v.rate - 1

/-- `SpongeHash_v(M, N)` (R100). -/
def spongeHash (v : SpongeVariant) (m : List Byte) (n : Nat) : List Byte :=
  let q := m.length / v.rate
  let lst := m.length - q * v.rate
  let s := (List.range q).foldl (fun s j => spAbsorb v s (slice m (j * v.rate) v.rate))
    (Vector.replicate 200 0)
  (spSqueeze v (spPad v s (m.drop (q * v.rate)) lst) n).2

end Sys2Proof.Machine
end

