-- ==== Sys2Proof/Machine/Commands.lean ====
section
/-! DEFINITION. The three commands (46_commands.md R103 to R105). Every check precedes every write, in the order of R113. -/

namespace Sys2Proof.Machine

/-- The state writes of an accepted INIT of variant `v` (R103). OUTBITS and BLK are not written. -/
def startComputation (v : Variant) (s : State) : State :=
  { s with
    var := v
    len := 0
    dlen := 0
    dout := Vector.replicate 512 0
    h := match v with
      | .md m => mdIv m
      | .sponge _ => s.h
    sponge := match v with
      | .md _ => s.sponge
      | .sponge _ => Vector.replicate 200 0
    xofn := initXofn v s.outbits
    phase := .absorb }

/-- The effect of INIT var outside FAULT (R103). -/
def initEffect (var : Byte) (s : State) : State :=
  match initVariant var with
  | none => raiseFault .unsupportedVariant s
  | some v =>
    if v.isShake && badOutbits s.outbits then raiseFault .badArgument s
    else startComputation v s

/-- The state writes of an accepted BLOCK (R104). -/
def consumeBlock (s : State) : State :=
  match s.var with
  | .md v =>
    { s with
      h := compress v s.h (blkPrefix s v.blockBytes)
      len := s.len + BitVec.ofNat 64 v.blockBytes }
  | .sponge v =>
    { s with
      sponge := spAbsorb v s.sponge (blkPrefix s v.rate)
      len := s.len + BitVec.ofNat 64 v.rate }

/-- The effect of BLOCK outside FAULT (R104). -/
def blockEffect (s : State) : State :=
  if s.phase ≠ .absorb then raiseFault .sequenceError s
  else if lengthOverflows s s.var.blockBytes then raiseFault .lengthOverflow s
  else consumeBlock s

/-- The state writes of an accepted FINAL (R105), on the state whose LEN already counts lst. -/
def finishComputation (lst : Nat) (s : State) : State :=
  match s.var with
  | .md v =>
    let r := mdFinal v s.h s.blk.toList lst s.len.toNat
    finishDigest r.2 { s with h := r.1 }
  | .sponge v =>
    let r := spSqueeze v (spPad v s.sponge (blkPrefix s lst) lst) s.xofn.toNat
    finishDigest r.2 { s with sponge := r.1 }

/-- The effect of FINAL lst outside FAULT (R105). -/
def finalEffect (lst : Byte) (s : State) : State :=
  if s.phase ≠ .absorb then raiseFault .sequenceError s
  else if s.var.blockBytes ≤ lst.toNat then raiseFault .badArgument s
  else if lengthOverflows s lst.toNat then raiseFault .lengthOverflow s
  else finishComputation lst.toNat { s with len := s.len + lst.setWidth 64 }

/-- The effect of a command outside FAULT (R102). -/
def commandEffect (i : Instr) (s : State) : State :=
  match i with
  | .init var => initEffect var s
  | .block => blockEffect s
  | .final lst => finalEffect lst s

/-- INIT var (R103). -/
def execInit (var : Byte) (s : State) : Host.Outcome State Fault Refusal :=
  .next (unlessFault (initEffect var) s)

/-- BLOCK (R104). -/
def execBlock (s : State) : Host.Outcome State Fault Refusal :=
  .next (unlessFault blockEffect s)

/-- FINAL lst (R105). -/
def execFinal (lst : Byte) (s : State) : Host.Outcome State Fault Refusal :=
  .next (unlessFault (finalEffect lst) s)

end Sys2Proof.Machine
end

