-- ==== Sys2Proof/Machine/Dispatch.lean ====
section
/-! DEFINITION. One arm per command: its meaning (R102). -/

namespace Sys2Proof.Machine

def exec (i : Instr) (s : State) : Host.Outcome State Fault Refusal :=
  match i with
  | .init var => Sys2Proof.Machine.execInit var s
  | .block => Sys2Proof.Machine.execBlock s
  | .final lst => Sys2Proof.Machine.execFinal lst s

end Sys2Proof.Machine
end

