-- ==== Sys2Proof/Machine/HostPort.lean ====
section
/-! DEFINITION. The host register window (20_memory.md R23 to R31): the address map, which accesses are admitted, what reads return and what writes store. -/

namespace Sys2Proof.Machine

/-- The regions of the window (R23). -/
inductive Region where
  | cmd
  | status
  | outbits
  | lenLo
  | lenHi
  | blk
  | dout
  /-- A reserved offset, or one outside the window. -/
  | reserved
  deriving DecidableEq, Repr

/-- The region an offset lies in (R23). -/
def regionOf (a : Nat) : Region :=
  if a < 0x004 then .cmd
  else if a < 0x008 then .status
  else if a < 0x00C then .outbits
  else if a < 0x010 then .reserved
  else if a < 0x014 then .lenLo
  else if a < 0x018 then .lenHi
  else if a < 0x100 then .reserved
  else if a < 0x1A8 then .blk
  else if a < 0x200 then .reserved
  else if a < 0x400 then .dout
  else .reserved

/-- The admitted widths of a region, in bytes (R23). -/
def regionWidths : Region → List Nat
  | .cmd | .status | .outbits | .lenLo | .lenHi => [4]
  | .blk | .dout => [1, 4]
  | .reserved => []

/-- The access (a, n) is admitted (R24): every byte in one region that is not reserved, n one of its
widths, and 4-alignment for n = 4. -/
def admitted (a n : Nat) : Bool :=
  (regionWidths (regionOf a)).contains n &&
    (List.range n).all (fun i => regionOf (a + i) == regionOf a) &&
    (n != 4 || a % 4 == 0)

/-- The byte of BLK or DOUT at a window offset, none where no buffer byte stands (R25). -/
def windowByte (s : State) (a : Nat) : Option Byte :=
  match regionOf a with
  | .blk => s.blk[a - 0x100]?
  | .dout => s.dout[a - 0x200]?
  | .cmd | .status | .outbits | .lenLo | .lenHi | .reserved => none

/-- A 32-bit big-endian read of BLK or DOUT (R25, R31): the lowest offset is bits [31:24]. -/
def windowWord (s : State) (a : Nat) : Word32 :=
  let x := fun i => (windowByte s (a + i)).getD 0
  x 0 ++ x 1 ++ x 2 ++ x 3

/-- MemRead(a, n) (R25): none where the access is refused. -/
def memRead (s : State) (a n : Nat) : Option Word32 :=
  if admitted a n then
    match regionOf a with
    | .cmd => some 0
    | .status => some (statusWord s)
    | .outbits => some s.outbits
    | .lenLo => some (s.len.extractLsb' 0 32)
    | .lenHi => some (s.len.extractLsb' 32 32)
    | .blk | .dout =>
      if n = 1 then some (((windowByte s a).getD 0).setWidth 32) else some (windowWord s a)
    | .reserved => none
  else none

/-- `BLK[i] <- b` (R26). -/
def storeBlk (s : State) (i : Nat) (b : Byte) : State := { s with blk := s.blk.setIfInBounds i b }

/-- BLK with its bytes i..i+3 replaced by the big-endian bytes of `v` (R26). -/
def setBlkWord (b : Vector Byte 168) (i : Nat) (v : Word32) : Vector Byte 168 :=
  (((b.setIfInBounds i (v.extractLsb' 24 8)).setIfInBounds (i + 1) (v.extractLsb' 16 8)).setIfInBounds
    (i + 2) (v.extractLsb' 8 8)).setIfInBounds (i + 3) (v.extractLsb' 0 8)

/-- The 32-bit big-endian write of BLK[i..i+4) (R26). -/
def storeBlkWord (s : State) (i : Nat) (v : Word32) : State := { s with blk := setBlkWord s.blk i v }

/-- What a host event asks of the core: a command to perform, or nothing beyond the state given. -/
inductive HostAction where
  | command (word : Word32) (s : State)
  | done (s : State)
  deriving DecidableEq, Repr

/-- A refused access (R27): no state of the core changes, and the host receives a bus error with the
platform's report (log 8). -/
def refuseAccess (s : State) (a n : Nat) : State :=
  { s with resp := .busError (Config.busErrorReport a n) }

/-- A host read (R25, R27). -/
def hostRead (s : State) (a n : Nat) : State :=
  match memRead s a n with
  | some v => { s with resp := .data v }
  | none => refuseAccess s a n

/-- A host write (R26, R27). A write of CMD hands the word over as a command. -/
def hostWrite (s : State) (a n : Nat) (v : Word32) : HostAction :=
  if admitted a n then
    match regionOf a with
    | .cmd => .command v { s with resp := .ack }
    | .outbits => .done { s with outbits := v, resp := .ack }
    | .blk =>
      if n = 1 then .done { storeBlk s (a - 0x100) (v.extractLsb' 0 8) with resp := .ack }
      else .done { storeBlkWord s (a - 0x100) v with resp := .ack }
    | .status | .lenLo | .lenHi | .dout | .reserved => .done (refuseAccess s a n)
  else .done (refuseAccess s a n)

/-- One host event (R25, R26, R122). -/
def hostEvent (e : HostEvent) (s : State) : HostAction :=
  match e with
  | .read a n => .done (hostRead s a n)
  | .write a n v => hostWrite s a n v
  | .reset => .done (takeReset s)

/-- The next host event, taken off `pending` in the host's order (R33); with none pending the core
does nothing and its state holds (R121, R123). -/
def nextAction (s : State) : HostAction :=
  match s.pending with
  | [] => .done s
  | e :: rest => hostEvent e { s with pending := rest }

/-- The window offset of a platform address, where it falls into the window: the window stands at
WINDOW_BASE (R23, D3). -/
def windowOffset (address : Nat) : Option Nat :=
  if Config.windowBase ≤ address ∧ address < Config.windowBase + Config.windowBytes then
    some (address - Config.windowBase)
  else none

end Sys2Proof.Machine
end

