-- ==== Sys2Proof/Machine/Step.lean ====
section
/-! DEFINITION. One step: the next host event, and, where it is a write of CMD, the whole command (R102, R125). -/

namespace Sys2Proof.Machine

/-- One step of the machine. A word that is no command faults ILLEGAL_COMMAND (R102, R43). -/
def step (s : State) : Host.Outcome State Fault Refusal :=
  match nextAction s with
  | .done t => .next t
  | .command w t =>
    match decode w with
    | .ok i => exec i t
    | .error _ => .next (illegalCommand t)

/-- `s` with the word placed where `step` takes its next command from: at the head of the host's
accesses, as the 32-bit write of CMD that carries it (R39; log 10). -/
def State.withFetchWord (s : State) (nbits w : Nat) : State :=
  { s with pending := .write 0x000 4 (BitVec.ofNat 32 (w % 2 ^ nbits)) :: s.pending }

end Sys2Proof.Machine
end

