-- ==== Sys2Proof/Machine/HostProc.lean ====
section
/-! DEFINITION. The host's side: the host syntax and its pseudo-instructions (R44), the digest it reads (R58), the host procedure (R106) and the function it computes (R86, R100). -/

namespace Sys2Proof.Machine

/-- A 32-bit write of CMD that carries command `i` (R39, R44). -/
def commandWrite (i : Instr) : HostEvent := .write 0x000 4 (encode i)

/-- `WR8 off, b` (R44). -/
def write8 (off : Nat) (b : Byte) : HostEvent := .write off 1 (b.setWidth 32)

/-- `WR32 off, v` (R44). -/
def write32 (off : Nat) (v : Word32) : HostEvent := .write off 4 v

/-- `LOADBLK bytes` (R44): one WR8 for each byte, from 0x100 on. -/
def loadBlk (bytes : List Byte) : List HostEvent :=
  (List.range bytes.length).map fun i => write8 (0x100 + i) (bytes.getD i 0)

/-- `LOADBLK bytes` as "the equivalent big-endian WR32 writes" (R44), for a multiple of 4 bytes. -/
def loadBlkWords (bytes : List Byte) : List HostEvent :=
  (List.range (bytes.length / 4)).map fun i =>
    write32 (0x100 + 4 * i) (BitVec.ofNat 32 (beNat (slice bytes (4 * i) 4)))

/-- `SETXOF bits` (R44). -/
def setXof (bits : Word32) : HostEvent := write32 0x008 bits

/-- `READDIGEST` (R44) of a digest of `dlen` bytes: STATUS, then DOUT[0..dlen). -/
def readDigest (dlen : Nat) : List HostEvent :=
  .read 0x004 4 :: (List.range dlen).map fun i => .read (0x200 + i) 1

/-- The command accesses of the host procedure (R106) for variant `v` and message `m`: INIT, for
each full block LOADBLK and BLOCK, then LOADBLK of the remainder and FINAL. -/
def hashAccesses (v : Variant) (m : List Byte) : List HostEvent :=
  let b := v.blockBytes
  let q := m.length / b
  let lst := m.length - q * b
  commandWrite (.init (BitVec.ofNat 8 v.id)) ::
    ((List.range q).flatMap fun j => loadBlk (slice m (j * b) b) ++ [commandWrite .block]) ++
    loadBlk (m.drop (q * b)) ++ [commandWrite (.final (BitVec.ofNat 8 lst))]

/-- `HostHash(v, M, bits)` (R106) up to its last command: SETXOF for SHAKE only, then the command
accesses. -/
def hostHash (v : Variant) (m : List Byte) (bits : Word32) : List HostEvent :=
  (if v.isShake then [setXof bits] else []) ++ hashAccesses v m

/-- D, the digest of a computation (R58): DOUT[0..DLEN). -/
def digestOf (s : State) : List Byte := s.dout.toList.take s.dlen.toNat

/-- What `HostHash` returns (R106): the digest where PHASE = DONE, the fault code otherwise. -/
def hostResult (s : State) : Except FaultCode (List Byte) :=
  if s.phase = .done then .ok (digestOf s) else .error s.fcode

/-- The pure function of the core: `MDHash_v(M)` (R86) or `SpongeHash_v(M, bits / 8)` (R100). -/
def hashOf (v : Variant) (m : List Byte) (bits : Nat) : List Byte :=
  match v with
  | .md v => mdHash v m
  | .sponge v => spongeHash v m (v.digestBytes bits)

/-- The core after the accesses `es`, made one after the other from `s` (R33). -/
def afterAccesses (es : List HostEvent) (s : State) : State :=
  match Sys2Proof.core.run es.length { s with pending := es } with
  | .next t => t
  | .fault _ | .refused _ => s

/-- `es`, then READDIGEST (R44): the read of STATUS that follows `es` gives the DLEN, and so how many
bytes of DOUT are read. -/
def thenReadDigest (es : List HostEvent) (s : State) : List HostEvent :=
  es ++ readDigest (afterAccesses es s).dlen.toNat

/-- A line of a host program (R44). DESIGN CHOICE (log 17): an operand has the width of the field it
goes to, 4 bits for the id of INIT and 8 bits for lst of FINAL. R44 gives a line with a larger number
no word, so it is no line here. -/
inductive HostLine where
  /-- `INIT <number>`, a number 0..15. -/
  | initNumber (id : BitVec 4)
  /-- `INIT <name>`. -/
  | initName (name : String)
  | block
  /-- `FINAL <lst>`, lst 0..255. -/
  | final (lst : Byte)
  | wr32 (off : Nat) (v : Word32)
  | wr8 (off : Nat) (v : Byte)
  | rd32 (off : Nat)
  | rd8 (off : Nat)
  | loadblk (bytes : List Byte)
  | setxof (bits : Word32)
  | readdigest
  /-- `HASH <variant>, <M>`. -/
  | hash (v : Variant) (m : List Byte)
  /-- `HASH_SHAKE <variant>, <M>, <bits>`. -/
  | hashShake (v : Variant) (m : List Byte) (bits : Word32)
  deriving DecidableEq, Repr

/-- The accesses a line stands for (R44) where the core is in state `s`: READDIGEST reads as many
bytes as the DLEN it finds in STATUS, also where the computation before it faulted. DESIGN CHOICE
(log 17): an unknown variant name stands for no access. -/
def lineAccesses (s : State) : HostLine → List HostEvent
  | .initNumber id => [commandWrite (.init (id.setWidth 8))]
  | .initName name =>
    match variantOfName name with
    | some v => [commandWrite (.init (BitVec.ofNat 8 v.id))]
    | none => []
  | .block => [commandWrite .block]
  | .final lst => [commandWrite (.final lst)]
  | .wr32 off v => [write32 off v]
  | .wr8 off v => [write8 off v]
  | .rd32 off => [.read off 4]
  | .rd8 off => [.read off 1]
  | .loadblk bytes => loadBlk bytes
  | .setxof bits => [setXof bits]
  | .readdigest => thenReadDigest [] s
  | .hash v m => thenReadDigest (hashAccesses v m) s
  | .hashShake v m bits => thenReadDigest (setXof bits :: hashAccesses v m) s

end Sys2Proof.Machine
end

