-- ==== Sys2Proof/Safety.lean ====
section
/-! DEFINITION. What counts as a good state and a good run, in the terms the claims use: the invariant of every reachable state, the agreement of two states on everything outside the engines, and a run without a fault or a bus error. -/

namespace Sys2Proof.Machine

/-- A computation is open or finished: PHASE is ABSORB or DONE. -/
def State.computing (s : State) : Prop := s.phase = .absorb ∨ s.phase = .done

/-- What holds in every state a run reaches, whatever reset left in H, S and BLK. -/
structure State.Inv (s : State) : Prop where
  /-- "FCODE ≠ 0 if and only if PHASE = FAULT" (R14). -/
  faultLatched : s.fcode ≠ .none ↔ s.phase = .fault
  /-- "LEN never exceeds MAX_MSG_BYTES" (R17). -/
  lenBound : s.len.toNat ≤ Config.maxMsgBytes
  /-- DLEN is 0..512 (R14). -/
  dlenBound : s.dlen.toNat ≤ Config.maxXofBytes
  /-- XOFN never exceeds MAX_XOF_BYTES (R16, R103). -/
  xofnBound : s.xofn.toNat ≤ Config.maxXofBytes
  /-- DOUT[i] "is 0x00 for every i ≥ DLEN" (R20). -/
  doutTail : ∀ i : Fin 512, s.dlen.toNat ≤ i.val → s.dout[i] = 0
  /-- IDLE "occurs only between reset and the first successful INIT" (R14): the reset values of R22
  but OUTBITS and BLK, which the host may write, still stand. -/
  idleFresh : s.phase = .idle → s.var = .md .sha1 ∧ s.dlen = 0 ∧ s.xofn = 0 ∧ s.len = 0
  /-- No digest while a message is being consumed (R103). -/
  absorbNoDigest : s.phase = .absorb → s.dlen = 0
  /-- While a message is being consumed LEN counts whole blocks (R104). -/
  absorbWholeBlocks : s.phase = .absorb → s.var.blockBytes ∣ s.len.toNat
  /-- XOFN is the variant's N for a fixed-output variant (R16). -/
  xofnFixed : s.computing → s.var.isShake = false → s.xofn.toNat = s.var.digestBytes 0
  /-- DLEN is XOFN once the digest is written (R105). -/
  doneDigest : s.phase = .done → s.dlen = s.xofn
  /-- "bits [63:32] stay 0" for a variant with W = 32 (R9). -/
  highHalvesZero : ∀ v, s.computing → s.var = .md v → v.wordBits = 32 →
    ∀ i : Fin 8, s.h[i].toNat < 2 ^ 32
  /-- For SHA-1 "H[5..7] hold 0 from INIT onward" (R9). -/
  sha1Unused : s.computing → s.var = .md .sha1 → s.h[5] = 0 ∧ s.h[6] = 0 ∧ s.h[7] = 0

/-- `s` and `t` differ at most in PHASE and FCODE (R111). -/
def sameButFault (s t : State) : Prop := t = { s with phase := t.phase, fcode := t.fcode }

/-- `s` and `t` agree on the core: everything but the model's own `pending`, `resp` and `resets`. -/
def sameCore (s t : State) : Prop :=
  t = { s with pending := t.pending, resp := t.resp, resets := t.resets }

/-- The host can tell nothing of H and S (R9, R10): `t` is `s` with other contents there. -/
def sameButEngines (s t : State) : Prop := t = { s with h := t.h, sponge := t.sponge }

/-- A host program here has "gone wrong" (R27): a latched fault or a bus error. -/
def State.wrong (s : State) : Bool :=
  s.phase == .fault ||
    match s.resp with
    | .busError _ => true
    | .nothing | .ack | .data _ => false

/-- Every one of the first `n` states a run from `s` reaches, and `s`, is free of faults and bus
errors. -/
def SafeRun (n : Nat) (s : State) : Prop :=
  ∀ k, k ≤ n → ∃ t, Sys2Proof.core.run k s = .next t ∧ State.wrong t = false

end Sys2Proof.Machine
end

