-- ==== Sys2Proof/Certificates/Slice0/Obligations.lean ====
section
/-! DEFINITION. The statements for the provers. Each docstring names the rule of spec/ it formalises. -/

open Sys2Proof Sys2Proof.Machine

/-! ### Encoding -/

/-- Every command that fits its encoding comes back from its word with every operand (R40, R41, R44). -/
def Obligations.DecodeAfterEncode : Prop :=
  ∀ i : Instr, i.WellFormed → decode (encode i) = .ok i

/-- A word has at most one meaning, and no bit of it is dropped: what decodes is well formed and
encodes back to the word (R39, R41). -/
def Obligations.EncodeAfterDecode : Prop :=
  ∀ (w : Word32) (i : Instr), decode w = .ok i → i.WellFormed ∧ encode i = w

/-- The words R43 lists, field by field. -/
def Sys2Proof.ReservedWord (w : Word32) : Prop :=
  (cmdOp w).toNat = 0 ∨ 4 ≤ (cmdOp w).toNat ∨
  ((cmdOp w).toNat = 1 ∧ (cmdLst w ≠ 0 ∨ cmdRsv w ≠ 0)) ∨
  ((cmdOp w).toNat = 2 ∧ (cmdVar w ≠ 0 ∨ cmdLst w ≠ 0 ∨ cmdRsv w ≠ 0)) ∨
  ((cmdOp w).toNat = 3 ∧ (cmdVar w ≠ 0 ∨ cmdRsv w ≠ 0))

/-- R43: exactly the listed words are illegal, and writing one to CMD outside FAULT latches
ILLEGAL_COMMAND and nothing else.
`pending` and `resp` are the model's own (log 1, log 2). -/
def Obligations.ReservedWordsAreIllegal : Prop :=
  (∀ w : Word32, (∃ e, decode w = .error e) ↔ ReservedWord w) ∧
  (∀ (s : State) (w : Word32) (rest : List HostEvent), ReservedWord w → s.phase ≠ .fault →
    step { s with pending := .write 0x000 4 w :: rest } =
      .next { s with pending := rest, resp := .ack, phase := .fault, fcode := .illegalCommand })

/-- Words written out from the bit patterns of R41 decode to the commands they stand for. -/
def Obligations.WrittenOutWordsDecode : Prop :=
  decode 0b00000000000000000000000000000001#32 = .ok (.init 0) ∧
  decode 0b00000000000000000000000011000001#32 = .ok (.init 12) ∧
  decode 0b00000000000000000000000011110001#32 = .ok (.init 15) ∧
  decode 0b00000000000000000000000000000010#32 = .ok .block ∧
  decode 0b00000000000000000000000000000011#32 = .ok (.final 0) ∧
  decode 0b00000000000000000000001100000011#32 = .ok (.final 3) ∧
  decode 0b00000000000000001111111100000011#32 = .ok (.final 255)

/-! ### The step -/

/-- A write of CMD performs the command its word decodes to: the access is taken off the host's
accesses and acknowledged, and the rest is `exec` of the command (R18, R102).
`pending` and `resp` are the model's own (log 1, log 2). -/
def Obligations.StepPerformsDecodedCommand : Prop :=
  ∀ (s : State) (w : Word32) (i : Instr) (rest : List HostEvent), decode w = .ok i →
    s.pending = .write 0x000 4 w :: rest →
    step s = exec i { s with pending := rest, resp := .ack }

/-- R121: with no access pending the core does nothing and its state holds.
`pending` and `resp` are the model's own (log 1, log 2). -/
def Obligations.IdleCoreHolds : Prop :=
  ∀ s : State, s.pending = [] → step s = .next s

/-- Every command and every step yields a next state. For a word written to CMD that is R107 (its
Dispatch "terminates and yields exactly one next state"); that a read, a write, a refused access, a
reset input and an idle core end in a next state too is read from R25, R26, R27, R122 and R121. That
nothing stops the machine is the model's inference (log 9). -/
def Obligations.EveryStepAnswers : Prop :=
  (∀ (i : Instr) (s : State), ∃ t, exec i s = .next t) ∧ (∀ s : State, ∃ t, step s = .next t)

/-! ### The commands -/

/-- INIT var, in full. In FAULT it is ignored (R102; log 16). The rest is R103: var > 12 and a SHAKE
OUTBITS that is not a multiple of 8 or above 4096 latch their faults; otherwise a computation
starts, for all thirteen variants, and OUTBITS, BLK and the other engine's state keep their values.
-/
def Obligations.InitStartsComputation : Prop :=
  ∀ (var : Byte) (s : State),
    (s.phase = .fault → exec (.init var) s = .next s) ∧
    (s.phase ≠ .fault → 12 < var.toNat →
      exec (.init var) s = .next { s with phase := .fault, fcode := .unsupportedVariant }) ∧
    (s.phase ≠ .fault → (var.toNat = 11 ∨ var.toNat = 12) →
      (s.outbits.toNat % 8 ≠ 0 ∨ 4096 < s.outbits.toNat) →
      exec (.init var) s = .next { s with phase := .fault, fcode := .badArgument }) ∧
    (∀ v : MdVariant, s.phase ≠ .fault → var.toNat = (Variant.md v).id →
      exec (.init var) s = .next { s with
        var := .md v, len := 0, dlen := 0, dout := Vector.replicate 512 0, h := mdIv v,
        xofn := BitVec.ofNat 10 v.digestBytes, phase := .absorb }) ∧
    (∀ v : SpongeVariant, s.phase ≠ .fault → var.toNat = (Variant.sponge v).id →
      (v.isShake = true → s.outbits.toNat % 8 = 0 ∧ s.outbits.toNat ≤ 4096) →
      exec (.init var) s = .next { s with
        var := .sponge v, len := 0, dlen := 0, dout := Vector.replicate 512 0,
        sponge := Vector.replicate 200 0,
        xofn := BitVec.ofNat 10 (v.digestBytes s.outbits.toNat), phase := .absorb })

/-- BLOCK, in full. Ignored in FAULT (R102; log 16). The rest is R104: SEQUENCE_ERROR in IDLE and
DONE; LENGTH_OVERFLOW past MAX_MSG_BYTES = 2^61 − 1; otherwise exactly BLK[0..B) is consumed and LEN
grows by B, and everything else (PHASE, BLK, DOUT, the other engine) keeps its value. -/
def Obligations.BlockConsumesBlock : Prop :=
  ∀ s : State,
    (s.phase = .fault → exec .block s = .next s) ∧
    (s.phase = .idle ∨ s.phase = .done →
      exec .block s = .next { s with phase := .fault, fcode := .sequenceError }) ∧
    (s.phase = .absorb → 2 ^ 61 - 1 < s.len.toNat + s.var.blockBytes →
      exec .block s = .next { s with phase := .fault, fcode := .lengthOverflow }) ∧
    (∀ v, s.phase = .absorb → s.var = .md v → s.len.toNat + v.blockBytes ≤ 2 ^ 61 - 1 →
      exec .block s = .next { s with
        h := compress v s.h (s.blk.toList.take v.blockBytes)
        len := BitVec.ofNat 64 (s.len.toNat + v.blockBytes) }) ∧
    (∀ v, s.phase = .absorb → s.var = .sponge v → s.len.toNat + v.rate ≤ 2 ^ 61 - 1 →
      exec .block s = .next { s with
        sponge := spAbsorb v s.sponge (s.blk.toList.take v.rate)
        len := BitVec.ofNat 64 (s.len.toNat + v.rate) })

/-- `t` is `s` after the digest `d` of XOFN bytes is written to DOUT and the computation is finished
(R105). -/
def Sys2Proof.Machine.DigestWritten (s t : State) (d : List Byte) : Prop :=
  t = { s with len := t.len, h := t.h, sponge := t.sponge, dout := t.dout, dlen := s.xofn,
               phase := .done } ∧
  d.length = s.xofn.toNat ∧
  ∀ i : Fin 512, t.dout[i] = if i.val < s.xofn.toNat then d.getD i.val 0 else s.dout[i]

/-- FINAL lst (R102, R105), in full. Ignored in FAULT (R102; log 16); SEQUENCE_ERROR in IDLE and
DONE; BAD_ARGUMENT for lst ≥ B; LENGTH_OVERFLOW past MAX_MSG_BYTES; otherwise LEN grows by lst, the
engine finishes on BLK[0..lst), its digest goes to DOUT[0..XOFN), DLEN becomes XOFN, PHASE becomes
DONE, and nothing else changes. R105's "|D| = XOFN = N_VAR" is a premise for the Merkle–Damgård
variants: the invariant of StepKeepsInv (R16). What H and S hold afterwards is the model's choice
(log 14): R84, R99 and R105 assign them, and U13 allows any value. -/
def Obligations.FinalWritesDigest : Prop :=
  ∀ (lst : Byte) (s : State),
    (s.phase = .fault → exec (.final lst) s = .next s) ∧
    (s.phase = .idle ∨ s.phase = .done →
      exec (.final lst) s = .next { s with phase := .fault, fcode := .sequenceError }) ∧
    (s.phase = .absorb → s.var.blockBytes ≤ lst.toNat →
      exec (.final lst) s = .next { s with phase := .fault, fcode := .badArgument }) ∧
    (s.phase = .absorb → lst.toNat < s.var.blockBytes → 2 ^ 61 - 1 < s.len.toNat + lst.toNat →
      exec (.final lst) s = .next { s with phase := .fault, fcode := .lengthOverflow }) ∧
    (∀ v, s.phase = .absorb → s.var = .md v → s.xofn.toNat = v.digestBytes →
      lst.toNat < v.blockBytes → s.len.toNat + lst.toNat ≤ 2 ^ 61 - 1 →
      ∃ t, exec (.final lst) s = .next t ∧ t.len.toNat = s.len.toNat + lst.toNat ∧
        t.sponge = s.sponge ∧
        t.h = (mdFinal v s.h s.blk.toList lst.toNat (s.len.toNat + lst.toNat)).1 ∧
        DigestWritten s t (mdFinal v s.h s.blk.toList lst.toNat (s.len.toNat + lst.toNat)).2) ∧
    (∀ v, s.phase = .absorb → s.var = .sponge v → lst.toNat < v.rate →
      s.len.toNat + lst.toNat ≤ 2 ^ 61 - 1 →
      ∃ t, exec (.final lst) s = .next t ∧ t.len.toNat = s.len.toNat + lst.toNat ∧
        t.h = s.h ∧
        t.sponge = (spSqueeze v (spPad v s.sponge (s.blk.toList.take lst.toNat) lst.toNat)
          s.xofn.toNat).1 ∧
        DigestWritten s t (spSqueeze v (spPad v s.sponge (s.blk.toList.take lst.toNat) lst.toNat)
          s.xofn.toNat).2)

/-! ### Faults -/

/-- R111: a command, any word, that ends in FAULT from another phase has changed PHASE and FCODE
and nothing else of the core.
`pending` and `resp` are the model's own (log 1, log 2). -/
def Obligations.RefusedCommandChangesOnlyPhaseAndFcode : Prop :=
  ∀ (s t : State) (w : Word32) (rest : List HostEvent), s.phase ≠ .fault →
    step { s with pending := .write 0x000 4 w :: rest } = .next t → t.phase = .fault →
    t.fcode ≠ .none ∧
    t = { s with pending := rest, resp := .ack, phase := .fault, fcode := t.fcode }

/-- R112: while PHASE = FAULT every word written to CMD changes nothing of the core; only a reset
input leaves FAULT; and every other access but a read of STATUS acts as it does in any other phase.
`pending` and `resp` are the model's own (log 1, log 2). -/
def Obligations.FaultIsSticky : Prop :=
  (∀ (s : State) (w : Word32) (rest : List HostEvent), s.phase = .fault →
    step { s with pending := .write 0x000 4 w :: rest } =
      .next { s with pending := rest, resp := .ack }) ∧
  (∀ s t : State, step s = .next t → s.phase = .fault → t.phase ≠ .fault →
    s.pending.head? = some .reset) ∧
  (∀ (s t : State) (p : Phase) (c : FaultCode) (e : HostEvent) (rest : List HostEvent),
    s.phase = .fault →
    ((∃ a n, e = .read a n ∧ a ≠ 0x004) ∨ (∃ a n v, e = .write a n v ∧ a ≠ 0x000)) →
    step { s with pending := e :: rest } = .next t →
    step { s with pending := e :: rest, phase := p, fcode := c } =
      .next { t with phase := p, fcode := c })

/-- R113: which condition decides the outcome of a word written to CMD, in the order of the table.
`pending` and `resp` are the model's own (log 1, log 2). -/
def Obligations.FaultPriority : Prop :=
  ∀ (s t : State) (w : Word32) (rest : List HostEvent),
    step { s with pending := .write 0x000 4 w :: rest } = .next t →
    (s.phase = .fault → t = { s with pending := rest, resp := .ack }) ∧
    (s.phase ≠ .fault →
      (∀ e, decode w = .error e → t.phase = .fault ∧ t.fcode = .illegalCommand) ∧
      (∀ var, decode w = .ok (.init var) →
        if 12 < var.toNat then t.phase = .fault ∧ t.fcode = .unsupportedVariant
        else if (var.toNat = 11 ∨ var.toNat = 12) ∧
            (s.outbits.toNat % 8 ≠ 0 ∨ 4096 < s.outbits.toNat) then
          t.phase = .fault ∧ t.fcode = .badArgument
        else t.phase = .absorb) ∧
      (decode w = .ok .block →
        if s.phase ≠ .absorb then t.phase = .fault ∧ t.fcode = .sequenceError
        else if 2 ^ 61 - 1 < s.len.toNat + s.var.blockBytes then
          t.phase = .fault ∧ t.fcode = .lengthOverflow
        else t.phase = .absorb) ∧
      (∀ lst, decode w = .ok (.final lst) →
        if s.phase ≠ .absorb then t.phase = .fault ∧ t.fcode = .sequenceError
        else if s.var.blockBytes ≤ lst.toNat then t.phase = .fault ∧ t.fcode = .badArgument
        else if 2 ^ 61 - 1 < s.len.toNat + lst.toNat then
          t.phase = .fault ∧ t.fcode = .lengthOverflow
        else t.phase = .done))

/-! ### Frames -/

/-- No command writes OUTBITS or BLK (R15, R19), nor the model's own fields pending, resp and resets
(log 1, log 2, log 6). The bytes of the window that BLOCK, INIT and FINAL leave alone read as before:
all of them, all but DOUT, all but DOUT[0..XOFN) (R20). A command that ends outside FAULT leaves
FCODE (R14). -/
def Obligations.CommandFrame : Prop :=
  ∀ (i : Instr) (s t : State), exec i s = .next t →
    t.outbits = s.outbits ∧ t.blk = s.blk ∧ t.pending = s.pending ∧ t.resp = s.resp ∧
    t.resets = s.resets ∧
    (t.phase ≠ .fault → t.fcode = s.fcode) ∧
    (∀ a, match i with
      | .block => windowByte t a = windowByte s a
      | .init _ => a < 0x200 ∨ 0x400 ≤ a → windowByte t a = windowByte s a
      | .final _ => a < 0x200 ∨ 0x200 + s.xofn.toNat ≤ a → windowByte t a = windowByte s a)

/-- The Merkle–Damgård variants neither read nor write S and the sponge variants neither read nor
write H (R9, R10): with one latched, the other engine's state is unchanged and, replaced by any
other contents, changes nothing else of the result. -/
def Obligations.EnginesAreSeparate : Prop :=
  (∀ (i : Instr) (s t : State), exec i s = .next t →
    (∀ v, t.var = .md v → t.sponge = s.sponge) ∧ (∀ v, t.var = .sponge v → t.h = s.h)) ∧
  (∀ (i : Instr) (s t : State) (x : SpongeBytes), exec i s = .next t → (∃ v, t.var = .md v) →
    exec i { s with sponge := x } = .next { t with sponge := x }) ∧
  (∀ (i : Instr) (s t : State) (x : Chain), exec i s = .next t → (∃ v, t.var = .sponge v) →
    exec i { s with h := x } = .next { t with h := x })

/-- How PHASE moves in one step (R14): to IDLE only by a reset input or staying there, to ABSORB
only by INIT, to DONE only by FINAL from ABSORB, and out of FAULT only by a reset input.
`pending` and `resp` are the model's own (log 1, log 2). -/
def Obligations.PhaseMoves : Prop :=
  ∀ s t : State, step s = .next t → s.phase ≠ t.phase →
    (t.phase = .idle → s.pending.head? = some .reset) ∧
    (t.phase = .absorb → s.phase ≠ .fault ∧
      ∃ w var, s.pending.head? = some (.write 0x000 4 w) ∧ decode w = .ok (.init var)) ∧
    (t.phase = .done → s.phase = .absorb ∧
      ∃ w lst, s.pending.head? = some (.write 0x000 4 w) ∧ decode w = .ok (.final lst)) ∧
    (t.phase = .fault → ∃ w, s.pending.head? = some (.write 0x000 4 w))

/-- Who writes which register (R14 to R20): in one step VAR changes only by INIT or a reset input,
LEN only by INIT, BLOCK, FINAL or a reset input, the digest buffer and its length only by INIT, by
FINAL from ABSORB or by a reset input, OUTBITS and BLK only by a host write to them or a reset
input.
`pending` and `resp` are the model's own (log 1, log 2). -/
def Obligations.RegisterWriters : Prop :=
  ∀ s t : State, step s = .next t → s.pending.head? ≠ some .reset →
    let commands := fun i : Instr =>
      s.phase ≠ .fault ∧ ∃ w, s.pending.head? = some (.write 0x000 4 w) ∧ decode w = .ok i
    (t.var ≠ s.var → ∃ var, commands (.init var)) ∧
    (t.len ≠ s.len → (∃ var, commands (.init var)) ∨
      s.phase = .absorb ∧ (commands .block ∨ ∃ lst, commands (.final lst))) ∧
    (t.dout ≠ s.dout ∨ t.dlen ≠ s.dlen → (∃ var, commands (.init var)) ∨
      s.phase = .absorb ∧ ∃ lst, commands (.final lst)) ∧
    (t.outbits ≠ s.outbits → ∃ v, s.pending.head? = some (.write 0x008 4 v) ∧ t.outbits = v) ∧
    (t.blk ≠ s.blk → ∃ a n v, s.pending.head? = some (.write a n v) ∧ 0x100 ≤ a ∧ a + n ≤ 0x1A8)

/-- BLOCK reads exactly BLK[0..B) and FINAL reads exactly BLK[0..lst) (R104, R105, R126): bytes of
BLK beyond them change nothing of the result but themselves. -/
def Obligations.CommandsReadOnlyTheirBytes : Prop :=
  ∀ (s t : State) (b : Vector Byte 168),
    ((∀ i : Fin 168, i.val < s.var.blockBytes → b[i] = s.blk[i]) → exec .block s = .next t →
      exec .block { s with blk := b } = .next { t with blk := b }) ∧
    (∀ lst : Byte, (∀ i : Fin 168, i.val < lst.toNat → b[i] = s.blk[i]) →
      exec (.final lst) s = .next t →
      exec (.final lst) { s with blk := b } = .next { t with blk := b })

/-- R15: a write of OUTBITS after INIT does not affect the computation: BLOCK and FINAL give the
same result, with the new OUTBITS beside it. -/
def Obligations.LaterOutbitsHaveNoEffect : Prop :=
  ∀ (i : Instr) (s t : State) (o : Word32), (∀ var, i ≠ .init var) → exec i s = .next t →
    exec i { s with outbits := o } = .next { t with outbits := o }

/-- The tables of R42, R5 and R6 row by row: id, name, block size and N of all thirteen variants, W, R,
L and the H words used of the first seven, rate, capacity and suffix of the last six; ids above 12
select no variant. The two SHA-2 cores run the R rounds of their variants. The capacity of SHA3-384 is
R6's "1600 − 8·rate bits", 768; its table prints 832, which is 8·rate (log 18). -/
def Obligations.VariantTable : Prop :=
  let known := fun (v : Variant) (id : Nat) (name : String) (b : Nat) =>
    v.id = id ∧ v.name = name ∧ variantOfId id = some v ∧ variantOfName name = some v ∧
    v.blockBytes = b
  let md := fun (v : MdVariant) (id : Nat) (name : String) (w r b l n words : Nat) =>
    known (.md v) id name b ∧ (Variant.md v).isShake = false ∧
    (∀ outbits, (Variant.md v).digestBytes outbits = n) ∧
    v.wordBits = w ∧ v.rounds = r ∧ v.blockBytes = b ∧ v.lengthBytes = l ∧ v.digestBytes = n ∧
    v.chainWords = words
  let sponge := fun (v : SpongeVariant) (id : Nat) (name : String) (rate capacity : Nat)
      (suffix : Byte) (shake : Bool) (n : Nat → Nat) =>
    known (.sponge v) id name rate ∧ (Variant.sponge v).isShake = shake ∧
    (∀ outbits, (Variant.sponge v).digestBytes outbits = n outbits) ∧
    v.rate = rate ∧ v.capacityBits = capacity ∧ v.suffix = suffix
  (md .sha1 0 "SHA-1" 32 80 64 8 20 5 ∧
   md .sha224 1 "SHA-224" 32 64 64 8 28 8 ∧
   md .sha256 2 "SHA-256" 32 64 64 8 32 8 ∧
   md .sha384 3 "SHA-384" 64 80 128 16 48 8 ∧
   md .sha512 4 "SHA-512" 64 80 128 16 64 8 ∧
   md .sha512t224 5 "SHA-512/224" 64 80 128 16 28 8 ∧
   md .sha512t256 6 "SHA-512/256" 64 80 128 16 32 8) ∧
  (sponge .sha3_224 7 "SHA3-224" 144 448 0x06 false (fun _ => 28) ∧
   sponge .sha3_256 8 "SHA3-256" 136 512 0x06 false (fun _ => 32) ∧
   sponge .sha3_384 9 "SHA3-384" 104 768 0x06 false (fun _ => 48) ∧
   sponge .sha3_512 10 "SHA3-512" 72 1024 0x06 false (fun _ => 64) ∧
   sponge .shake128 11 "SHAKE128" 168 256 0x1F true (fun outbits => outbits / 8) ∧
   sponge .shake256 12 "SHAKE256" 136 512 0x1F true (fun outbits => outbits / 8)) ∧
  (∀ n, 12 < n → variantOfId n = none) ∧
  sha2Core32.rounds = 64 ∧ sha2Core64.rounds = 80

/-! ### The host window -/

/-- R24 and R27: the admitted accesses, written out by offset and width; every other read and write
changes no core state and answers a bus error.
`pending` and `resp` are the model's own (log 1, log 2). -/
def Obligations.UnadmittedAccessIsBusError : Prop :=
  (∀ a n : Nat, admitted a n = true ↔
    (n = 4 ∧ a % 4 = 0 ∧ (a < 0x00C ∨ a = 0x010 ∨ a = 0x014 ∨ (0x100 ≤ a ∧ a + 4 ≤ 0x1A8) ∨
      (0x200 ≤ a ∧ a + 4 ≤ 0x400))) ∨
    (n = 1 ∧ ((0x100 ≤ a ∧ a < 0x1A8) ∨ (0x200 ≤ a ∧ a < 0x400)))) ∧
  (∀ (s : State) (a n : Nat) (v : Word32) (rest : List HostEvent), admitted a n = false →
    (∃ r, step { s with pending := .read a n :: rest } =
      .next { s with pending := rest, resp := .busError r }) ∧
    (∃ r, step { s with pending := .write a n v :: rest } =
      .next { s with pending := rest, resp := .busError r }))

/-- R25: what every admitted read returns; no core state changes.
`pending` and `resp` are the model's own (log 1, log 2). -/
def Obligations.ReadsReturnWindowContents : Prop :=
  ∀ (s : State) (rest : List HostEvent),
    let answers := fun (a n : Nat) (v : Word32) =>
      step { s with pending := .read a n :: rest } =
        .next { s with pending := rest, resp := .data v }
    answers 0x000 4 0 ∧ answers 0x004 4 (statusWord s) ∧ answers 0x008 4 s.outbits ∧
    answers 0x010 4 (BitVec.ofNat 32 s.len.toNat) ∧
    answers 0x014 4 (BitVec.ofNat 32 (s.len.toNat / 2 ^ 32)) ∧
    (∀ i : Fin 168, answers (0x100 + i.val) 1 (BitVec.ofNat 32 s.blk[i].toNat)) ∧
    (∀ i : Fin 512, answers (0x200 + i.val) 1 (BitVec.ofNat 32 s.dout[i].toNat)) ∧
    (∀ i : Fin 42, answers (0x100 + 4 * i.val) 4
      (s.blk[4 * i.val] ++ s.blk[4 * i.val + 1] ++ s.blk[4 * i.val + 2] ++ s.blk[4 * i.val + 3])) ∧
    (∀ i : Fin 128, answers (0x200 + 4 * i.val) 4
      (s.dout[4 * i.val] ++ s.dout[4 * i.val + 1] ++ s.dout[4 * i.val + 2] ++ s.dout[4 * i.val + 3]))

/-- R26: what every admitted write does, in every phase: CMD performs the command, OUTBITS and BLK
store (a word big-endian), and the read-only registers and DOUT refuse with a bus error.
`pending` and `resp` are the model's own (log 1, log 2). -/
def Obligations.WritesStoreOrRefuse : Prop :=
  ∀ (s : State) (v : Word32) (rest : List HostEvent),
    (∀ i, decode v = .ok i → step { s with pending := .write 0x000 4 v :: rest } =
      exec i { s with pending := rest, resp := .ack }) ∧
    (∀ e, decode v = .error e → step { s with pending := .write 0x000 4 v :: rest } =
      .next (illegalCommand { s with pending := rest, resp := .ack })) ∧
    step { s with pending := .write 0x008 4 v :: rest } =
      .next { s with pending := rest, resp := .ack, outbits := v } ∧
    (∀ i : Fin 168, step { s with pending := .write (0x100 + i.val) 1 v :: rest } =
      .next { s with pending := rest, resp := .ack, blk := s.blk.set i (v.extractLsb' 0 8) }) ∧
    (∀ i : Fin 42, ∃ t, step { s with pending := .write (0x100 + 4 * i.val) 4 v :: rest } = .next t ∧
      t = { s with pending := rest, resp := .ack, blk := t.blk } ∧
      t.blk[4 * i.val] ++ t.blk[4 * i.val + 1] ++ t.blk[4 * i.val + 2] ++ t.blk[4 * i.val + 3] = v ∧
      ∀ j : Fin 168, j.val < 4 * i.val ∨ 4 * i.val + 4 ≤ j.val → t.blk[j] = s.blk[j]) ∧
    (∀ a n, admitted a n = true → (a = 0x004 ∨ a = 0x010 ∨ a = 0x014 ∨ 0x200 ≤ a) →
      ∃ r, step { s with pending := .write a n v :: rest } =
        .next { s with pending := rest, resp := .busError r })

/-- R31: a 32-bit write of BLK is the four 8-bit writes of its bytes, most significant first.
`pending` and `resp` are the model's own (log 1, log 2). -/
def Obligations.WordWriteIsFourByteWrites : Prop :=
  ∀ (s t : State) (i : Fin 42) (v : Word32) (rest : List HostEvent),
    step { s with pending := .write (0x100 + 4 * i.val) 4 v :: rest } = .next t →
    core.run 4 { s with pending := [
        write8 (0x100 + 4 * i.val) (v.extractLsb' 24 8),
        write8 (0x100 + 4 * i.val + 1) (v.extractLsb' 16 8),
        write8 (0x100 + 4 * i.val + 2) (v.extractLsb' 8 8),
        write8 (0x100 + 4 * i.val + 3) (v.extractLsb' 0 8)] ++ rest } = .next t

/-- "LOADBLK bytes" and its equivalent in big-endian WR32 writes leave the same state (R44).
`pending` and `resp` are the model's own (log 1, log 2). -/
def Obligations.LoadByWordsIsLoadByBytes : Prop :=
  ∀ (s : State) (bytes : List Byte) (rest : List HostEvent), 0 < bytes.length →
    bytes.length ≤ 168 → bytes.length % 4 = 0 →
    core.run (loadBlk bytes).length { s with pending := loadBlk bytes ++ rest } =
      core.run (loadBlkWords bytes).length { s with pending := loadBlkWords bytes ++ rest }

/-- R14 and R108: the fields of the STATUS word with their numbers, and its reserved bits. -/
def Obligations.StatusFields : Prop :=
  ∀ s : State,
    let field := fun (lo width : Nat) => ((statusWord s).extractLsb' lo width).toNat
    field 0 2 = (match s.phase with
      | .idle => 0
      | .absorb => 1
      | .done => 2
      | .fault => 3) ∧
    field 2 2 = 0 ∧
    field 4 4 = s.var.id ∧
    field 8 3 = (match s.fcode with
      | .none => 0
      | .illegalCommand => 1
      | .unsupportedVariant => 2
      | .sequenceError => 3
      | .badArgument => 4
      | .lengthOverflow => 5) ∧
    field 11 5 = 0 ∧
    field 16 10 = s.dlen.toNat ∧
    field 26 6 = 0

/-- The host can neither read nor write H and S (R9, R10): two states that differ only there answer
every access alike, a write of CMD included, and differ, after an access that is no write of CMD,
still only there; such an access leaves H and S as they were, but for a reset input. After a reset
input the two agree because its free values depend only on the counter of resets, the model's choice
(log 6).
`pending` and `resp` are the model's own (log 1, log 2). -/
def Obligations.HostCannotObserveEngines : Prop :=
  ∀ (s t s' t' : State) (e : HostEvent) (rest : List HostEvent), sameButEngines s t →
    step { s with pending := e :: rest } = .next s' →
    step { t with pending := e :: rest } = .next t' →
    s'.resp = t'.resp ∧
    ((∀ w, e ≠ .write 0x000 4 w) →
      sameButEngines s' t' ∧
      (e ≠ .reset → s'.h = s.h ∧ s'.sponge = s.sponge ∧ t'.h = t.h ∧ t'.sponge = t.sponge))

/-- The offset of a platform address (R23): every offset of the window stands at WINDOW_BASE plus it,
whatever WINDOW_BASE is, and no other address has one. The opaque WINDOW_BASE and this conversion are
the model's choice (log 7): no step uses them, because host events carry offsets. -/
def Obligations.WindowStandsAtItsBase : Prop :=
  (∀ off, off < 0x400 → windowOffset (Config.windowBase + off) = some off) ∧
  (∀ a off, windowOffset a = some off → off < 0x400 ∧ a = Config.windowBase + off)

/-! ### Reset -/

/-- R22: the reset values the spec gives, in State.reset. -/
def Obligations.ResetValues : Prop :=
  State.reset.phase = .idle ∧ State.reset.var.id = 0 ∧ State.reset.fcode = .none ∧
  State.reset.dlen = 0 ∧ statusWord State.reset = 0x00000000 ∧ State.reset.outbits = 0 ∧
  State.reset.xofn = 0 ∧ State.reset.len = 0 ∧ ∀ i : Fin 512, State.reset.dout[i] = 0

/-- R122: a reset input, in any state, FAULT included, sets every element to the value of R22. H, S
and BLK are unspecified and nothing is said of them; the host's later accesses are still to come.
`pending` and `resp` are the model's own (log 1, log 2). -/
def Obligations.ResetInputRestores : Prop :=
  ∀ (s : State) (rest : List HostEvent),
    ∃ t, step { s with pending := .reset :: rest } = .next t ∧
      t.phase = .idle ∧ t.var.id = 0 ∧ t.fcode = .none ∧ t.dlen = 0 ∧ statusWord t = 0 ∧
      t.outbits = 0 ∧ t.xofn = 0 ∧ t.len = 0 ∧ (∀ i : Fin 512, t.dout[i] = 0) ∧ t.pending = rest

/-! ### The invariant -/

/-- The invariant holds after reset, whatever reset leaves in H, S and BLK. -/
def Obligations.ResetHasInv : Prop :=
  State.reset.Inv ∧ ∀ h sp b, (State.afterReset h sp b).Inv

/-- Every step keeps the invariant, from every state that has it: commands, illegal words, host
accesses, bus errors and reset inputs. That H keeps its zero halves and words (R9) in DONE too rests
on log 14. -/
def Obligations.StepKeepsInv : Prop :=
  ∀ s t : State, s.Inv → step s = .next t → t.Inv

/-! ### The function the core computes -/

/-- R106, the headline: from any state other than FAULT, the host procedure for any variant and any
admitted message ends in DONE, LEN = |M|, DLEN = N, and DOUT[0..N) = MDHash_v(M) or
SpongeHash_v(M, bits / 8).
`pending` and `resp` are the model's own (log 1, log 2). -/
def Obligations.HostProcedureComputesHash : Prop :=
  ∀ (v : Variant) (m : List Byte) (bits : Word32) (s : State) (rest : List HostEvent),
    s.phase ≠ .fault → m.length ≤ 2 ^ 61 - 1 →
    (v.isShake = true → bits.toNat % 8 = 0 ∧ bits.toNat ≤ 4096) →
    ∃ t, core.run (hostHash v m bits).length { s with pending := hostHash v m bits ++ rest } =
        .next t ∧
      t.pending = rest ∧ t.phase = .done ∧ t.len.toNat = m.length ∧
      t.dlen.toNat = v.digestBytes bits.toNat ∧ digestOf t = hashOf v m bits.toNat ∧
      hostResult t = .ok (hashOf v m bits.toNat)

/-- R106, "else return the fault FCODE": a core already in FAULT keeps its code through the whole
procedure; a SHAKE output length that is not admitted ends it with BAD_ARGUMENT, and a message longer
than MAX_MSG_BYTES with LENGTH_OVERFLOW.
`pending` and `resp` are the model's own (log 1, log 2). -/
def Obligations.HostProcedureReportsFault : Prop :=
  ∀ (v : Variant) (m : List Byte) (bits : Word32) (s : State) (rest : List HostEvent),
    ∃ t, core.run (hostHash v m bits).length { s with pending := hostHash v m bits ++ rest } =
        .next t ∧ t.pending = rest ∧
      (s.phase = .fault → hostResult t = .error s.fcode) ∧
      (s.phase ≠ .fault → v.isShake = true → (bits.toNat % 8 ≠ 0 ∨ 4096 < bits.toNat) →
        hostResult t = .error .badArgument) ∧
      (s.phase ≠ .fault → (v.isShake = true → bits.toNat % 8 = 0 ∧ bits.toNat ≤ 4096) →
        2 ^ 61 - 1 < m.length → hostResult t = .error .lengthOverflow)

/-- The lines HASH and HASH_SHAKE (R44): after the host procedure they read as many bytes of DOUT as
the DLEN in STATUS. That is N where the computation completes; the DLEN from before where the core is
in FAULT or INIT refuses OUTBITS; and 0 where the message is too long. HASH_SHAKE is SETXOF followed
by HASH. That a line's accesses depend on the state it finds is log 17.
`pending` and `resp` are the model's own (log 1, log 2). -/
def Obligations.HashLineReadsDlenBytes : Prop :=
  ∀ (v : Variant) (m : List Byte) (s : State),
    let outbitsFit := v.isShake = true → s.outbits.toNat % 8 = 0 ∧ s.outbits.toNat ≤ 4096
    let reads := fun n => lineAccesses s (.hash v m) = hashAccesses v m ++ readDigest n
    (s.phase ≠ .fault → outbitsFit → m.length ≤ 2 ^ 61 - 1 →
      reads (v.digestBytes s.outbits.toNat)) ∧
    (s.phase = .fault ∨ ¬ outbitsFit → reads s.dlen.toNat) ∧
    (s.phase ≠ .fault → outbitsFit → 2 ^ 61 - 1 < m.length → reads 0) ∧
    (∀ bits, lineAccesses s (.hashShake v m bits) =
      setXof bits :: lineAccesses { s with outbits := bits, resp := .ack } (.hash v m))

/-- READDIGEST after DONE returns the digest byte by byte (R58, R25): byte i of it answers the
8-bit read at 0x200 + i, and every DOUT byte beyond DLEN reads 0.
`pending` and `resp` are the model's own (log 1, log 2). -/
def Obligations.ReadDigestReturnsDigest : Prop :=
  ∀ (s : State) (i : Nat) (rest : List HostEvent), s.Inv → i < 512 →
    step { s with pending := .read (0x200 + i) 1 :: rest } =
      .next { s with pending := rest, resp := .data (((digestOf s).getD i 0).setWidth 32) }

/-! ### The Merkle–Damgård engine -/

/-- The padded blocks of the final step (R81 to R84): two where lst + 1 + L exceeds Blk, otherwise one,
each Blk bytes long; together they are BLK[0..lst), 0x80, zeros, and the big-endian bit length. -/
def Obligations.FinalBlocksShape : Prop :=
  ∀ (v : MdVariant) (buf : List Byte) (lst total : Nat), lst < v.blockBytes → lst ≤ buf.length →
    (needsExtraBlock v lst = true ↔ v.blockBytes < lst + 1 + v.lengthBytes) ∧
    (mdFinalBlocks v buf lst total).length =
      (if v.blockBytes < lst + 1 + v.lengthBytes then 2 else 1) ∧
    (∀ b ∈ mdFinalBlocks v buf lst total, b.length = v.blockBytes) ∧
    (mdFinalBlocks v buf lst total).flatten =
      buf.take lst ++ 0x80 :: zeros
        ((mdFinalBlocks v buf lst total).length * v.blockBytes - lst - 1 - 8) ++
        beBytes (8 * total) 8

/-- The digest of a Merkle–Damgård variant has exactly N bytes (R5, R85). -/
def Obligations.ExtractedDigestLength : Prop :=
  ∀ (v : MdVariant) (h : Chain), (mdExtract v h).length = v.digestBytes

/-- R31: after the FINAL of a 32-bit variant the 32-bit reads of DOUT return the H words, "the 32-bit
read at 0x200 after SHA-1 FINAL returns H[0]". The premise on XOFN is the invariant's (R16). That H
still holds those words after FINAL is the model's choice (log 14): U13 allows any value. -/
def Obligations.WordReadsAfterFinalReturnH : Prop :=
  ∀ (v : MdVariant) (s t : State) (lst : Byte) (k : Fin 8), s.var = .md v → v.wordBits = 32 →
    s.phase = .absorb → s.xofn.toNat = v.digestBytes → exec (.final lst) s = .next t →
    t.phase = .done → 4 * k.val + 4 ≤ v.digestBytes →
    memRead t (0x200 + 4 * k.val) 4 = some (t.h[k].setWidth 32)

/-- The block-boundary cases of R87: for a message of |M| bytes the number of BLOCK commands the host
procedure issues, the lst of the FINAL that ends it, and the number of blocks that FINAL
compresses. -/
def Obligations.BlockBoundaryCases : Prop :=
  ∀ (v : MdVariant) (m buf : List Byte),
    let row := fun (len blocks lst finals : Nat) => m.length = len →
      (hashAccesses (.md v) m).count (commandWrite .block) = blocks ∧
      (hashAccesses (.md v) m).getLast? = some (commandWrite (.final (BitVec.ofNat 8 lst))) ∧
      (mdFinalBlocks v buf lst m.length).length = finals
    (v.blockBytes = 64 → row 0 0 0 1 ∧ row 55 0 55 1 ∧ row 56 0 56 2 ∧ row 63 0 63 2 ∧
      row 64 1 0 1 ∧ row 65 1 1 1 ∧ row 119 1 55 1 ∧ row 120 1 56 2) ∧
    (v.blockBytes = 128 → row 111 0 111 1 ∧ row 112 0 112 2 ∧ row 127 0 127 2 ∧ row 128 1 0 1 ∧
      row 129 1 1 1 ∧ row 247 1 119 2 ∧ row 248 1 120 2)

/-- R68: the SHA-1 schedule has 80 words, the first 16 are the block's big-endian words, and every
later one satisfies the recurrence on the finished schedule. -/
def Obligations.Sha1ScheduleExpandsBlock : Prop :=
  ∀ blk : List Byte, blk.length = 64 →
    (sha1Schedule blk).length = 80 ∧ (sha1Schedule blk).take 16 = packBe 32 blk ∧
    ∀ t, 16 ≤ t → t < 80 →
      (sha1Schedule blk).getD t 0 =
        rotl ((sha1Schedule blk).getD (t - 3) 0 ^^^ (sha1Schedule blk).getD (t - 8) 0 ^^^
          (sha1Schedule blk).getD (t - 14) 0 ^^^ (sha1Schedule blk).getD (t - 16) 0) 1

/-- R76: the SHA-2 schedules at both widths: 64 or 80 words, the first 16 the block's big-endian
words, and the recurrence on the finished schedule. -/
def Obligations.Sha2ScheduleExpandsBlock : Prop :=
  (∀ blk : List Byte, blk.length = 64 →
    let w := sha2Schedule sha2Core32 blk
    w.length = 64 ∧ w.take 16 = packBe 32 blk ∧
    ∀ t, 16 ≤ t → t < 64 → w.getD t 0 = w.getD (t - 16) 0 + w.getD (t - 7) 0 +
      smallSigma0_32 (w.getD (t - 15) 0) + smallSigma1_32 (w.getD (t - 2) 0)) ∧
  (∀ blk : List Byte, blk.length = 128 →
    let w := sha2Schedule sha2Core64 blk
    w.length = 80 ∧ w.take 16 = packBe 64 blk ∧
    ∀ t, 16 ≤ t → t < 80 → w.getD t 0 = w.getD (t - 16) 0 + w.getD (t - 7) 0 +
      smallSigma0_64 (w.getD (t - 15) 0) + smallSigma1_64 (w.getD (t - 2) 0))

/-- A W = 32 compression leaves bits [63:32] of every H it writes 0 (R9, R78), and SHA-1 neither
reads nor writes H[5..7] (R70). -/
def Obligations.NarrowCompressionKeepsHighHalves : Prop :=
  (∀ (v : MdVariant) (h : Chain) (blk : List Byte) (i : Fin 8), v.wordBits = 32 →
    (v = .sha1 → i.val < 5) → ((compress v h blk)[i]).toNat < 2 ^ 32) ∧
  (∀ (h h' : Chain) (blk : List Byte), (∀ i : Fin 8, i.val < 5 → h[i] = h'[i]) →
    (∀ i : Fin 8, 5 ≤ i.val → (compress .sha1 h blk)[i] = h[i]) ∧
    (∀ i : Fin 8, i.val < 5 → (compress .sha1 h blk)[i] = (compress .sha1 h' blk)[i]))

/-- "K512[t][63:32] = K256[t] for t in 0..63" (R73), and the tables have their 64 and 80 entries. -/
def Obligations.RoundConstantTablesAgree : Prop :=
  k256.length = 64 ∧ k512.length = 80 ∧ roundConstants.length = 24 ∧
  ∀ t < 64, (k512.getD t 0).extractLsb' 32 32 = k256.getD t 0

/-- The three digests the source prints (95_test_vectors.md, section 1.1), by the functions of R86 and
R100: SHA-256 of the empty message, SHA3-256 of the empty message, SHA-1 of "abc". -/
def Obligations.DigestsTheSourcePrints : Prop :=
  mdHash .sha256 [] =
    beBytes 0xe3b0c44298fc1c149afbf4c8996fb92427ae41e4649b934ca495991b7852b855 32 ∧
  spongeHash .sha3_256 [] 32 =
    beBytes 0xa7ffc6f8bf1ed76651c14756a061d662f580ff4de43b49fa82d80a4b80f8434a 32 ∧
  mdHash .sha1 [0x61, 0x62, 0x63] = beBytes 0xa9993e364706816aba3e25717850c26c9cd0d89d 20

/-- The digests of "abc" of the variants whose initialization vectors or 64-bit core
DigestsTheSourcePrints leaves out (95_test_vectors.md, section 2.5.1; R71, R73, R75, R86). -/
def Obligations.Sha2DigestsOfAbc : Prop :=
  let abc : List Byte := [0x61, 0x62, 0x63]
  mdHash .sha224 abc =
    beBytes 0x23097d223405d8228642a477bda255b32aadbce4bda0b3f7e36c9da7 28 ∧
  mdHash .sha384 abc =
    beBytes 0xcb00753f45a35e8bb5a03d699ac65007272c32ab0eded1631a8b605a43ff5bed8086072ba1e7cc2358baeca134c825a7 48 ∧
  mdHash .sha512 abc =
    beBytes 0xddaf35a193617abacc417349ae20413112e6fa4e89a97ea20a9eeee64b55d39a2192992a274fc1a836ba3c23a3feebbd454d4423643ce80e2a9ac94fa54ca49f 64 ∧
  mdHash .sha512t224 abc =
    beBytes 0x4634270f707b6a54daae7530460842e20e37ed265ceee9a43e8924aa 28 ∧
  mdHash .sha512t256 abc =
    beBytes 0x53048e2681941ef99b2e29b76b4c7dabe4c2d0c634fc6d46e0e2f13107e7af23 32

/-! ### The sponge engine -/

/-- R88 and R10: the lane view and the byte view alias exactly, in both directions; lane (x, y) is lane
x + 5y, and bit 8i + j of lane k is bit j of S[8k + i]. -/
def Obligations.LaneAndByteViewsAlias : Prop :=
  (∀ a : Lanes, lanesOf (bytesOf a) = a) ∧ (∀ s : SpongeBytes, bytesOf (lanesOf s) = s) ∧
  (∀ (a : Lanes) (x y : Fin 5), lane a x.val y.val = a[x.val + 5 * y.val]'(by omega)) ∧
  (∀ (s : SpongeBytes) (k : Fin 25) (i j : Fin 8),
    (lanesOf s)[k].getLsbD (8 * i.val + j.val) =
      (s[8 * k.val + i.val]'(by omega)).getLsbD j.val)

/-- R91: the lane at (x, y) moves to (y, 2x + 3y mod 5), rotated left by RHO[x][y], and every place
is the goal of exactly one lane. -/
def Obligations.RhoPiMovesLanes : Prop :=
  (∀ (a : Lanes) (x y : Nat), x < 5 → y < 5 →
    lane (rhoPi a) y ((2 * x + 3 * y) % 5) = rotl (lane a x y) (rhoOffset x y)) ∧
  (∀ x' y' : Fin 5, ∃ x y : Fin 5,
    (y = x' ∧ (2 * x.val + 3 * y.val) % 5 = y'.val) ∧
    ∀ x₂ y₂ : Fin 5, y₂ = x' ∧ (2 * x₂.val + 3 * y₂.val) % 5 = y'.val → x₂ = x ∧ y₂ = y)

/-- "the round is a bijection on 1600-bit states" (R95). -/
def Obligations.KeccakRoundIsBijection : Prop :=
  ∀ i : Nat, Function.Bijective (fun a : Lanes => keccakRound a i)

/-- R99: the squeeze emits exactly N bytes and permutes ceil(N / rate) − 1 times, never after the last
chunk; for N no larger than the rate the digest is S[0..N) directly. -/
def Obligations.SqueezeEmitsExactlyN : Prop :=
  ∀ (v : SpongeVariant) (s : SpongeBytes) (n : Nat),
    (spSqueeze v s n).2.length = n ∧
    (spSqueeze v s n).1 = keccakF^[squeezePermutations v n] s ∧
    (n ≤ v.rate → (spSqueeze v s n).2 = s.toList.take n) ∧
    (∀ i < n, (spSqueeze v s n).2.getD i 0 =
      (keccakF^[i / v.rate] s).toList.getD (i % v.rate) 0)

/-- A shorter digest is a prefix of a longer one, for any sponge variant: read from the loop of R99.
R101, the spec's own inference, says it of SHAKE. -/
def Obligations.ShorterDigestIsPrefix : Prop :=
  ∀ (v : SpongeVariant) (m : List Byte) (n1 n2 : Nat), n1 ≤ n2 →
    spongeHash v m n1 = (spongeHash v m n2).take n1

/-- R98: what sp_pad XORs into the state before the permutation, byte by byte; where the suffix and
the terminal marker meet (lst = rate − 1) both land in that byte. -/
def Obligations.SpongePaddingBytes : Prop :=
  ∀ (v : SpongeVariant) (s : SpongeBytes) (rem : List Byte) (lst : Nat), rem.length = lst →
    lst < v.rate →
    spPad v s rem lst = keccakF (spPadXor v s rem lst) ∧
    ∀ i : Fin 200, (spPadXor v s rem lst)[i] =
      s[i] ^^^ (rem.getD i.val 0) ^^^ (if i.val = lst then v.suffix else 0) ^^^
        (if i.val = v.rate - 1 then 0x80 else 0)

/-- The work of one command (R107, R129), seen in what it makes of H and S: INIT compresses and permutes
nothing; a BLOCK that completes compresses one block or permutes once; a FINAL that completes
compresses one or two padded blocks, or permutes 1 + squeezePermutations times, at most 4; a BLOCK
or FINAL that is refused or ignored ends in FAULT and does neither. SqueezeEmitsExactlyN ties squeezePermutations to
the squeeze. The premise of FINAL is the invariant of StepKeepsInv. What H and S hold after FINAL is
the model's choice (log 14). -/
def Obligations.WorkIsBounded : Prop :=
  (∀ (var : Byte) (s t : State), exec (.init var) s = .next t →
    (t.h = s.h ∨ ∃ v, t.h = mdIv v) ∧
    (t.sponge = s.sponge ∨ t.sponge = Vector.replicate 200 0)) ∧
  (∀ s t : State, exec .block s = .next t →
    (t.phase = .fault ∧ t.h = s.h ∧ t.sponge = s.sponge) ∨
    (∃ v, s.var = .md v ∧ t.phase = .absorb ∧ t.sponge = s.sponge ∧
      t.h = compress v s.h (s.blk.toList.take v.blockBytes)) ∨
    (∃ v, s.var = .sponge v ∧ t.phase = .absorb ∧ t.h = s.h ∧
      t.sponge = keccakF (xorPrefix s.sponge (s.blk.toList.take v.rate) v.rate))) ∧
  (∀ (lst : Byte) (s t : State), s.Inv → exec (.final lst) s = .next t →
    (t.phase = .fault ∧ t.h = s.h ∧ t.sponge = s.sponge) ∨
    (∃ v, s.var = .md v ∧ t.phase = .done ∧ t.sponge = s.sponge ∧
      let blocks := mdFinalBlocks v s.blk.toList lst.toNat t.len.toNat
      t.h = blocks.foldl (compress v) s.h ∧ (blocks.length = 1 ∨ blocks.length = 2)) ∨
    (∃ v, s.var = .sponge v ∧ t.phase = .done ∧ t.h = s.h ∧
      let permutations := 1 + squeezePermutations v s.xofn.toNat
      t.sponge = keccakF^[permutations]
        (spPadXor v s.sponge (s.blk.toList.take lst.toNat) lst.toNat) ∧
      permutations ≤ 4))

/-! ### Primitives and the digest codec -/

/-- R54: unpacking and packing big-endian words are inverse, at both widths. -/
def Obligations.BigEndianPackingRoundTrips : Prop :=
  (∀ bs : List Byte, bs.length % 4 = 0 → unpackBe (packBe 32 bs) = bs) ∧
  (∀ bs : List Byte, bs.length % 8 = 0 → unpackBe (packBe 64 bs) = bs) ∧
  (∀ ws : List Word32, packBe 32 (unpackBe ws) = ws) ∧
  (∀ ws : List Word64, packBe 64 (unpackBe ws) = ws)

/-- R56: "unpack_le64(pack_le64(B)) = B". -/
def Obligations.LittleEndianPackingRoundTrips : Prop :=
  (∀ bs : List Byte, bs.length % 8 = 0 → unpackLe64 (packLe64 bs) = bs) ∧
  (∀ ls : List Word64, packLe64 (unpackLe64 ls) = ls)

/-- R50, R51, R52: bit by bit, Ch is "y where x is 1 and z where x is 0", Maj the value that at least
two of the three hold, and Parity their exclusive or. -/
def Obligations.BooleanFunctionsBitByBit : Prop :=
  ∀ (w : Nat) (x y z : BitVec w) (i : Nat), i < w →
    (ch x y z).getLsbD i = (if x.getLsbD i then y.getLsbD i else z.getLsbD i) ∧
    ((maj x y z).getLsbD i = true ↔
      2 ≤ (x.getLsbD i).toNat + (y.getLsbD i).toNat + (z.getLsbD i).toNat) ∧
    (parity x y z).getLsbD i = (x.getLsbD i ^^ y.getLsbD i ^^ z.getLsbD i)

/-- R48: rotating left is rotating right by the complementary amount, for any amount; rotating by a
multiple of the width changes nothing (R47), and one undoes the other. -/
def Obligations.RotatesAreInverse : Prop :=
  (∀ (x : Word32) (n : Nat), rotl x n = rotr x ((32 - n % 32) % 32) ∧ rotr x (32 * n) = x ∧
    rotr (rotl x n) n = x) ∧
  (∀ (x : Word64) (n : Nat), rotl x n = rotr x ((64 - n % 64) % 64) ∧ rotr x (64 * n) = x ∧
    rotr (rotl x n) n = x)

/-- R64: the hex rendering of a digest parses back to it. -/
def Obligations.HexRoundTrip : Prop :=
  ∀ d : List Byte, fromHex (toHex d) d.length = .ok d

/-- R62 and R63: to_hex gives exactly 2N digits, each byte as its two lower-case digits, high nibble
first; the characters with a value are the digits of either case, and no others; from_hex fails
exactly where some character, ignored ones too, has no value, and otherwise gives N bytes, 0 beyond
the string's digits. -/
def Obligations.HexParsing : Prop :=
  let lower : List Char :=
    ['0', '1', '2', '3', '4', '5', '6', '7', '8', '9', 'a', 'b', 'c', 'd', 'e', 'f']
  let upper : List Char :=
    ['0', '1', '2', '3', '4', '5', '6', '7', '8', '9', 'A', 'B', 'C', 'D', 'E', 'F']
  (∀ d : List Byte, (toHex d).length = 2 * d.length) ∧
  (∀ (d : List Byte) (i : Nat) (h : i < d.length),
    (toHex d)[2 * i]? = lower[d[i].toNat / 16]? ∧
    (toHex d)[2 * i + 1]? = lower[d[i].toNat % 16]?) ∧
  (∀ (c : Char) (n : Nat), hexVal c = some n ↔ lower[n]? = some c ∨ upper[n]? = some c) ∧
  (∀ (s : List Char) (n : Nat), (∃ c ∈ s, hexVal c = none) →
    fromHex s n = .error .invalidEncoding) ∧
  (∀ (s : List Char) (n : Nat), (∀ c ∈ s, (hexVal c).isSome) →
    ∃ d, fromHex s n = .ok d ∧ d.length = n ∧
      ∀ i < n, (d.getD i 0).toNat =
        ((s[2 * i]?.bind hexVal).getD 0) * 16 + ((s[2 * i + 1]?.bind hexVal).getD 0))

/-- R60: digest equality is equality of byte sequences, and the order is a strict total order. -/
def Obligations.DigestEqualityAndOrder : Prop :=
  (∀ d1 d2 : List Byte, digestEqual d1 d2 = true ↔ d1 = d2) ∧
  (∀ d : List Byte, digestLess d d = false) ∧
  (∀ d1 d2 d3 : List Byte, digestLess d1 d2 = true → digestLess d2 d3 = true →
    digestLess d1 d3 = true) ∧
  (∀ d1 d2 : List Byte, d1 ≠ d2 → digestLess d1 d2 = true ∨ digestLess d2 d1 = true) ∧
  (∀ d1 d2 : List Byte, d2 ≠ [] → digestLess d1 (d1 ++ d2) = true) ∧
  (∀ (p d1 d2 : List Byte) (a b : Byte), a.toNat < b.toNat →
    digestLess (p ++ a :: d1) (p ++ b :: d2) = true)
end

