-- ==== Sys2Proof/Laws/Bytes.lean ====
section
/-! SUPPORT. Bytes, words and rotates: what the primitives of 40_primitives.md and the hex digits of 41_digest.md do, said once. -/

namespace Sys2Proof

@[simp] theorem beBytes_length (v k : Nat) : (beBytes v k).length = k := by simp [beBytes]

@[simp] theorem zeros_length (n : Nat) : (zeros n).length = n := by simp [zeros]

/-- The last byte of a big-endian encoding is the low byte (R57). -/
theorem beBytes_succ (v k : Nat) :
    beBytes v (k + 1) = beBytes (v / 256) k ++ [BitVec.ofNat 8 v] := by
  unfold beBytes
  rw [List.range_succ, List.map_append, List.map_singleton]
  congr 1
  · apply List.map_congr_left
    intro i hi
    rw [List.mem_range] at hi
    rw [Nat.div_div_eq_div_mul]
    congr 2
    rw [show (256 : Nat) = 2 ^ 8 from rfl, ← Nat.pow_add]
    congr 1; omega
  · simp

theorem beNat_append (bs : List Byte) (b : Byte) :
    beNat (bs ++ [b]) = beNat bs * 256 + b.toNat := by
  simp [beNat]

theorem beNat_lt (bs : List Byte) : beNat bs < 256 ^ bs.length := by
  induction bs using List.reverseRecOn with
  | nil => simp [beNat]
  | append_singleton bs b ih =>
    rw [beNat_append, List.length_append, List.length_singleton, Nat.pow_succ]
    have := b.isLt
    omega

theorem beNat_beBytes (v k : Nat) : beNat (beBytes v k) = v % 256 ^ k := by
  induction k generalizing v with
  | zero => simp [beBytes, beNat, Nat.mod_one]
  | succ k ih =>
    have h : v % 256 ^ (k + 1) = v % 256 + 256 * (v / 256 % 256 ^ k) := by
      rw [show 256 ^ (k + 1) = 256 * 256 ^ k from Nat.pow_succ', Nat.mod_mul]
    rw [beBytes_succ, beNat_append, ih, BitVec.toNat_ofNat, h]
    omega

/-- Encoding the number of a byte sequence in its own length gives the sequence (R54). -/
theorem beBytes_beNat (bs : List Byte) : beBytes (beNat bs) bs.length = bs := by
  induction bs using List.reverseRecOn with
  | nil => rfl
  | append_singleton bs b ih =>
    rw [List.length_append, List.length_singleton, beBytes_succ, beNat_append]
    have := b.isLt
    rw [show (beNat bs * 256 + b.toNat) / 256 = beNat bs by omega, ih]
    congr 2
    apply BitVec.eq_of_toNat_eq
    rw [BitVec.toNat_ofNat]; omega

theorem slice_length (m : List Byte) (i n : Nat) (h : i + n ≤ m.length) :
    (slice m i n).length = n := by simp [slice]; omega

/-- Cutting a sequence of q·k bytes into q slices of k bytes loses nothing. -/
theorem flatMap_range_slice (bs : List Byte) (k q : Nat) (h : bs.length = q * k) :
    (List.range q).flatMap (fun j => slice bs (j * k) k) = bs := by
  induction q generalizing bs with
  | zero => simp at h; simp [h]
  | succ q ih =>
    rw [List.range_succ_eq_map, List.flatMap_cons, List.flatMap_map]
    have h1 : (bs.drop k).length = q * k := by rw [List.length_drop, h, Nat.succ_mul]; omega
    have := ih (bs.drop k) h1
    have e : (fun j => slice bs ((j + 1) * k) k) = (fun j => slice (bs.drop k) (j * k) k) := by
      funext j; simp only [slice, List.drop_drop, Nat.succ_mul]; rw [Nat.add_comm]
    simp only [Nat.succ_eq_add_one, e, this]
    simp [slice, List.take_append_drop]

theorem length_flatMap_const {α} (ls : List α) (f : α → List Byte) (k : Nat)
    (hf : ∀ x ∈ ls, (f x).length = k) : (ls.flatMap f).length = ls.length * k := by
  induction ls with
  | nil => simp
  | cons a ls ih =>
    rw [List.flatMap_cons, List.length_append, ih (fun x hx => hf x (by simp [hx])),
      hf a (by simp), List.length_cons, Nat.succ_mul, Nat.add_comm]

/-- The j-th k-byte slice of a concatenation of k-byte pieces is the j-th piece. -/
theorem slice_flatMap {α} (ls : List α) (f : α → List Byte) (k : Nat)
    (hf : ∀ x ∈ ls, (f x).length = k) (j : Nat) (hj : j < ls.length) :
    slice (ls.flatMap f) (j * k) k = f ls[j] := by
  induction ls generalizing j with
  | nil => simp at hj
  | cons a ls ih =>
    rw [List.flatMap_cons]
    have ha : (f a).length = k := hf a (by simp)
    cases j with
    | zero => simp [slice, ← ha]
    | succ j =>
      have := ih (fun x hx => hf x (by simp [hx])) j (by simpa using hj)
      simp only [List.getElem_cons_succ, ← this, slice]
      congr 1
      rw [Nat.succ_mul, Nat.add_comm, ← List.drop_drop]
      congr 1
      rw [← ha, List.drop_append_of_le_length (by omega), List.drop_length, List.nil_append]

/-- Bit i of a little-endian number is bit i mod 8 of byte i / 8 (R55). -/
theorem leNat_testBit (bs : List Byte) (i : Nat) :
    (leNat bs).testBit i = (bs.getD (i / 8) 0).getLsbD (i % 8) := by
  induction bs generalizing i with
  | nil => simp [leNat]
  | cons b bs ih =>
    have hb := b.isLt
    have : leNat (b :: bs) = 2 ^ 8 * leNat bs + b.toNat := by simp [leNat]; omega
    rw [this, Nat.testBit_two_pow_mul_add _ hb]
    by_cases h : i < 8
    · rw [if_pos h, Nat.div_eq_of_lt h, Nat.mod_eq_of_lt h]; rfl
    · rw [if_neg h, ih]
      rw [show i / 8 = (i - 8) / 8 + 1 by omega, show i % 8 = (i - 8) % 8 by omega]
      rfl

/-- Bit i of `rotr_W(x, n)` is bit (i + n) mod W of x (R47). -/
theorem rotr_bit {w : Nat} (x : BitVec w) (n i : Nat) (hi : i < w) :
    (rotr x n).getLsbD i = x.getLsbD ((i + n) % w) := by
  unfold rotr
  have : n % w < w := Nat.mod_lt _ (by omega)
  rw [BitVec.getLsbD_or, BitVec.getLsbD_ushiftRight, BitVec.getLsbD_shiftLeft]
  simp only [hi, decide_true, Bool.true_and]
  rw [← Nat.add_mod_mod]
  generalize n % w = k at *
  by_cases h : i + k < w
  · rw [Nat.mod_eq_of_lt h]
    have h2 : i < w - k := by omega
    simp [h2, Nat.add_comm k i]
  · have e : (i + k) % w = i - (w - k) := by
      rw [Nat.mod_eq_sub_mod (by omega), Nat.mod_eq_of_lt (by omega)]; omega
    rw [e, BitVec.getLsbD_of_ge x (k + i) (by omega)]
    have h2 : ¬ i < w - k := by omega
    simp [h2]

/-- Bit i of `rotl_W(x, n)` is bit (i − n) mod W of x (R48). -/
theorem rotl_bit {w : Nat} (x : BitVec w) (n i : Nat) (hi : i < w) :
    (rotl x n).getLsbD i = x.getLsbD ((i + (w - n % w)) % w) := by
  unfold rotl
  have hlt : n % w < w := Nat.mod_lt _ (by omega)
  rw [BitVec.getLsbD_or, BitVec.getLsbD_ushiftRight, BitVec.getLsbD_shiftLeft]
  simp only [hi, decide_true, Bool.true_and]
  generalize n % w = k at *
  by_cases h : i < k
  · rw [Nat.mod_eq_of_lt (by omega)]
    simp only [h, decide_true, Bool.not_true, Bool.false_and, Bool.false_or]
    congr 1
    omega
  · have e : (i + (w - k)) % w = i - k := by
      rw [Nat.mod_eq_sub_mod (by omega), Nat.mod_eq_of_lt (by omega)]; omega
    rw [e, BitVec.getLsbD_of_ge x (w - k + i) (by omega)]
    simp [h]

theorem toHex_cons (b : Byte) (d : List Byte) :
    toHex (b :: d) = hexDigit (b.toNat / 16) :: hexDigit (b.toNat % 16) :: toHex d := rfl

theorem hexVal_digit : ∀ n, n < 16 → hexVal (hexDigit n) = some n := by decide

end Sys2Proof
end

