-- ==== Sys2Proof/Laws/Decode.lean ====
section
/-! SUPPORT. The decoder, read through the fields of the word (R39, R41, R43). -/

namespace Sys2Proof

/-- A bit under the mask of an equation `w &&& m = c` is the bit of `c`. -/
theorem masked_bit {w m c : Word32} (h : (w &&& m) = c) (i : Nat) (hm : m.getLsbD i = true) :
    w.getLsbD i = c.getLsbD i := by
  simpa [hm] using congrArg (fun x => x.getLsbD i) h

theorem initRow_accepts (w : Word32) :
    initRow.accepts w = true ↔ cmdOp w = 1 ∧ cmdLst w = 0 ∧ cmdRsv w = 0 := by
  simp only [OpRow.accepts, initRow, beq_iff_eq]
  constructor
  · intro h
    refine ⟨?_, ?_, ?_⟩ <;>
    · apply BitVec.eq_of_getLsbD_eq
      intro i hi
      have h0 := masked_bit h i
      have h1 := masked_bit h (i + 8)
      have h2 := masked_bit h (i + 16)
      interval_cases i <;> simp_all [cmdOp, cmdLst, cmdRsv]
  · rintro ⟨h0, h1, h2⟩
    apply BitVec.eq_of_getLsbD_eq
    intro i hi
    have e0 := congrArg (fun x => x.getLsbD i) h0
    have e1 := congrArg (fun x => x.getLsbD (i - 8)) h1
    have e2 := congrArg (fun x => x.getLsbD (i - 16)) h2
    simp only [cmdOp, cmdLst, cmdRsv, BitVec.getLsbD_extractLsb'] at e0 e1 e2
    clear h0 h1 h2
    interval_cases i <;> simp_all

theorem blockRow_accepts (w : Word32) :
    blockRow.accepts w = true ↔ cmdOp w = 2 ∧ cmdVar w = 0 ∧ cmdLst w = 0 ∧ cmdRsv w = 0 := by
  simp only [OpRow.accepts, blockRow, beq_iff_eq]
  constructor
  · intro h
    refine ⟨?_, ?_, ?_, ?_⟩ <;>
    · apply BitVec.eq_of_getLsbD_eq
      intro i hi
      have h0 := masked_bit h i
      have h3 := masked_bit h (i + 4)
      have h1 := masked_bit h (i + 8)
      have h2 := masked_bit h (i + 16)
      interval_cases i <;> simp_all [cmdOp, cmdVar, cmdLst, cmdRsv]
  · rintro ⟨h0, h3, h1, h2⟩
    apply BitVec.eq_of_getLsbD_eq
    intro i hi
    have e0 := congrArg (fun x => x.getLsbD i) h0
    have e3 := congrArg (fun x => x.getLsbD (i - 4)) h3
    have e1 := congrArg (fun x => x.getLsbD (i - 8)) h1
    have e2 := congrArg (fun x => x.getLsbD (i - 16)) h2
    simp only [cmdOp, cmdVar, cmdLst, cmdRsv, BitVec.getLsbD_extractLsb'] at e0 e1 e2 e3
    clear h0 h1 h2 h3
    interval_cases i <;> simp_all

theorem finalRow_accepts (w : Word32) :
    finalRow.accepts w = true ↔ cmdOp w = 3 ∧ cmdVar w = 0 ∧ cmdRsv w = 0 := by
  simp only [OpRow.accepts, finalRow, beq_iff_eq]
  constructor
  · intro h
    refine ⟨?_, ?_, ?_⟩ <;>
    · apply BitVec.eq_of_getLsbD_eq
      intro i hi
      have h0 := masked_bit h i
      have h3 := masked_bit h (i + 4)
      have h2 := masked_bit h (i + 16)
      interval_cases i <;> simp_all [cmdOp, cmdVar, cmdRsv]
  · rintro ⟨h0, h3, h2⟩
    apply BitVec.eq_of_getLsbD_eq
    intro i hi
    have e0 := congrArg (fun x => x.getLsbD i) h0
    have e3 := congrArg (fun x => x.getLsbD (i - 4)) h3
    have e2 := congrArg (fun x => x.getLsbD (i - 16)) h2
    simp only [cmdOp, cmdVar, cmdRsv, BitVec.getLsbD_extractLsb'] at e0 e2 e3
    clear h0 h2 h3
    interval_cases i <;> simp_all

/-- The inversion of the decoder: one of the three rows, with its fields, or illegal with none. -/
theorem decode_cases (w : Word32) :
    (decode w = .ok (.init ((cmdVar w).setWidth 8)) ∧ cmdOp w = 1 ∧ cmdLst w = 0 ∧ cmdRsv w = 0) ∨
    (decode w = .ok .block ∧ cmdOp w = 2 ∧ cmdVar w = 0 ∧ cmdLst w = 0 ∧ cmdRsv w = 0) ∨
    (decode w = .ok (.final (cmdLst w)) ∧ cmdOp w = 3 ∧ cmdVar w = 0 ∧ cmdRsv w = 0) ∨
    (decode w = .error (illegalReason w) ∧ ¬ (cmdOp w = 1 ∧ cmdLst w = 0 ∧ cmdRsv w = 0) ∧
      ¬ (cmdOp w = 2 ∧ cmdVar w = 0 ∧ cmdLst w = 0 ∧ cmdRsv w = 0) ∧
      ¬ (cmdOp w = 3 ∧ cmdVar w = 0 ∧ cmdRsv w = 0)) := by
  rw [← initRow_accepts, ← blockRow_accepts, ← finalRow_accepts]
  unfold decode
  cases initRow.accepts w <;> cases blockRow.accepts w <;> cases finalRow.accepts w <;> simp

/-- No word matches two rows of the opcode map (R41). -/
theorem opRows_disjoint (w : Word32) :
    opRows.Pairwise fun r1 r2 => ¬ (r1.accepts w = true ∧ r2.accepts w = true) := by
  simp only [opRows, List.pairwise_cons, List.mem_cons, List.not_mem_nil, or_false, forall_eq_or_imp,
    forall_eq, List.Pairwise.nil, initRow_accepts, blockRow_accepts, finalRow_accepts]
  refine ⟨⟨?_, ?_⟩, ?_, ?_⟩
  · rintro ⟨⟨h, -⟩, h', -⟩; rw [h] at h'; exact absurd h' (by decide)
  · rintro ⟨⟨h, -⟩, h', -⟩; rw [h] at h'; exact absurd h' (by decide)
  · rintro ⟨⟨h, -⟩, h', -⟩; rw [h] at h'; exact absurd h' (by decide)
  · simp

end Sys2Proof
end

