-- ==== Sys2Proof/Laws/State.lean ====
section
/-! SUPPORT. One lemma per field per update of the state, true by rfl, so that no proof unfolds a record update. -/

namespace Sys2Proof.Machine

@[simp] theorem raiseFault_phase (c : FaultCode) (s : State) : (raiseFault c s).phase = .fault := rfl
@[simp] theorem raiseFault_var (c : FaultCode) (s : State) : (raiseFault c s).var = s.var := rfl
@[simp] theorem raiseFault_fcode (c : FaultCode) (s : State) : (raiseFault c s).fcode = c := rfl
@[simp] theorem raiseFault_dlen (c : FaultCode) (s : State) : (raiseFault c s).dlen = s.dlen := rfl
@[simp] theorem raiseFault_outbits (c : FaultCode) (s : State) : (raiseFault c s).outbits = s.outbits := rfl
@[simp] theorem raiseFault_xofn (c : FaultCode) (s : State) : (raiseFault c s).xofn = s.xofn := rfl
@[simp] theorem raiseFault_len (c : FaultCode) (s : State) : (raiseFault c s).len = s.len := rfl
@[simp] theorem raiseFault_h (c : FaultCode) (s : State) : (raiseFault c s).h = s.h := rfl
@[simp] theorem raiseFault_sponge (c : FaultCode) (s : State) : (raiseFault c s).sponge = s.sponge := rfl
@[simp] theorem raiseFault_blk (c : FaultCode) (s : State) : (raiseFault c s).blk = s.blk := rfl
@[simp] theorem raiseFault_dout (c : FaultCode) (s : State) : (raiseFault c s).dout = s.dout := rfl
@[simp] theorem raiseFault_pending (c : FaultCode) (s : State) : (raiseFault c s).pending = s.pending := rfl
@[simp] theorem raiseFault_resp (c : FaultCode) (s : State) : (raiseFault c s).resp = s.resp := rfl
@[simp] theorem raiseFault_resets (c : FaultCode) (s : State) : (raiseFault c s).resets = s.resets := rfl

@[simp] theorem refuseAccess_phase (s : State) (a n : Nat) : (refuseAccess s a n).phase = s.phase := rfl
@[simp] theorem refuseAccess_var (s : State) (a n : Nat) : (refuseAccess s a n).var = s.var := rfl
@[simp] theorem refuseAccess_fcode (s : State) (a n : Nat) : (refuseAccess s a n).fcode = s.fcode := rfl
@[simp] theorem refuseAccess_dlen (s : State) (a n : Nat) : (refuseAccess s a n).dlen = s.dlen := rfl
@[simp] theorem refuseAccess_outbits (s : State) (a n : Nat) : (refuseAccess s a n).outbits = s.outbits := rfl
@[simp] theorem refuseAccess_xofn (s : State) (a n : Nat) : (refuseAccess s a n).xofn = s.xofn := rfl
@[simp] theorem refuseAccess_len (s : State) (a n : Nat) : (refuseAccess s a n).len = s.len := rfl
@[simp] theorem refuseAccess_h (s : State) (a n : Nat) : (refuseAccess s a n).h = s.h := rfl
@[simp] theorem refuseAccess_sponge (s : State) (a n : Nat) : (refuseAccess s a n).sponge = s.sponge := rfl
@[simp] theorem refuseAccess_blk (s : State) (a n : Nat) : (refuseAccess s a n).blk = s.blk := rfl
@[simp] theorem refuseAccess_dout (s : State) (a n : Nat) : (refuseAccess s a n).dout = s.dout := rfl
@[simp] theorem refuseAccess_pending (s : State) (a n : Nat) : (refuseAccess s a n).pending = s.pending := rfl
@[simp] theorem refuseAccess_resp (s : State) (a n : Nat) : (refuseAccess s a n).resp = .busError (Config.busErrorReport a n) := rfl
@[simp] theorem refuseAccess_resets (s : State) (a n : Nat) : (refuseAccess s a n).resets = s.resets := rfl

@[simp] theorem storeBlk_phase (s : State) (i : Nat) (b : Byte) : (storeBlk s i b).phase = s.phase := rfl
@[simp] theorem storeBlk_var (s : State) (i : Nat) (b : Byte) : (storeBlk s i b).var = s.var := rfl
@[simp] theorem storeBlk_fcode (s : State) (i : Nat) (b : Byte) : (storeBlk s i b).fcode = s.fcode := rfl
@[simp] theorem storeBlk_dlen (s : State) (i : Nat) (b : Byte) : (storeBlk s i b).dlen = s.dlen := rfl
@[simp] theorem storeBlk_outbits (s : State) (i : Nat) (b : Byte) : (storeBlk s i b).outbits = s.outbits := rfl
@[simp] theorem storeBlk_xofn (s : State) (i : Nat) (b : Byte) : (storeBlk s i b).xofn = s.xofn := rfl
@[simp] theorem storeBlk_len (s : State) (i : Nat) (b : Byte) : (storeBlk s i b).len = s.len := rfl
@[simp] theorem storeBlk_h (s : State) (i : Nat) (b : Byte) : (storeBlk s i b).h = s.h := rfl
@[simp] theorem storeBlk_sponge (s : State) (i : Nat) (b : Byte) : (storeBlk s i b).sponge = s.sponge := rfl
@[simp] theorem storeBlk_blk (s : State) (i : Nat) (b : Byte) : (storeBlk s i b).blk = s.blk.setIfInBounds i b := rfl
@[simp] theorem storeBlkWord_blk (s : State) (i : Nat) (v : Word32) :
    (storeBlkWord s i v).blk = setBlkWord s.blk i v := rfl
@[simp] theorem storeBlk_dout (s : State) (i : Nat) (b : Byte) : (storeBlk s i b).dout = s.dout := rfl
@[simp] theorem storeBlk_pending (s : State) (i : Nat) (b : Byte) : (storeBlk s i b).pending = s.pending := rfl
@[simp] theorem storeBlk_resp (s : State) (i : Nat) (b : Byte) : (storeBlk s i b).resp = s.resp := rfl
@[simp] theorem storeBlk_resets (s : State) (i : Nat) (b : Byte) : (storeBlk s i b).resets = s.resets := rfl

@[simp] theorem storeBlkWord_phase (s : State) (i : Nat) (v : Word32) : (storeBlkWord s i v).phase = s.phase := rfl
@[simp] theorem storeBlkWord_var (s : State) (i : Nat) (v : Word32) : (storeBlkWord s i v).var = s.var := rfl
@[simp] theorem storeBlkWord_fcode (s : State) (i : Nat) (v : Word32) : (storeBlkWord s i v).fcode = s.fcode := rfl
@[simp] theorem storeBlkWord_dlen (s : State) (i : Nat) (v : Word32) : (storeBlkWord s i v).dlen = s.dlen := rfl
@[simp] theorem storeBlkWord_outbits (s : State) (i : Nat) (v : Word32) : (storeBlkWord s i v).outbits = s.outbits := rfl
@[simp] theorem storeBlkWord_xofn (s : State) (i : Nat) (v : Word32) : (storeBlkWord s i v).xofn = s.xofn := rfl
@[simp] theorem storeBlkWord_len (s : State) (i : Nat) (v : Word32) : (storeBlkWord s i v).len = s.len := rfl
@[simp] theorem storeBlkWord_h (s : State) (i : Nat) (v : Word32) : (storeBlkWord s i v).h = s.h := rfl
@[simp] theorem storeBlkWord_sponge (s : State) (i : Nat) (v : Word32) : (storeBlkWord s i v).sponge = s.sponge := rfl
@[simp] theorem storeBlkWord_dout (s : State) (i : Nat) (v : Word32) : (storeBlkWord s i v).dout = s.dout := rfl
@[simp] theorem storeBlkWord_pending (s : State) (i : Nat) (v : Word32) : (storeBlkWord s i v).pending = s.pending := rfl
@[simp] theorem storeBlkWord_resp (s : State) (i : Nat) (v : Word32) : (storeBlkWord s i v).resp = s.resp := rfl
@[simp] theorem storeBlkWord_resets (s : State) (i : Nat) (v : Word32) : (storeBlkWord s i v).resets = s.resets := rfl

@[simp] theorem finishDigest_phase (d : List Byte) (s : State) : (finishDigest d s).phase = .done := rfl
@[simp] theorem finishDigest_var (d : List Byte) (s : State) : (finishDigest d s).var = s.var := rfl
@[simp] theorem finishDigest_fcode (d : List Byte) (s : State) : (finishDigest d s).fcode = s.fcode := rfl
@[simp] theorem finishDigest_dlen (d : List Byte) (s : State) : (finishDigest d s).dlen = s.xofn := rfl
@[simp] theorem finishDigest_outbits (d : List Byte) (s : State) : (finishDigest d s).outbits = s.outbits := rfl
@[simp] theorem finishDigest_xofn (d : List Byte) (s : State) : (finishDigest d s).xofn = s.xofn := rfl
@[simp] theorem finishDigest_len (d : List Byte) (s : State) : (finishDigest d s).len = s.len := rfl
@[simp] theorem finishDigest_h (d : List Byte) (s : State) : (finishDigest d s).h = s.h := rfl
@[simp] theorem finishDigest_sponge (d : List Byte) (s : State) : (finishDigest d s).sponge = s.sponge := rfl
@[simp] theorem finishDigest_blk (d : List Byte) (s : State) : (finishDigest d s).blk = s.blk := rfl
@[simp] theorem finishDigest_dout (d : List Byte) (s : State) : (finishDigest d s).dout = writeDigest s.xofn.toNat d s.dout := rfl
@[simp] theorem finishDigest_pending (d : List Byte) (s : State) : (finishDigest d s).pending = s.pending := rfl
@[simp] theorem finishDigest_resp (d : List Byte) (s : State) : (finishDigest d s).resp = s.resp := rfl
@[simp] theorem finishDigest_resets (d : List Byte) (s : State) : (finishDigest d s).resets = s.resets := rfl

@[simp] theorem startComputation_phase (v : Variant) (s : State) : (startComputation v s).phase = .absorb := rfl
@[simp] theorem startComputation_var (v : Variant) (s : State) : (startComputation v s).var = v := rfl
@[simp] theorem startComputation_fcode (v : Variant) (s : State) : (startComputation v s).fcode = s.fcode := rfl
@[simp] theorem startComputation_dlen (v : Variant) (s : State) : (startComputation v s).dlen = 0 := rfl
@[simp] theorem startComputation_outbits (v : Variant) (s : State) : (startComputation v s).outbits = s.outbits := rfl
@[simp] theorem startComputation_xofn (v : Variant) (s : State) : (startComputation v s).xofn = initXofn v s.outbits := rfl
@[simp] theorem startComputation_len (v : Variant) (s : State) : (startComputation v s).len = 0 := rfl
@[simp] theorem startComputation_blk (v : Variant) (s : State) : (startComputation v s).blk = s.blk := rfl
@[simp] theorem startComputation_dout (v : Variant) (s : State) : (startComputation v s).dout = Vector.replicate 512 0 := rfl
@[simp] theorem startComputation_pending (v : Variant) (s : State) : (startComputation v s).pending = s.pending := rfl
@[simp] theorem startComputation_resp (v : Variant) (s : State) : (startComputation v s).resp = s.resp := rfl
@[simp] theorem startComputation_resets (v : Variant) (s : State) : (startComputation v s).resets = s.resets := rfl

@[simp] theorem takeReset_phase (s : State) : (takeReset s).phase = .idle := rfl
@[simp] theorem takeReset_var (s : State) : (takeReset s).var = .md .sha1 := rfl
@[simp] theorem takeReset_fcode (s : State) : (takeReset s).fcode = .none := rfl
@[simp] theorem takeReset_dlen (s : State) : (takeReset s).dlen = 0 := rfl
@[simp] theorem takeReset_outbits (s : State) : (takeReset s).outbits = 0 := rfl
@[simp] theorem takeReset_xofn (s : State) : (takeReset s).xofn = 0 := rfl
@[simp] theorem takeReset_len (s : State) : (takeReset s).len = 0 := rfl
@[simp] theorem takeReset_dout (s : State) : (takeReset s).dout = Vector.replicate 512 0 := rfl
@[simp] theorem takeReset_pending (s : State) : (takeReset s).pending = s.pending := rfl
@[simp] theorem takeReset_resp (s : State) : (takeReset s).resp = .nothing := rfl
@[simp] theorem takeReset_resets (s : State) : (takeReset s).resets = s.resets + 1 := rfl

@[simp] theorem afterReset_phase (h : Chain) (sp : SpongeBytes) (b : Vector Byte 168) : (State.afterReset h sp b).phase = .idle := rfl
@[simp] theorem afterReset_var (h : Chain) (sp : SpongeBytes) (b : Vector Byte 168) : (State.afterReset h sp b).var = .md .sha1 := rfl
@[simp] theorem afterReset_fcode (h : Chain) (sp : SpongeBytes) (b : Vector Byte 168) : (State.afterReset h sp b).fcode = .none := rfl
@[simp] theorem afterReset_dlen (h : Chain) (sp : SpongeBytes) (b : Vector Byte 168) : (State.afterReset h sp b).dlen = 0 := rfl
@[simp] theorem afterReset_outbits (h : Chain) (sp : SpongeBytes) (b : Vector Byte 168) : (State.afterReset h sp b).outbits = 0 := rfl
@[simp] theorem afterReset_xofn (h : Chain) (sp : SpongeBytes) (b : Vector Byte 168) : (State.afterReset h sp b).xofn = 0 := rfl
@[simp] theorem afterReset_len (h : Chain) (sp : SpongeBytes) (b : Vector Byte 168) : (State.afterReset h sp b).len = 0 := rfl
@[simp] theorem afterReset_h (h : Chain) (sp : SpongeBytes) (b : Vector Byte 168) : (State.afterReset h sp b).h = h := rfl
@[simp] theorem afterReset_sponge (h : Chain) (sp : SpongeBytes) (b : Vector Byte 168) : (State.afterReset h sp b).sponge = sp := rfl
@[simp] theorem afterReset_blk (h : Chain) (sp : SpongeBytes) (b : Vector Byte 168) : (State.afterReset h sp b).blk = b := rfl
@[simp] theorem afterReset_dout (h : Chain) (sp : SpongeBytes) (b : Vector Byte 168) : (State.afterReset h sp b).dout = Vector.replicate 512 0 := rfl
@[simp] theorem afterReset_pending (h : Chain) (sp : SpongeBytes) (b : Vector Byte 168) : (State.afterReset h sp b).pending = [] := rfl
@[simp] theorem afterReset_resp (h : Chain) (sp : SpongeBytes) (b : Vector Byte 168) : (State.afterReset h sp b).resp = .nothing := rfl
@[simp] theorem afterReset_resets (h : Chain) (sp : SpongeBytes) (b : Vector Byte 168) : (State.afterReset h sp b).resets = 0 := rfl

@[simp] theorem startComputation_md_h (m : MdVariant) (s : State) :
    (startComputation (.md m) s).h = mdIv m := rfl
@[simp] theorem startComputation_sponge_h (m : SpongeVariant) (s : State) :
    (startComputation (.sponge m) s).h = s.h := rfl
@[simp] theorem startComputation_md_sponge (m : MdVariant) (s : State) :
    (startComputation (.md m) s).sponge = s.sponge := rfl
@[simp] theorem startComputation_sponge_sponge (m : SpongeVariant) (s : State) :
    (startComputation (.sponge m) s).sponge = Vector.replicate 200 0 := rfl

end Sys2Proof.Machine
end

