-- ==== Sys2Proof/Laws/HostPort.lean ====
section
/-! SUPPORT. The host window said once: which accesses are admitted, what each host event does, and what a step does with it (R24 to R27, R102). -/

namespace Sys2Proof.Machine

/-- The command access: CMD takes a 32-bit write (R23). -/
theorem admitted_cmd : admitted 0 4 = true := by decide

theorem regionOf_cmd_iff (a : Nat) : regionOf a = .cmd ↔ a < 4 := by
  unfold regionOf; split_ifs <;> simp <;> omega

theorem regionOf_blk {a : Nat} (h1 : 0x100 ≤ a) (h2 : a < 0x1A8) : regionOf a = .blk := by
  unfold regionOf; split_ifs <;> first | rfl | omega

theorem regionOf_dout {a : Nat} (h1 : 0x200 ≤ a) (h2 : a < 0x400) : regionOf a = .dout := by
  unfold regionOf; split_ifs <;> first | rfl | omega

theorem regionOf_blk_iff (a : Nat) : regionOf a = .blk ↔ 0x100 ≤ a ∧ a < 0x1A8 := by
  unfold regionOf; split_ifs <;> simp <;> omega

theorem regionOf_dout_iff (a : Nat) : regionOf a = .dout ↔ 0x200 ≤ a ∧ a < 0x400 := by
  unfold regionOf; split_ifs <;> simp <;> omega

theorem regionOf_status_iff (a : Nat) : regionOf a = .status ↔ 0x004 ≤ a ∧ a < 0x008 := by
  unfold regionOf; split_ifs <;> simp <;> omega

theorem regionOf_outbits_iff (a : Nat) : regionOf a = .outbits ↔ 0x008 ≤ a ∧ a < 0x00C := by
  unfold regionOf; split_ifs <;> simp <;> omega

theorem regionOf_lenLo_iff (a : Nat) : regionOf a = .lenLo ↔ 0x010 ≤ a ∧ a < 0x014 := by
  unfold regionOf; split_ifs <;> simp <;> omega

theorem regionOf_lenHi_iff (a : Nat) : regionOf a = .lenHi ↔ 0x014 ≤ a ∧ a < 0x018 := by
  unfold regionOf; split_ifs <;> simp <;> omega

theorem admitted_byte_iff (a : Nat) :
    admitted a 1 = true ↔ (0x100 ≤ a ∧ a < 0x1A8) ∨ (0x200 ≤ a ∧ a < 0x400) := by
  rw [← regionOf_blk_iff, ← regionOf_dout_iff]
  unfold admitted
  cases h : regionOf a <;> simp [regionWidths, h]

/-- A word access is admitted where its four bytes lie in one region and it is aligned. -/
theorem admitted_word_iff (a : Nat) :
    admitted a 4 = true ↔ regionOf a ≠ .reserved ∧ a % 4 = 0 ∧
      regionOf (a + 1) = regionOf a ∧ regionOf (a + 2) = regionOf a ∧
      regionOf (a + 3) = regionOf a := by
  have hr : List.range 4 = [0, 1, 2, 3] := rfl
  unfold admitted
  rw [hr]
  cases h : regionOf a <;> simp [regionWidths, h] <;> tauto

theorem admitted_width {a n : Nat} (h : admitted a n = true) : n = 1 ∨ n = 4 := by
  unfold admitted at h
  cases hr : regionOf a <;> simp [regionWidths, hr] at h <;> omega

theorem admitted_blk_byte (i : Nat) (h : i < 168) : admitted (0x100 + i) 1 = true := by
  rw [admitted_byte_iff]; omega

theorem admitted_dout_byte (i : Nat) (h : i < 512) : admitted (0x200 + i) 1 = true := by
  rw [admitted_byte_iff]; omega

theorem admitted_blk_word (i : Nat) (h : i < 42) : admitted (0x100 + 4 * i) 4 = true := by
  rw [admitted_word_iff, regionOf_blk (by omega) (by omega), regionOf_blk (by omega) (by omega),
    regionOf_blk (by omega) (by omega), regionOf_blk (by omega) (by omega)]
  simp

theorem admitted_dout_word (i : Nat) (h : i < 128) : admitted (0x200 + 4 * i) 4 = true := by
  rw [admitted_word_iff, regionOf_dout (by omega) (by omega), regionOf_dout (by omega) (by omega),
    regionOf_dout (by omega) (by omega), regionOf_dout (by omega) (by omega)]
  simp

/-- What the core does with a word written to CMD (R102). -/
theorem step_write_cmd (s : State) (w : Word32) (rest : List HostEvent) :
    step { s with pending := .write 0x000 4 w :: rest } =
      match decode w with
      | .ok i => exec i { s with pending := rest, resp := .ack }
      | .error _ => .next (illegalCommand { s with pending := rest, resp := .ack }) := by
  rfl

/-- A host read is one step: only `pending` and `resp` change. -/
theorem step_read (s : State) (a n : Nat) (rest : List HostEvent) :
    step { s with pending := .read a n :: rest } =
      .next (hostRead { s with pending := rest } a n) := rfl

theorem step_reset (s : State) (rest : List HostEvent) :
    step { s with pending := .reset :: rest } = .next (takeReset { s with pending := rest }) := rfl

theorem step_idle (s : State) (h : s.pending = []) : step s = .next s := by
  simp [step, nextAction, h]

/-- A step with an event pending is the step on that event. -/
theorem step_of_pending {s : State} {e : HostEvent} {rest : List HostEvent}
    (h : s.pending = e :: rest) :
    step s = step { s with pending := e :: rest } := by
  rw [← h]

/-- A read changes the response only. -/
theorem hostRead_eq (s : State) (a n : Nat) :
    ∃ r, hostRead s a n = { s with resp := r } := by
  unfold hostRead
  cases memRead s a n with
  | some v => exact ⟨_, rfl⟩
  | none => exact ⟨_, rfl⟩

/-- A host write is a command, a store to OUTBITS or BLK, or a refused access. -/
theorem hostWrite_cases (s : State) (a n : Nat) (v : Word32) :
    (a = 0 ∧ n = 4 ∧ hostWrite s a n v = .command v { s with resp := .ack }) ∨
    (hostWrite s a n v = .done { s with outbits := v, resp := .ack }) ∨
    (∃ b, hostWrite s a n v = .done { s with blk := b, resp := .ack }) ∨
    (hostWrite s a n v = .done (refuseAccess s a n)) := by
  unfold hostWrite
  by_cases h : admitted a n = true
  · rw [if_pos h]
    cases hr : regionOf a with
    | cmd =>
      left
      have ha := (regionOf_cmd_iff a).1 hr
      rcases admitted_width h with rfl | rfl
      · rw [admitted_byte_iff] at h; omega
      · rw [admitted_word_iff] at h
        exact ⟨by omega, rfl, rfl⟩
    | outbits => right; left; rfl
    | blk =>
      right; right; left
      by_cases hn : n = 1
      · rw [if_pos hn]; exact ⟨_, rfl⟩
      · rw [if_neg hn]; exact ⟨_, rfl⟩
    | status => right; right; right; rfl
    | lenLo => right; right; right; rfl
    | lenHi => right; right; right; rfl
    | dout => right; right; right; rfl
    | reserved => right; right; right; rfl
  · rw [if_neg h]
    right; right; right; rfl

theorem step_write (s : State) (a n : Nat) (v : Word32) (rest : List HostEvent) :
    step { s with pending := .write a n v :: rest } =
      match hostWrite { s with pending := rest } a n v with
      | .done t => .next t
      | .command w t =>
        match decode w with
        | .ok i => exec i t
        | .error _ => .next (illegalCommand t) := rfl

/-- The bytes of BLK after a 32-bit write: the four addressed ones are the word's, most significant
first (R26, R31). -/
theorem setBlkWord_getElem (b : Vector Byte 168) (i : Nat) (v : Word32) (j : Nat) (hj : j < 168) :
    (setBlkWord b i v)[j] =
      if j = i + 3 then v.extractLsb' 0 8 else if j = i + 2 then v.extractLsb' 8 8
      else if j = i + 1 then v.extractLsb' 16 8 else if j = i then v.extractLsb' 24 8 else b[j] := by
  simp only [setBlkWord, Vector.getElem_setIfInBounds]
  split_ifs <;> first | rfl | omega

theorem word_of_bytes (v : Word32) :
    v.extractLsb' 24 8 ++ v.extractLsb' 16 8 ++ v.extractLsb' 8 8 ++ v.extractLsb' 0 8 = v := by
  apply BitVec.eq_of_getLsbD_eq
  intro i hi
  simp only [BitVec.getLsbD_append, BitVec.getLsbD_extractLsb']
  interval_cases i <;> simp

theorem setIfInBounds_eq_set (b : Vector Byte 168) (i : Nat) (h : i < 168) (x : Byte) :
    b.setIfInBounds i x = b.set i x := by
  apply Vector.ext
  intro j hj
  simp [Vector.getElem_setIfInBounds, Vector.getElem_set]

theorem hostWrite_blk_byte (s : State) (i : Nat) (hi : i < 168) (v : Word32) :
    hostWrite s (0x100 + i) 1 v =
      .done { s with resp := .ack, blk := s.blk.set i (v.extractLsb' 0 8) } := by
  have e : 0x100 + i - 0x100 = i := by omega
  rw [hostWrite, if_pos (admitted_blk_byte i hi), regionOf_blk (by omega) (by omega)]
  simp only [if_true, e, storeBlk, setIfInBounds_eq_set s.blk i hi]

theorem hostWrite_blk_word (s : State) (i : Nat) (hi : i < 42) (v : Word32) :
    hostWrite s (0x100 + 4 * i) 4 v =
      .done { s with resp := .ack, blk := setBlkWord s.blk (4 * i) v } := by
  have e : 0x100 + 4 * i - 0x100 = 4 * i := by omega
  rw [hostWrite, if_pos (admitted_blk_word i hi), regionOf_blk (by omega) (by omega)]
  simp only [e]
  rfl

theorem windowByte_congr {s t : State} (h1 : t.blk = s.blk) (h2 : t.dout = s.dout) (a : Nat) :
    windowByte t a = windowByte s a := by
  unfold windowByte; rw [h1, h2]

/-- Outside DOUT the window bytes are BLK's. -/
theorem windowByte_out {s t : State} (h1 : t.blk = s.blk) (a : Nat) (h : a < 0x200 ∨ 0x400 ≤ a) :
    windowByte t a = windowByte s a := by
  unfold windowByte; rw [h1]
  cases hr : regionOf a
  case dout => rw [regionOf_dout_iff] at hr; omega
  all_goals rfl

/-- The inversion of a step: idle, a read, a store, a refused write, a reset input, a command, or a
word that is no command. -/
theorem step_cases {s t : State} (h : step s = .next t) :
    (s.pending = [] ∧ t = s) ∨
    (∃ rest, s.pending = .reset :: rest ∧ t = takeReset { s with pending := rest }) ∨
    (∃ w rest i, s.pending = .write 0x000 4 w :: rest ∧ decode w = .ok i ∧
      exec i { s with pending := rest, resp := .ack } = .next t) ∨
    (∃ w rest e, s.pending = .write 0x000 4 w :: rest ∧ decode w = .error e ∧
      t = illegalCommand { s with pending := rest, resp := .ack }) ∨
    (∃ e rest r o b, s.pending = e :: rest ∧ (∀ w, e ≠ .write 0x000 4 w) ∧ e ≠ .reset ∧
      t = { s with pending := rest, resp := r, outbits := o, blk := b }) := by
  cases hp : s.pending with
  | nil => left; rw [step_idle s hp] at h; cases h; exact ⟨rfl, rfl⟩
  | cons e rest =>
    rw [step_of_pending hp] at h
    cases e with
    | reset => right; left; rw [step_reset] at h; cases h; exact ⟨rest, rfl, rfl⟩
    | read a n =>
      rw [step_read] at h
      obtain ⟨r, hr⟩ := hostRead_eq { s with pending := rest } a n
      rw [hr] at h; cases h
      right; right; right; right
      exact ⟨_, rest, r, s.outbits, s.blk, rfl, by simp, by simp, rfl⟩
    | write a n v =>
      rcases hostWrite_cases { s with pending := rest } a n v with ⟨ha, hn, hw⟩ | hw | ⟨b, hw⟩ | hw
      · subst ha hn
        rw [step_write_cmd] at h
        cases hd : decode v with
        | ok i => rw [hd] at h; right; right; left; exact ⟨v, rest, i, rfl, hd, h⟩
        | error e =>
          rw [hd] at h; cases h; right; right; right; left; exact ⟨v, rest, e, rfl, hd, rfl⟩
      all_goals
        have hne : ∀ w, HostEvent.write a n v ≠ .write 0x000 4 w := by
          intro w he
          obtain ⟨rfl, rfl, rfl⟩ : a = 0 ∧ n = 4 ∧ v = w := by simpa using he
          simp [hostWrite, admitted_cmd, regionOf] at hw
        simp only [step, nextAction, hostEvent, hw] at h
        cases h
        right; right; right; right
      · exact ⟨_, rest, .ack, v, s.blk, rfl, hne, by simp, rfl⟩
      · exact ⟨_, rest, .ack, s.outbits, b, rfl, hne, by simp, rfl⟩
      · exact ⟨_, rest, _, s.outbits, s.blk, rfl, hne, by simp, rfl⟩

end Sys2Proof.Machine
end

