-- ==== Sys2Proof/Laws/MerkleDamgard.lean ====
section
/-! SUPPORT. The Merkle–Damgård engine said once: the lengths of its padded blocks, and what the final step reads (R81 to R84). -/

namespace Sys2Proof.Machine

theorem lengthBytes_le (v : MdVariant) : 8 ≤ v.lengthBytes ∧ v.lengthBytes ≤ v.blockBytes := by
  cases v <;> decide

theorem padFirst_length (v : MdVariant) {rem : List Byte} {lst : Nat} (h : rem.length = lst)
    (hl : lst < v.blockBytes) : (padFirst v rem lst).length = v.blockBytes := by
  simp [padFirst, h]; omega

theorem injectLength_length (v : MdVariant) {pb : List Byte} (h : pb.length = v.blockBytes)
    (total : Nat) : (injectLength v pb total).length = v.blockBytes := by
  have := lengthBytes_le v
  simp [injectLength, h]; omega

/-- The final step reads only the first lst bytes of the buffer (R84). -/
theorem mdFinal_congr (v : MdVariant) (h : Chain) (b b' : List Byte) (lst total : Nat)
    (hb : b.take lst = b'.take lst) :
    mdFinal v h b lst total = mdFinal v h b' lst total := by
  simp only [mdFinal, mdFinalBlocks, hb]

end Sys2Proof.Machine
end

