-- ==== Sys2Proof/Laws/Ops.lean ====
section
/-! SUPPORT. What the shared operations and the commands can do, said once: the ignored command, fault entry, and the cases of each command's effect (R102 to R105, R111, R113). -/

namespace Sys2Proof.Machine

theorem unlessFault_fault {f : State → State} {s : State} (h : s.phase = .fault) :
    unlessFault f s = s := by simp [unlessFault, h]

theorem unlessFault_ok {f : State → State} {s : State} (h : s.phase ≠ .fault) :
    unlessFault f s = f s := by simp [unlessFault, h]

/-- Every command answers a next state: ignored in FAULT, its effect otherwise. -/
theorem exec_eq_next (i : Instr) (s : State) :
    exec i s = .next (unlessFault (commandEffect i) s) := by
  cases i <;> rfl

theorem eq_of_exec {i : Instr} {s t : State} (h : exec i s = .next t) :
    t = unlessFault (commandEffect i) s := by
  rw [exec_eq_next] at h; cases h; rfl

/-- INIT outside FAULT: no such variant, a bad OUTBITS, or a computation of the variant starts. -/
theorem initEffect_cases (var : Byte) (s : State) :
    (initVariant var = none ∧ initEffect var s = raiseFault .unsupportedVariant s) ∨
    (∃ v, initVariant var = some v ∧ v.isShake = true ∧ badOutbits s.outbits = true ∧
      initEffect var s = raiseFault .badArgument s) ∨
    (∃ v, initVariant var = some v ∧ ¬ (v.isShake = true ∧ badOutbits s.outbits = true) ∧
      initEffect var s = startComputation v s) := by
  unfold initEffect
  cases initVariant var with
  | none => simp
  | some v =>
    cases h1 : v.isShake <;> cases h2 : badOutbits s.outbits <;> simp [h1]

/-- BLOCK outside FAULT (R104). -/
theorem blockEffect_cases (s : State) :
    (s.phase ≠ .absorb ∧ blockEffect s = raiseFault .sequenceError s) ∨
    (s.phase = .absorb ∧ lengthOverflows s s.var.blockBytes = true ∧
      blockEffect s = raiseFault .lengthOverflow s) ∨
    (s.phase = .absorb ∧ lengthOverflows s s.var.blockBytes = false ∧
      blockEffect s = consumeBlock s) := by
  unfold blockEffect
  by_cases h : s.phase = .absorb <;> cases h2 : lengthOverflows s s.var.blockBytes <;> simp [h]

/-- FINAL outside FAULT (R105). -/
theorem finalEffect_cases (lst : Byte) (s : State) :
    (s.phase ≠ .absorb ∧ finalEffect lst s = raiseFault .sequenceError s) ∨
    (s.phase = .absorb ∧ s.var.blockBytes ≤ lst.toNat ∧
      finalEffect lst s = raiseFault .badArgument s) ∨
    (s.phase = .absorb ∧ lst.toNat < s.var.blockBytes ∧ lengthOverflows s lst.toNat = true ∧
      finalEffect lst s = raiseFault .lengthOverflow s) ∨
    (s.phase = .absorb ∧ lst.toNat < s.var.blockBytes ∧ lengthOverflows s lst.toNat = false ∧
      finalEffect lst s =
        finishComputation lst.toNat { s with len := s.len + lst.setWidth 64 }) := by
  unfold finalEffect
  by_cases h : s.phase = .absorb <;> by_cases h1 : s.var.blockBytes ≤ lst.toNat <;>
    cases h2 : lengthOverflows s lst.toNat <;> simp [h, h1] <;> omega

theorem lengthOverflows_iff (s : State) (n : Nat) :
    lengthOverflows s n = true ↔ Config.maxMsgBytes < s.len.toNat + n := by
  simp [lengthOverflows]

theorem lengthOverflows_false_iff (s : State) (n : Nat) :
    lengthOverflows s n = false ↔ s.len.toNat + n ≤ Config.maxMsgBytes := by
  simp [lengthOverflows]

/-- The overflow check reads LEN only. -/
theorem lengthOverflows_congr {s t : State} (h : t.len = s.len) (n : Nat) :
    lengthOverflows t n = lengthOverflows s n := by
  rw [lengthOverflows, lengthOverflows, h]

theorem badOutbits_iff (o : Word32) :
    badOutbits o = true ↔ o.toNat % 8 ≠ 0 ∨ 4096 < o.toNat := by
  unfold badOutbits
  rw [Bool.or_eq_true, bne_iff_ne, decide_eq_true_iff]
  rfl

theorem blockBytes_le (v : Variant) : v.blockBytes ≤ 168 := by
  rcases v with v | v <;> cases v <;> decide

theorem blockBytes_pos (v : Variant) : 0 < v.blockBytes := by
  rcases v with v | v <;> cases v <;> decide

/-- Adding a block or a remainder that does not overflow the message bound does not wrap LEN. -/
theorem len_add {x : Word64} {n : Nat} (h : x.toNat + n ≤ Config.maxMsgBytes) :
    (x + BitVec.ofNat 64 n).toNat = x.toNat + n := by
  have : Config.maxMsgBytes < 2 ^ 64 := by decide
  rw [BitVec.toNat_add, BitVec.toNat_ofNat]
  omega

theorem setWidth_eq_ofNat (lst : Byte) : lst.setWidth 64 = BitVec.ofNat 64 lst.toNat := by
  apply BitVec.eq_of_toNat_eq
  simp

/-- BLOCK runs where its checks pass (R104). -/
theorem blockEffect_consumes {s : State} (h : s.phase = .absorb)
    (hl : s.len.toNat + s.var.blockBytes ≤ Config.maxMsgBytes) :
    blockEffect s = consumeBlock s := by
  rcases blockEffect_cases s with ⟨h', -⟩ | ⟨-, h', -⟩ | ⟨-, -, he⟩
  · exact absurd h h'
  · rw [lengthOverflows_iff] at h'; omega
  · exact he

/-- FINAL runs where its checks pass (R105). -/
theorem finalEffect_finishes {s : State} {lst : Byte} (h : s.phase = .absorb)
    (hb : lst.toNat < s.var.blockBytes) (hl : s.len.toNat + lst.toNat ≤ Config.maxMsgBytes) :
    finalEffect lst s =
      finishComputation lst.toNat { s with len := s.len + BitVec.ofNat 64 lst.toNat } := by
  rw [← setWidth_eq_ofNat]
  rcases finalEffect_cases lst s with ⟨h', -⟩ | ⟨-, h', -⟩ | ⟨-, -, h', -⟩ | ⟨-, -, -, he⟩
  · exact absurd h h'
  · omega
  · rw [lengthOverflows_iff] at h'; omega
  · exact he

/-- A byte of DOUT after FINAL writes it (R105). -/
theorem writeDigest_getElem (n : Nat) (d : List Byte) (dout : Vector Byte 512) (i : Nat)
    (hi : i < 512) :
    (writeDigest n d dout)[i] = if i < n then d.getD i dout[i] else dout[i] := by
  simp [writeDigest]

/-- FINAL, through `finishDigest`: the digest and the engine's final state. -/
theorem finishComputation_md {v : MdVariant} {s : State} (h : s.var = .md v) (lst : Nat) :
    finishComputation lst s =
      finishDigest (mdFinal v s.h s.blk.toList lst s.len.toNat).2
        { s with h := (mdFinal v s.h s.blk.toList lst s.len.toNat).1 } := by
  simp [finishComputation, h]

theorem finishComputation_sponge {v : SpongeVariant} {s : State} (h : s.var = .sponge v)
    (lst : Nat) :
    finishComputation lst s =
      finishDigest (spSqueeze v (spPad v s.sponge (blkPrefix s lst) lst) s.xofn.toNat).2
        { s with sponge :=
            (spSqueeze v (spPad v s.sponge (blkPrefix s lst) lst) s.xofn.toNat).1 } := by
  simp [finishComputation, h]

theorem consumeBlock_md {v : MdVariant} {s : State} (h : s.var = .md v) :
    consumeBlock s = { s with
      h := compress v s.h (blkPrefix s v.blockBytes)
      len := s.len + BitVec.ofNat 64 v.blockBytes } := by
  simp [consumeBlock, h]

theorem consumeBlock_sponge {v : SpongeVariant} {s : State} (h : s.var = .sponge v) :
    consumeBlock s = { s with
      sponge := spAbsorb v s.sponge (blkPrefix s v.rate)
      len := s.len + BitVec.ofNat 64 v.rate } := by
  simp [consumeBlock, h]

/-- The id of an INIT selects the variant with that id (R42). -/
theorem initVariant_of_id {var : Byte} {v : Variant} (h : var.toNat = v.id) :
    initVariant var = some v := by
  unfold initVariant
  rw [h]
  rcases v with v | v <;> cases v <;> rfl

theorem initVariant_eq_none {var : Byte} : initVariant var = none ↔ 12 < var.toNat := by
  simp [initVariant, variantOfId, allVariants]
  omega

theorem initVariant_id {var : Byte} {v : Variant} (h : initVariant var = some v) :
    var.toNat = v.id := by
  have hle : ¬ 12 < var.toNat := by
    rw [← initVariant_eq_none, h]; simp
  have hmem : ∀ n, n ≤ 12 → ∀ w, variantOfId n = some w → n = w.id := by
    decide +revert
  exact hmem _ (by omega) _ h

theorem isShake_iff_id (v : Variant) : v.isShake = true ↔ v.id = 11 ∨ v.id = 12 := by
  rcases v with v | v <;> cases v <;> decide

/-- The latched variant is one of the two engines'. -/
theorem var_cases (s : State) : (∃ v, s.var = .md v) ∨ (∃ v, s.var = .sponge v) := by
  cases s.var <;> simp

/-- What consuming a block leaves: everything but the latched variant's engine and LEN. -/
theorem consumeBlock_frame (s : State) :
    ∃ h sp, consumeBlock s =
        { s with h := h, sponge := sp, len := s.len + BitVec.ofNat 64 s.var.blockBytes } ∧
      (∀ v, s.var = .md v → sp = s.sponge) ∧ (∀ v, s.var = .sponge v → h = s.h) := by
  obtain ⟨v, hv⟩ | ⟨v, hv⟩ := var_cases s
  · exact ⟨compress v s.h (blkPrefix s v.blockBytes), s.sponge,
      by rw [consumeBlock_md hv, hv]; rfl, by simp, by simp [hv]⟩
  · exact ⟨s.h, spAbsorb v s.sponge (blkPrefix s v.rate),
      by rw [consumeBlock_sponge hv, hv]; rfl, by simp [hv], by simp⟩

/-- What finishing a computation leaves: everything but the latched variant's engine, DOUT, DLEN and
PHASE. -/
theorem finishComputation_frame (lst : Nat) (s : State) :
    ∃ h sp d, finishComputation lst s =
        { s with h := h, sponge := sp, dout := writeDigest s.xofn.toNat d s.dout, dlen := s.xofn,
                 phase := .done } ∧
      (∀ v, s.var = .md v → sp = s.sponge) ∧ (∀ v, s.var = .sponge v → h = s.h) := by
  obtain ⟨v, hv⟩ | ⟨v, hv⟩ := var_cases s
  · exact ⟨_, s.sponge, _, finishComputation_md hv lst, by simp, by simp [hv]⟩
  · exact ⟨s.h, _, _, finishComputation_sponge hv lst, by simp [hv], by simp⟩

/-- Two buffers that agree on the first `n` bytes have the same `n`-byte prefix. -/
theorem toList_take_congr {b b2 : Vector Byte 168} {n : Nat}
    (h : ∀ i : Fin 168, i.val < n → (b[i] : Byte) = b2[i]) :
    b.toList.take n = b2.toList.take n := by
  apply List.ext_getElem?
  intro i
  by_cases hi : i < n
  · by_cases h2 : i < 168
    · have := h ⟨i, h2⟩ hi
      rw [List.getElem?_take_of_lt hi, List.getElem?_take_of_lt hi]
      rw [List.getElem?_eq_getElem (by simpa using h2), List.getElem?_eq_getElem (by simpa using h2)]
      simpa using this
    · rw [List.getElem?_eq_none (by simp; omega), List.getElem?_eq_none (by simp; omega)]
  · rw [List.getElem?_take_eq_none (by omega), List.getElem?_take_eq_none (by omega)]

/-- The inversion of `exec`: ignored in FAULT, refused with a fault code, or one of the three
commands with what its checks established. -/
theorem exec_cases {i : Instr} {s t : State} (h : exec i s = .next t) :
    (s.phase = .fault ∧ t = s) ∨
    (s.phase ≠ .fault ∧ ∃ c, c ≠ .none ∧ t = raiseFault c s) ∨
    (s.phase ≠ .fault ∧ ∃ var v, i = .init var ∧ initVariant var = some v ∧
      ¬ (v.isShake = true ∧ badOutbits s.outbits = true) ∧ t = startComputation v s) ∨
    (i = .block ∧ s.phase = .absorb ∧ s.len.toNat + s.var.blockBytes ≤ Config.maxMsgBytes ∧
      t = consumeBlock s) ∨
    (∃ lst, i = .final lst ∧ s.phase = .absorb ∧ lst.toNat < s.var.blockBytes ∧
      s.len.toNat + lst.toNat ≤ Config.maxMsgBytes ∧
      t = finishComputation lst.toNat { s with len := s.len + BitVec.ofNat 64 lst.toNat }) := by
  have ht := eq_of_exec h
  by_cases hp : s.phase = .fault
  · rw [unlessFault_fault hp] at ht; exact .inl ⟨hp, ht⟩
  · rw [unlessFault_ok hp] at ht
    right
    cases i with
    | init var =>
      rcases initEffect_cases var s with ⟨-, he⟩ | ⟨v, -, -, -, he⟩ | ⟨v, hv, hs, he⟩
      · exact .inl ⟨hp, _, by simp, ht.trans he⟩
      · exact .inl ⟨hp, _, by simp, ht.trans he⟩
      · exact .inr (.inl ⟨hp, var, v, rfl, hv, hs, ht.trans he⟩)
    | block =>
      rcases blockEffect_cases s with ⟨-, he⟩ | ⟨-, -, he⟩ | ⟨hv, hs, he⟩
      · exact .inl ⟨hp, _, by simp, ht.trans he⟩
      · exact .inl ⟨hp, _, by simp, ht.trans he⟩
      · exact .inr (.inr (.inl ⟨rfl, hv, (lengthOverflows_false_iff _ _).1 hs, ht.trans he⟩))
    | final lst =>
      rcases finalEffect_cases lst s with ⟨-, he⟩ | ⟨-, -, he⟩ | ⟨-, -, -, he⟩ | ⟨hv, hs, h2, he⟩
      · exact .inl ⟨hp, _, by simp, ht.trans he⟩
      · exact .inl ⟨hp, _, by simp, ht.trans he⟩
      · exact .inl ⟨hp, _, by simp, ht.trans he⟩
      · refine .inr (.inr (.inr ⟨lst, rfl, hv, hs, (lengthOverflows_false_iff _ _).1 h2, ?_⟩))
        rw [← setWidth_eq_ofNat]
        exact ht.trans he

end Sys2Proof.Machine
end

