-- ==== Sys2Proof/Laws/PerInstr.lean ====
section
/-! SUPPORT. Statements about every command as syntax, one lemma per constructor: the family Reserved says that an encoded command carries zeros in the bits its row of R39 reserves. -/

namespace Sys2Proof.Laws.Reserved

open Sys2Proof

/-- The reserved field RSV of a well-formed command's word is 0, and so is each of VAR and LST that
the command does not use (R39, R41). -/
def Statement (i : Instr) : Prop :=
  i.WellFormed → cmdRsv (encode i) = 0 ∧
    match i with
    | .init _ => cmdLst (encode i) = 0
    | .block => cmdVar (encode i) = 0 ∧ cmdLst (encode i) = 0
    | .final _ => cmdVar (encode i) = 0

/-- INIT: OP 1, LST and RSV 0. -/
theorem init (var : Byte) : Statement (.init var) := by
  intro h
  have key : ∀ v : Byte, v.toNat < 16 →
      cmdRsv (encode (.init v)) = 0 ∧ cmdLst (encode (.init v)) = 0 := by decide +kernel
  exact key var (by simpa [Instr.WellFormed, Instr.wellFormed] using h)

/-- BLOCK: OP 2, everything else 0. -/
theorem block : Statement .block := by
  intro _
  decide

/-- FINAL: OP 3, VAR and RSV 0. -/
theorem final (lst : Byte) : Statement (.final lst) := by
  intro _
  have key : ∀ l : Byte,
      cmdRsv (encode (.final l)) = 0 ∧ cmdVar (encode (.final l)) = 0 := by decide +kernel
  exact key lst

end Sys2Proof.Laws.Reserved
end

