-- ==== Sys2Proof/Laws/Run.lean ====
section
/-! SUPPORT. A run over a list of host events is the fold of what each event does (R33, R102). -/

namespace Sys2Proof.Machine

/-- What one host event makes of the core, `pending` aside. -/
def eventEffect (e : HostEvent) (s : State) : State :=
  match hostEvent e s with
  | .done t => t
  | .command w t =>
    match decode w with
    | .ok i => unlessFault (commandEffect i) t
    | .error _ => illegalCommand t

theorem step_event (e : HostEvent) (s : State) (rest : List HostEvent) :
    step { s with pending := e :: rest } = .next (eventEffect e { s with pending := rest }) := by
  unfold step eventEffect nextAction
  simp only
  cases hostEvent e { s with pending := rest } with
  | done t => rfl
  | command w t =>
    simp only
    cases decode w with
    | ok i => exact exec_eq_next i t
    | error e => rfl

theorem consumeBlock_pending (s : State) (p : List HostEvent) :
    consumeBlock { s with pending := p } = { consumeBlock s with pending := p } := by
  obtain ⟨v, hv⟩ | ⟨v, hv⟩ := var_cases s
  · rw [consumeBlock_md (s := { s with pending := p }) hv, consumeBlock_md (s := s) hv]; rfl
  · rw [consumeBlock_sponge (s := { s with pending := p }) hv, consumeBlock_sponge (s := s) hv]; rfl

theorem finishComputation_pending (lst : Nat) (s : State) (p : List HostEvent) :
    finishComputation lst { s with pending := p } =
      { finishComputation lst s with pending := p } := by
  obtain ⟨v, hv⟩ | ⟨v, hv⟩ := var_cases s
  · rw [finishComputation_md (s := { s with pending := p }) hv, finishComputation_md (s := s) hv]; rfl
  · rw [finishComputation_sponge (s := { s with pending := p }) hv,
      finishComputation_sponge (s := s) hv]
    rfl

/-- No command looks at the host's further accesses. -/
theorem commandEffect_pending (i : Instr) (s : State) (p : List HostEvent) :
    unlessFault (commandEffect i) { s with pending := p } =
      { unlessFault (commandEffect i) s with pending := p } := by
  have hl := lengthOverflows_congr (s := s) (t := { s with pending := p }) rfl
  by_cases hp : s.phase = .fault
  · rw [unlessFault_fault hp, unlessFault_fault (s := { s with pending := p }) hp]
  · rw [unlessFault_ok hp, unlessFault_ok (s := { s with pending := p }) hp]
    cases i with
    | init var =>
      rcases initEffect_cases var s with ⟨hv, he⟩ | ⟨v, hv, hs, hb, he⟩ | ⟨v, hv, hs, he⟩
      · simp only [commandEffect, he]; simp [initEffect, hv, raiseFault]
      · simp only [commandEffect, he]; simp [initEffect, hv, hs, hb, raiseFault]
      · simp only [commandEffect, he]; simp [initEffect, hv, startComputation]
        intro h1 h2; exact absurd ⟨h1, h2⟩ hs
    | block =>
      simp only [commandEffect, blockEffect, hl]
      split_ifs
      · rfl
      · rfl
      · exact consumeBlock_pending s p
    | final lst =>
      simp only [commandEffect, finalEffect, hl]
      split_ifs
      · rfl
      · rfl
      · rfl
      · exact finishComputation_pending lst.toNat { s with len := s.len + lst.setWidth 64 } p

theorem eventEffect_pending (e : HostEvent) (s : State) (p : List HostEvent) :
    eventEffect e { s with pending := p } = { eventEffect e s with pending := p } := by
  unfold eventEffect
  cases e with
  | reset => rfl
  | read a n =>
    have hm : memRead { s with pending := p } a n = memRead s a n := rfl
    simp only [hostEvent, hostRead, hm]
    cases memRead s a n <;> rfl
  | write a n v =>
    simp only [hostEvent, hostWrite]
    by_cases h : admitted a n = true
    · simp only [if_pos h]
      cases regionOf a
      case cmd =>
        simp only
        cases decode v with
        | ok i => exact commandEffect_pending i { s with resp := .ack } p
        | error e =>
          by_cases hp : s.phase = .fault
          · simp only [illegalCommand]
            rw [unlessFault_fault (s := { s with pending := p, resp := .ack }) hp,
              unlessFault_fault (s := { s with resp := .ack }) hp]
          · simp only [illegalCommand]
            rw [unlessFault_ok (s := { s with pending := p, resp := .ack }) hp,
              unlessFault_ok (s := { s with resp := .ack }) hp]
            rfl
      case blk => by_cases hn : n = 1 <;> simp only [hn, if_true, if_false] <;> rfl
      all_goals rfl
    · simp only [if_neg h]; rfl

/-- The state after a list of host events, `pending` aside. -/
def runEvents (es : List HostEvent) (s : State) : State := es.foldl (fun s e => eventEffect e s) s

/-- A run over a list of host events is the fold of their effects. -/
theorem run_events (es rest : List HostEvent) (s : State) :
    core.run es.length { s with pending := es ++ rest } =
      .next { runEvents es s with pending := rest } := by
  unfold runEvents
  induction es generalizing s with
  | nil => rfl
  | cons e es ih =>
    have h : core.step { s with pending := e :: es ++ rest } =
        .next { eventEffect e s with pending := es ++ rest } := by
      rw [← eventEffect_pending]; exact step_event e s (es ++ rest)
    simp only [List.length_cons, Host.Core.run, h, List.foldl_cons]
    exact ih (eventEffect e s)

/-- What the host finds after its accesses is the fold of their effects (R33). -/
theorem afterAccesses_eq (es : List HostEvent) (s : State) :
    afterAccesses es s = { runEvents es s with pending := [] } := by
  have h := run_events es [] s
  rw [List.append_nil] at h
  unfold afterAccesses
  rw [h]

theorem runEvents_append (a b : List HostEvent) (s : State) :
    runEvents (a ++ b) s = runEvents b (runEvents a s) := by simp [runEvents]

theorem runEvents_cons (e : HostEvent) (es : List HostEvent) (s : State) :
    runEvents (e :: es) s = runEvents es (eventEffect e s) := rfl

theorem setXof_effect (bits : Word32) (s : State) :
    eventEffect (setXof bits) s = { s with outbits := bits, resp := .ack } := rfl

theorem commandWrite_effect {i : Instr} (hi : decode (encode i) = .ok i) (s : State) :
    eventEffect (commandWrite i) s = unlessFault (commandEffect i) { s with resp := .ack } := by
  have h : hostEvent (commandWrite i) s = .command (encode i) { s with resp := .ack } := rfl
  unfold eventEffect
  rw [h]
  simp only [hi]

theorem write8_effect (s : State) (i : Nat) (h : i < 168) (b : Byte) :
   eventEffect (write8 (0x100 + i) b) s = { s with resp := .ack, blk := s.blk.set i b } := by
  unfold eventEffect write8
  simp only [hostEvent, hostWrite_blk_byte _ _ h]
  have : (b.setWidth 32).extractLsb' 0 8 = b := by
    apply BitVec.eq_of_toNat_eq; simp
    have := b.isLt
    omega
  rw [this]

/-- BLK with its first bytes replaced by `bs`. -/
def overlay (bs : List Byte) (b : Vector Byte 168) : Vector Byte 168 :=
  Vector.ofFn fun i => bs.getD i.val b[i]

theorem overlay_take (bs : List Byte) (b : Vector Byte 168) (h : bs.length ≤ 168) :
    (overlay bs b).toList.take bs.length = bs := by
  apply List.ext_getElem
  · simp; omega
  · intro i h1 h2
    have : i < 168 := by omega
    simp [overlay, h2]

/-- `LOADBLK bytes` replaces the first bytes of BLK and nothing else of the core (R44). -/
theorem load_effect (bs : List Byte) (s : State) (h : bs.length ≤ 168) :
    ∃ r, runEvents (loadBlk bs) s = { s with resp := r, blk := overlay bs s.blk } := by
  have key : ∀ k, k ≤ bs.length → ∃ r,
      runEvents ((List.range k).map fun i => write8 (0x100 + i) (bs.getD i 0)) s =
        { s with resp := r, blk := overlay (bs.take k) s.blk } := by
    intro k
    induction k with
    | zero =>
      intro _
      have : overlay (bs.take 0) s.blk = s.blk := by apply Vector.ext; intro i hi; simp [overlay]
      refine ⟨s.resp, ?_⟩
      rw [this]; rfl
    | succ k ih =>
      intro hk
      obtain ⟨r, hr⟩ := ih (by omega)
      rw [List.range_succ, List.map_append, runEvents_append, hr]
      refine ⟨.ack, ?_⟩
      simp only [List.map_singleton]
      refine (write8_effect _ k (by omega) _).trans ?_
      have hv : (overlay (bs.take k) s.blk).set k (bs.getD k 0) (by omega) =
          overlay (bs.take (k + 1)) s.blk := ?_
      · exact congrArg (fun b => ({ s with resp := .ack, blk := b } : State)) hv
      apply Vector.ext
      intro i hi
      rw [Vector.getElem_set]
      simp only [overlay, Vector.getElem_ofFn, List.getD]
      by_cases hki : k = i
      · subst hki
        rw [if_pos rfl, List.getElem?_take_of_lt (by omega), List.getElem?_eq_getElem (by omega)]; simp
      · rw [if_neg hki]
        by_cases hlt : i < k
        · rw [List.getElem?_take_of_lt hlt, List.getElem?_take_of_lt (by omega)]
        · rw [List.getElem?_take_eq_none (by omega), List.getElem?_take_eq_none (by omega)]
  have := key bs.length le_rfl
  rwa [List.take_length] at this

end Sys2Proof.Machine
end

