-- ==== Sys2Proof/Laws/Sponge.lean ====
section
/-! SUPPORT. The sponge engine said once: the lanes, the XORs into the state, and the two cases of the squeeze loop (R88, R97 to R99). -/

namespace Sys2Proof.Machine

/-- Lane (x, y) of lanes given by a function (R88). -/
theorem lane_mk (f : Nat → Nat → Word64) (x y : Nat) :
    lane (mkLanes f) x y = f (x % 5) (y % 5) := by
  unfold lane mkLanes
  rw [Vector.getElem_ofFn]
  have h1 : (x % 5 + 5 * (y % 5)) % 5 = x % 5 := by omega
  have h2 : (x % 5 + 5 * (y % 5)) / 5 = y % 5 := by omega
  simp only [h1, h2]

theorem lane_mod (a : Lanes) (x y : Nat) : lane a (x % 5) (y % 5) = lane a x y := by
  unfold lane; simp

/-- Lanes that agree at every (x, y) are equal (R88). -/
theorem lanes_ext {a b : Lanes} (h : ∀ x y, x < 5 → y < 5 → lane a x y = lane b x y) : a = b := by
  apply Vector.ext
  intro i hi
  have := h (i % 5) (i / 5) (by omega) (by omega)
  unfold lane at this
  have e : i % 5 % 5 + 5 * (i / 5 % 5) = i := by omega
  simpa only [e] using this

theorem xorAt_getElem (s : SpongeBytes) (i : Nat) (b : Byte) (j : Nat) (hj : j < 200) :
    (xorAt s i b)[j] = s[j] ^^^ (if j = i then b else 0) := by
  unfold xorAt
  by_cases h : i < 200
  · rw [dif_pos h, Vector.getElem_set]
    by_cases hij : i = j
    · subst hij; simp
    · have : ¬ j = i := fun e => hij e.symm
      simp [hij, this]
  · rw [dif_neg h]
    have : ¬ j = i := by omega
    simp [this]

theorem xorPrefix_getElem (s : SpongeBytes) (bs : List Byte) (n : Nat) (j : Nat) (hj : j < 200) :
    (xorPrefix s bs n)[j] = if j < n then s[j] ^^^ bs.getD j 0 else s[j] := by
  simp [xorPrefix]

/-- Every rho offset is a proper rotation of a lane (R90): "Every offset is in 0..63". -/
theorem rhoOffset_lt (x y : Nat) : rhoOffset x y < 64 := by
  unfold rhoOffset rhoRow
  split <;> split <;> decide

theorem rate_pos (v : SpongeVariant) : 0 < v.rate ∧ v.rate ≤ 168 := by cases v <;> decide

/-- The last chunk of a squeeze: nothing is permuted after it (R99). -/
theorem squeezeLoop_last {rate fuel need : Nat} (h : need ≤ rate) (s : SpongeBytes) :
    squeezeLoop rate (fuel + 1) need s = (s, s.toList.take need) := by
  rw [squeezeLoop, if_pos h, Nat.min_eq_right h]

/-- A full chunk with more to come: one permutation, and the rest (R99). -/
theorem squeezeLoop_more {rate fuel need : Nat} (h : rate < need) (s : SpongeBytes) :
    squeezeLoop rate (fuel + 1) need s =
      ((squeezeLoop rate fuel (need - rate) (keccakF s)).1,
        s.toList.take rate ++ (squeezeLoop rate fuel (need - rate) (keccakF s)).2) := by
  rw [squeezeLoop, if_neg (Nat.not_le.2 h), Nat.min_eq_left h.le]

end Sys2Proof.Machine
end

