-- ==== Sys2Proof/Tests/Slice0.lean ====
section
/-! SUPPORT. The model's own tests: the smoke tests of the well-formedness check, words written out from the encoding, the spec's worked examples (their rule or section is named), and a witness for the hypotheses of every statement. -/

namespace Sys2Proof.Tests.Slice0

open Sys2Proof Sys2Proof.Machine

/-! ### Well-formedness -/

theorem test_wellFormed_refuses_init16 : (Instr.init 16).wellFormed = false := by decide

theorem test_wellFormed_accepts_init15 : (Instr.init 15).wellFormed = true := by decide

/-! ### Decoding: words written out from the bit patterns of R41, the reserved words of R43 -/

theorem test_decode_init : decode 0b0000_0000_0000_0000_0000_0000_1011_0001#32 = .ok (.init 11) := by
  decide

theorem test_decode_block : decode 0b0000_0000_0000_0000_0000_0000_0000_0010#32 = .ok .block := by
  decide

theorem test_decode_final :
    decode 0b0000_0000_0000_0000_1010_0111_0000_0011#32 = .ok (.final 167) := by decide

theorem test_decode_zero : decode 0x00000000 = .error .reservedOp := by decide

theorem test_decode_op4 : decode 0x00000004 = .error .reservedOp := by decide

theorem test_decode_init_lst : decode 0x00000101 = .error .initReservedBits := by decide

theorem test_decode_block_var : decode 0x00000012 = .error .blockReservedBits := by decide

/-- R113: "The word 0x00000013 (FINAL with VAR = 1)". -/
theorem test_decode_final_var : decode 0x00000013 = .error .finalReservedBits := by decide

theorem test_decode_rsv : decode 0x00010003 = .error .finalReservedBits := by decide

theorem test_encode : encode (.init 12) = 0x000000C1 ∧ encode .block = 0x00000002 ∧
    encode (.final 3) = 0x00000303 := by decide

theorem test_table_words : decodeTableWord 32 0xC1 = some (.init 12) ∧
    decodeTableWord 32 2 = some .block ∧ decodeTableWord 32 0x303 = some (.final 3) ∧
    decodeTableWord 32 0 = none := by decide

/-! ### Small states -/

/-- The core with `bytes` at the start of BLK. -/
def withBlk (bytes : List Byte) (s : State) : State := { s with blk := overlay bytes s.blk }

/-- A computation of `v` with LEN = n and XOFN = x, as the host sees it after INIT and BLOCKs. -/
def absorbing (v : Variant) (n : Nat) (x : Nat) : State :=
  { State.reset with phase := .absorb, var := v, len := BitVec.ofNat 64 n, xofn := BitVec.ofNat 10 x }

/-- A core in FAULT with SEQUENCE_ERROR. -/
def faulted : State := { State.reset with phase := .fault, fcode := .sequenceError }

/-- "abc" (95_test_vectors.md 2.4). -/
def abc : List Byte := [0x61, 0x62, 0x63]

/-! ### The commands -/

/-- R103, worked example: OUTBITS = 1600 and the word 0x000000B1 give STATUS 0x000000B1, XOFN 200. -/
theorem test_init_shake128 :
    let t := unlessFault (commandEffect (.init 11)) { State.reset with outbits := 1600 }
    statusWord t = 0x000000B1 ∧ t.xofn = 200 := by decide +kernel

/-- R103, worked example: OUTBITS = 12 gives STATUS 0x00000403. -/
theorem test_init_bad_outbits :
    statusWord (unlessFault (commandEffect (.init 11)) { State.reset with outbits := 12 }) =
      0x00000403 := by decide +kernel

/-- R104 and R78: BLOCK on the padded "abc" block from the SHA-256 IV gives the published H[0], H[7],
and LEN 64. -/
theorem test_block_sha256 :
    let t := unlessFault (commandEffect .block)
      (withBlk (abc ++ [0x80] ++ zeros 59 ++ [0x18]) { absorbing (.md .sha256) 0 32 with
        h := mdIv .sha256 })
    t.h[0] = 0xBA7816BF ∧ t.h[7] = 0xF20015AD ∧ t.len = 64 := by decide +kernel

/-- R104: BLOCK in IDLE is a SEQUENCE_ERROR. -/
theorem test_block_idle :
    statusWord (unlessFault (commandEffect .block) State.reset) = 0x00000303 := by decide +kernel

/-- R105, worked example: SHA-1 of "abc", first and last digest byte, and STATUS 0x00140002. -/
theorem test_final_sha1_abc :
    let t := unlessFault (commandEffect (.final 3))
      (withBlk abc { absorbing (.md .sha1) 0 20 with h := mdIv .sha1 })
    statusWord t = 0x00140002 ∧ t.len = 3 ∧ t.dout[0] = 0xA9 ∧ t.dout[19] = 0x9D ∧
      t.dout[20] = 0 := by decide +kernel

/-- R113: FINAL with lst = 200 in IDLE faults SEQUENCE_ERROR, not BAD_ARGUMENT. -/
theorem test_final_idle :
    statusWord (unlessFault (commandEffect (.final 200)) State.reset) = 0x00000303 := by
  decide +kernel

/-- The host's word placed by `withFetchWord` runs as the next command. -/
theorem test_withFetchWord :
    step (State.reset.withFetchWord 32 0x02) =
      .next { State.reset with phase := .fault, fcode := .sequenceError, resp := .ack } := rfl

/-! ### The window (R25, R26, R31) -/

theorem test_word_write_is_big_endian :
    (setBlkWord State.reset.blk 0 0x61626364)[0] = 0x61 ∧
    (setBlkWord State.reset.blk 0 0x61626364)[3] = 0x64 := by decide +kernel

theorem test_word_read_is_big_endian :
    memRead (withBlk [0x61, 0x62, 0x63, 0x64] State.reset) 0x100 4 = some 0x61626364 := by
  decide +kernel

theorem test_byte_read_of_status_refused : memRead State.reset 0x004 1 = none := by decide +kernel

theorem test_word_across_blk_end_refused : admitted 0x1A8 4 = false ∧ admitted 0x1A4 4 = true := by
  decide

/-! ### Primitives and engines (40_primitives.md to 45_sponge.md, their examples) -/

theorem test_rotr : rotr 0x12345678#32 8 = 0x78123456 ∧ rotr 1#64 1 = 0x8000000000000000 := by
  decide

theorem test_rotl : rotl 0x80000000#32 1 = 1 ∧ rotl 0x8000000000000001#64 1 = 3 := by decide

theorem test_ch_maj :
    ch 0xFF00FF00#32 0x12345678 0x9ABCDEF0 = 0x12BC56F0 ∧
    maj 0xFF00FF00#32 0x12345678 0x9ABCDEF0 = 0x9A34DE70 ∧
    parity 0xFF00FF00#32 0x12345678 0x9ABCDEF0 = 0x77887788 := by decide

theorem test_pack :
    packBe 32 [0x01, 0x02, 0x03, 0x04, 0xF0, 0xE0, 0xD0, 0xC0] = [0x01020304, 0xF0E0D0C0] ∧
    packLe64 [0x01, 0x02, 0x03, 0x04, 0x05, 0x06, 0x07, 0x08] = [0x0807060504030201] ∧
    beBytes 24 8 = [0, 0, 0, 0, 0, 0, 0, 0x18] := by decide +kernel

theorem test_sigma :
    bigSigma0_32 1 = 0x40080400 ∧ smallSigma1_32 0x80000000 = 0x00205000 ∧
    bigSigma1_64 1 = 0x0004400000800000 ∧ smallSigma0_64 0x8000000000000000 = 0x4180000000000000 := by
  decide

/-- R69: round 0 on the IV with W[0] = 0x61626380. -/
theorem test_sha1_round :
    sha1Round 0 (sha1Load (mdIv .sha1)) 0x61626380 =
      ⟨0x0116FC33, 0x67452301, 0x7BF36AE2, 0x98BADCFE, 0x10325476⟩ := by decide +kernel

/-- R77: SHA-256 round 0 on the IV with W[0] = 0x61626380. -/
theorem test_sha256_round :
    sha2Round sha2Core32 0 (sha2Load 32 (mdIv .sha256)) 0x61626380 =
      ⟨0x5D6AEBCD, 0x6A09E667, 0xBB67AE85, 0x3C6EF372, 0xFA2A4622, 0x510E527F, 0x9B05688C,
        0x1F83D9AB⟩ := by decide +kernel

/-- R76: the last schedule word of the padded "abc" block of SHA-512. -/
theorem test_sha512_schedule :
    (sha2Schedule sha2Core64 (abc ++ [0x80] ++ zeros 123 ++ [0x18])).getD 79 0 =
      0x92AEEED1A7BCF7D2 := by decide +kernel

/-- R61: the fourth word of SHA-512/224 gives only its upper 4 bytes. -/
theorem test_from_words :
    (fromWords [0x4634270F707B6A54#64, 0xDAAE7530460842E2, 0x0E37ED265CEEE9A4, 0x3E8924AAF57C93D9]
      28).drop 24 = [0x3E, 0x89, 0x24, 0xAA] := by decide +kernel

theorem test_from_hex :
    fromHex ['a', 'b', 'c'] 4 = .ok [0xAB, 0xC0, 0, 0] ∧
    fromHex ['z', 'z'] 1 = .error .invalidEncoding ∧ toHex [0x05] = ['0', '5'] := by decide +kernel

/-- R89: only A[0][0] = 1 gives A[1][y] = 1 and A[4][y] = 2. -/
theorem test_theta :
    let a := theta (mkLanes fun x y => if x = 0 ∧ y = 0 then 1 else 0)
    lane a 0 0 = 1 ∧ lane a 1 3 = 1 ∧ lane a 4 2 = 2 ∧ lane a 2 0 = 0 := by decide +kernel

/-- R91: A[1][0] = 1 moves to B[0][2] = 2. -/
theorem test_rhoPi :
    lane (rhoPi (mkLanes fun x y => if x = 1 ∧ y = 0 then 1 else 0)) 0 2 = 2 := by decide +kernel

/-- R92: the row (0, 0, 1, 0, 0) becomes (1, 0, 1, 0, 0). -/
theorem test_chi :
    let a := chi (mkLanes fun x y => if x = 2 ∧ y = 0 then 1 else 0)
    lane a 0 0 = 1 ∧ lane a 1 0 = 0 ∧ lane a 2 0 = 1 := by decide +kernel

/-- The lanes half way through keccak_f of the zero state: the stepping stone of the next two tests. -/
def keccakHalfWay : Lanes :=
  (#v[0x4089B1D2EF5D3A26, 0x8409F6C9BE239ECB, 0x12657D5A4568EAD5, 0x4D9F3E32387E66D3, 0x3BE7F6680BB1C847,
    0x61ED7FB0CE6CA6AF, 0x3671348A3FBD6487, 0x81E9F633F01DCF03, 0xAB5EEFA38E5546D9, 0x8298D4E430062494,
    0x3229E84A8E1704C2, 0x56F221867A1B3140, 0xDB7043CF08757BB2, 0x52DE6DE69935B888, 0x98A1C2D38194EDA1,
    0x9AF85D4549FB53C7, 0x667E09DE6B59E740, 0xC08877B3D1A7A9F3, 0x5DA108D19209739F, 0xE0E096FFE4FF71EA,
    0x77BADAFBFD43D602, 0x50A13329B93C785F, 0xF8AE145ADFFBE076, 0x366D5164BB8F0BB5, 0x438298AA08F16A54])

theorem test_keccakF_zero_rounds_0_to_11 :
    (List.range 12).foldl keccakRound (Vector.replicate 25 0) = keccakHalfWay := by decide +kernel

/-- 95_test_vectors.md 2.7: keccak_f of the zero state, all 25 lanes. -/
theorem test_keccakF_zero_rounds_12_to_23 :
    (List.range' 12 12).foldl keccakRound keccakHalfWay =
      #v[0xF1258F7940E1DDE7, 0x84D5CCF933C0478A, 0xD598261EA65AA9EE, 0xBD1547306F80494D, 0x8B284E056253D057,
    0xFF97A42D7F8E6FD4, 0x90FEE5A0A44647C4, 0x8C5BDA0CD6192E76, 0xAD30A6F71B19059C, 0x30935AB7D08FFC64,
    0xEB5AA93F2317D635, 0xA9A6E6260D712103, 0x81A57C16DBCF555F, 0x43B831CD0347C826, 0x01F22F1A11A5569F,
    0x05E5635A21D9AE61, 0x64BEFEF28CC970F2, 0x613670957BC46611, 0xB87C5A554FD00ECB, 0x8C3EE88A1CCF32C8,
    0x940C7922AE3A2614, 0x1841F924A2C509E4, 0x16F53526E70465C2, 0x75F644E97F30A13B, 0xEAF1FF7B5CECA249] := by
  decide +kernel

/-! ### Witnesses: a concrete state and operands that meet the hypotheses of each statement, clause by
clause, at the ends of the ranges -/

/-- A finished computation whose DLEN is 20. -/
def finished : State := { State.reset with phase := .done, xofn := 20, dlen := 20 }

theorem witness_DecodeAfterEncode :
    (Instr.init 15).WellFormed ∧ Instr.block.WellFormed ∧ (Instr.final 255).WellFormed := by decide

theorem witness_EncodeAfterDecode :
    decode 0xF1 = .ok (.init 15) ∧ decode 2 = .ok .block ∧ decode 0xFF03 = .ok (.final 255) := by
  decide

theorem witness_ReservedWordsAreIllegal :
    ReservedWord 0 ∧ ReservedWord 4 ∧ ReservedWord 0xF ∧ ReservedWord 0x10001 ∧
    ReservedWord 0x102 ∧ ReservedWord 0x13 ∧ State.reset.phase ≠ .fault := by
  refine ⟨?_, ?_, ?_, ?_, ?_, ?_, by decide⟩ <;> (unfold ReservedWord; decide)

theorem witness_StepPerformsDecodedCommand :
    decode 0x303 = .ok (.final 3) ∧
    (State.reset.withFetchWord 32 0x303).pending = .write 0x000 4 0x303 :: [] := ⟨by decide, rfl⟩

theorem witness_IdleCoreHolds : State.reset.pending = [] := rfl

theorem witness_InitStartsComputation :
    faulted.phase = .fault ∧ State.reset.phase ≠ .fault ∧
    12 < (13 : Byte).toNat ∧ ((11 : Byte).toNat = 11 ∨ (11 : Byte).toNat = 12) ∧
    (4095#32).toNat % 8 ≠ 0 ∧ 4096 < (4104#32).toNat ∧
    (0 : Byte).toNat = (Variant.md .sha1).id ∧ (6 : Byte).toNat = (Variant.md .sha512t256).id ∧
    (7 : Byte).toNat = (Variant.sponge .sha3_224).id ∧
    (12 : Byte).toNat = (Variant.sponge .shake256).id ∧
    (SpongeVariant.shake256.isShake = true → (4096#32).toNat % 8 = 0 ∧ (4096#32).toNat ≤ 4096) := by
  decide

theorem witness_BlockConsumesBlock :
    faulted.phase = .fault ∧ State.reset.phase = .idle ∧ finished.phase = .done ∧
    (absorbing (.md .sha1) (2 ^ 61 - 64) 20).phase = .absorb ∧
    2 ^ 61 - 1 < (absorbing (.md .sha1) (2 ^ 61 - 64) 20).len.toNat + MdVariant.sha1.blockBytes ∧
    (absorbing (.md .sha1) (2 ^ 61 - 128) 20).len.toNat + MdVariant.sha1.blockBytes ≤ 2 ^ 61 - 1 ∧
    (absorbing (.sponge .shake128) 0 512).var = .sponge .shake128 ∧
    (absorbing (.sponge .shake128) 0 512).len.toNat + SpongeVariant.shake128.rate ≤ 2 ^ 61 - 1 := by
  decide +kernel

theorem witness_FinalWritesDigest :
    faulted.phase = .fault ∧ State.reset.phase = .idle ∧ finished.phase = .done ∧
    (absorbing (.md .sha1) 0 20).phase = .absorb ∧
    (absorbing (.md .sha1) 0 20).xofn.toNat = MdVariant.sha1.digestBytes ∧
    (absorbing (.md .sha1) 0 20).var.blockBytes ≤ (64 : Byte).toNat ∧
    (63 : Byte).toNat < MdVariant.sha1.blockBytes ∧
    (1 : Byte).toNat < (absorbing (.md .sha1) (2 ^ 61 - 1) 20).var.blockBytes ∧
    2 ^ 61 - 1 < (absorbing (.md .sha1) (2 ^ 61 - 1) 20).len.toNat + (1 : Byte).toNat ∧
    (1 : Byte).toNat < (absorbing (.sponge .shake128) (2 ^ 61 - 1) 512).var.blockBytes ∧
    2 ^ 61 - 1 < (absorbing (.sponge .shake128) (2 ^ 61 - 1) 512).len.toNat + (1 : Byte).toNat ∧
    (absorbing (.md .sha1) (2 ^ 61 - 64) 20).len.toNat + (63 : Byte).toNat ≤ 2 ^ 61 - 1 ∧
    (167 : Byte).toNat < SpongeVariant.shake128.rate ∧
    (absorbing (.sponge .shake128) 168 512).len.toNat + (167 : Byte).toNat ≤ 2 ^ 61 - 1 := by
  decide +kernel

theorem witness_RefusedCommandChangesOnlyPhaseAndFcode :
    State.reset.phase ≠ .fault ∧
    step { State.reset with pending := [.write 0x000 4 0] } = .next
      { State.reset with resp := .ack, phase := .fault, fcode := .illegalCommand } :=
  ⟨by decide, rfl⟩

theorem witness_FaultIsSticky :
    faulted.phase = .fault ∧
    step { faulted with pending := [.reset] } = .next (takeReset faulted) ∧
    (takeReset faulted).phase ≠ .fault ∧
    (∃ t, step { faulted with pending := [.read 0x100 4] } = .next t) ∧
    (∃ t, step { faulted with pending := [.write 0x1A7 1 0xFF] } = .next t) :=
  ⟨rfl, rfl, by simp [takeReset, State.afterReset], ⟨_, step_event _ faulted []⟩,
    ⟨_, step_event _ faulted []⟩⟩

theorem witness_FaultPriority :
    (∃ t, step { faulted with pending := [.write 0x000 4 2] } = .next t) ∧
    decode 0x13 = .error .finalReservedBits ∧ decode 0xD1 = .ok (.init 13) ∧
    decode 0xC1 = .ok (.init 12) ∧ decode 2 = .ok .block ∧ decode 0xC803 = .ok (.final 200) :=
  ⟨⟨_, step_event _ faulted []⟩, by decide⟩

theorem witness_CommandFrame :
    ∃ s t u v : State, exec .block s = .next t ∧ exec (.init 12) s = .next u ∧
      exec (.final 167) s = .next v :=
  ⟨absorbing (.sponge .shake128) 0 512, _, _, _, exec_eq_next _ _, exec_eq_next _ _,
    exec_eq_next _ _⟩

theorem witness_EnginesAreSeparate :
    (∃ t, exec (.init 0) State.reset = .next t ∧ ∃ v, t.var = .md v) ∧
    (∃ t, exec (.init 7) State.reset = .next t ∧ ∃ v, t.var = .sponge v) :=
  ⟨⟨_, exec_eq_next _ _, .sha1, by decide +kernel⟩,
    ⟨_, exec_eq_next _ _, .sha3_224, by decide +kernel⟩⟩

/-- The phase a step on one event ends in. -/
def phaseAfter (e : HostEvent) (s : State) : Phase := (eventEffect e s).phase

theorem witness_PhaseMoves :
    (∃ t, step { finished with pending := [.reset] } = .next t ∧ finished.phase ≠ t.phase ∧
      t.phase = .idle) ∧
    (∃ t, step { State.reset with pending := [.write 0x000 4 1] } = .next t ∧ t.phase = .absorb) ∧
    (∃ t, step { absorbing (.md .sha1) 0 20 with pending := [.write 0x000 4 3] } = .next t ∧
      t.phase = .done) ∧
    (∃ t, step { State.reset with pending := [.write 0x000 4 2] } = .next t ∧ t.phase = .fault) :=
  ⟨⟨_, step_event _ finished [], by decide, rfl⟩,
    ⟨_, step_event _ State.reset [], by decide +kernel⟩,
    ⟨_, step_event _ (absorbing (.md .sha1) 0 20) [], by decide +kernel⟩,
    ⟨_, step_event _ State.reset [], by decide +kernel⟩⟩

theorem witness_RegisterWriters :
    (∃ t, step { finished with pending := [.write 0x000 4 0x71] } = .next t ∧
      t.var ≠ finished.var ∧ t.dlen ≠ finished.dlen) ∧
    (∃ t, step { absorbing (.md .sha1) 0 20 with pending := [.write 0x000 4 0x303] } = .next t ∧
      t.len ≠ 0) ∧
    (∃ t, step { faulted with pending := [.write 0x008 4 8] } = .next t ∧ t.outbits ≠ 0) ∧
    (∃ t, step { faulted with pending := [.write 0x1A7 1 8] } = .next t ∧
      t.blk ≠ faulted.blk) :=
  ⟨⟨_, step_event _ finished [], by decide +kernel, by decide +kernel⟩,
    ⟨_, step_event _ (absorbing (.md .sha1) 0 20) [], by decide +kernel⟩,
    ⟨_, step_event _ faulted [], by decide +kernel⟩,
    ⟨_, step_event _ faulted [], by decide +kernel⟩⟩

theorem witness_CommandsReadOnlyTheirBytes :
    ∃ (s : State) (b : Vector Byte 168), b ≠ s.blk ∧
      (∀ i : Fin 168, i.val < s.var.blockBytes → b[i] = s.blk[i]) ∧
      (∀ i : Fin 168, i.val < (63 : Byte).toNat → b[i] = s.blk[i]) ∧
      (∃ t, exec .block s = .next t) ∧ ∃ t, exec (.final 63) s = .next t :=
  ⟨absorbing (.md .sha1) 0 20, (Vector.replicate 168 0).set 64 1, by decide +kernel,
    by decide +kernel, by decide +kernel, ⟨_, exec_eq_next _ _⟩, ⟨_, exec_eq_next _ _⟩⟩

theorem witness_LaterOutbitsHaveNoEffect :
    (∀ var, Instr.block ≠ .init var) ∧ (∀ var, Instr.final 255 ≠ .init var) ∧
    ∃ t, exec .block (absorbing (.sponge .shake128) 0 200) = .next t :=
  ⟨by simp, by simp, _, exec_eq_next _ _⟩

theorem witness_VariantTable : 12 < 13 := by decide

theorem witness_UnadmittedAccessIsBusError :
    admitted 0x00C 4 = false ∧ admitted 0x1A8 1 = false ∧ admitted 0x400 4 = false ∧
    admitted 0x102 4 = false ∧ admitted 0x100 2 = false := by decide

theorem witness_WritesStoreOrRefuse :
    decode 1 = .ok (.init 0) ∧ decode 0 = .error .reservedOp ∧ admitted 0x004 4 = true ∧
    admitted 0x010 4 = true ∧ admitted 0x014 4 = true ∧ admitted 0x200 1 = true ∧
    admitted 0x3FC 4 = true := by decide

theorem witness_WordWriteIsFourByteWrites :
    ∃ t, step { State.reset with pending := [.write 0x1A4 4 0x01020304] } = .next t :=
  ⟨_, step_event _ State.reset []⟩

theorem witness_LoadByWordsIsLoadByBytes :
    0 < (zeros 4).length ∧ (zeros 168).length ≤ 168 ∧ (zeros 168).length % 4 = 0 := by
  simp

theorem witness_HostCannotObserveEngines_command :
    ∃ s t : State, s ≠ t ∧ sameButEngines s t ∧
      (∃ s', step { s with pending := [.write 0x000 4 0x303] } = .next s') ∧
      ∃ t', step { t with pending := [.write 0x000 4 0x303] } = .next t' :=
  ⟨State.reset, { State.reset with h := mdIv .sha512 }, by decide +kernel, rfl,
    ⟨_, step_event _ State.reset []⟩, ⟨_, step_event _ { State.reset with h := mdIv .sha512 } []⟩⟩

theorem witness_HostCannotObserveEngines :
    ∃ s t : State, s ≠ t ∧ sameButEngines s t ∧ (∀ w, HostEvent.read 0x004 4 ≠ .write 0x000 4 w) ∧
      HostEvent.read 0x004 4 ≠ .reset ∧
      (∃ s', step { s with pending := [.read 0x004 4] } = .next s') ∧
      ∃ t', step { t with pending := [.read 0x004 4] } = .next t' :=
  ⟨State.reset, { State.reset with h := mdIv .sha512 }, by decide +kernel, rfl, by simp, by simp,
    ⟨_, step_event _ State.reset []⟩, ⟨_, step_event _ { State.reset with h := mdIv .sha512 } []⟩⟩

theorem witness_WindowStandsAtItsBase :
    (0x3FF : Nat) < 0x400 ∧ windowOffset (Config.windowBase + 0x3FF) = some 0x3FF := by
  have h : Config.windowBytes = 0x400 := rfl
  refine ⟨by decide, ?_⟩
  rw [windowOffset, if_pos (by omega), Nat.add_sub_cancel_left]

theorem finished_inv : finished.Inv := by
  constructor <;> simp [finished, State.reset, State.afterReset, State.computing,
    Config.maxMsgBytes, Config.maxXofBytes, Variant.isShake, Variant.digestBytes,
    MdVariant.digestBytes]

theorem absorbing_inv : (absorbing (.sponge .shake128) 0 512).Inv := by
  constructor <;> simp [absorbing, State.reset, State.afterReset, State.computing,
    Config.maxMsgBytes, Config.maxXofBytes, Variant.isShake, SpongeVariant.isShake]

theorem witness_StepKeepsInv : finished.Inv ∧ step finished = .next finished :=
  ⟨finished_inv, rfl⟩

theorem witness_HostProcedureComputesHash :
    State.reset.phase ≠ .fault ∧ ([] : List Byte).length ≤ 2 ^ 61 - 1 ∧
    (∃ m : List Byte, m.length = 2 ^ 61 - 1) ∧
    ((Variant.sponge .shake128).isShake = true →
      (4096#32).toNat % 8 = 0 ∧ (4096#32).toNat ≤ 4096) :=
  ⟨by decide, Nat.zero_le _, ⟨_, List.length_replicate (a := 0)⟩, by decide⟩

theorem witness_HostProcedureReportsFault :
    faulted.phase = .fault ∧ State.reset.phase ≠ .fault ∧
    (Variant.sponge .shake128).isShake = true ∧ (4097#32).toNat % 8 ≠ 0 ∧ 4096 < (4104#32).toNat ∧
    ((Variant.md .sha1).isShake = true → (0#32).toNat % 8 = 0 ∧ (0#32).toNat ≤ 4096) ∧
    (∃ m : List Byte, m.length = 2 ^ 61) :=
  ⟨rfl, by decide, rfl, by decide, by decide, by decide, _, List.length_replicate (a := 0)⟩

theorem witness_HashLineReadsDlenBytes :
    State.reset.phase ≠ .fault ∧ faulted.phase = .fault ∧
    ((Variant.sponge .shake128).isShake = true → (4096#32).toNat % 8 = 0 ∧ (4096#32).toNat ≤ 4096) ∧
    ¬ ((Variant.sponge .shake128).isShake = true → (8000#32).toNat % 8 = 0 ∧ (8000#32).toNat ≤ 4096) ∧
    (∃ m : List Byte, m.length = 2 ^ 61 - 1) ∧ ∃ m : List Byte, m.length = 2 ^ 61 :=
  ⟨by decide, rfl, by decide, by decide, ⟨_, List.length_replicate (a := 0)⟩,
    _, List.length_replicate (a := 0)⟩

/-- R44, R103: HASH_SHAKE with 8000 bits is refused by INIT, so DLEN stays 0 and no byte is read. -/
theorem test_hash_line_refused_reads_nothing :
    lineAccesses State.reset (.hashShake (.sponge .shake128) [] 8000) =
      [.write 0x008 4 8000, .write 0x000 4 0xB1, .write 0x000 4 0x03, .read 0x004 4] := by
  decide +kernel

/-- R44: the operands of the lines INIT and FINAL at the ends of their ranges. -/
theorem test_line_operands :
    lineAccesses State.reset (.initNumber 15) = [.write 0x000 4 0xF1] ∧
    lineAccesses State.reset (.initName "SHA-512/256") = [.write 0x000 4 0x61] ∧
    lineAccesses State.reset (.final 255) = [.write 0x000 4 0xFF03] := by decide +kernel

theorem witness_ReadDigestReturnsDigest : finished.Inv ∧ 511 < 512 := ⟨finished_inv, by decide⟩

theorem witness_FinalBlocksShape :
    63 < MdVariant.sha1.blockBytes ∧ 127 < MdVariant.sha512.blockBytes ∧
    127 ≤ (zeros 168).length ∧ 0 < MdVariant.sha1.blockBytes ∧
    (needsExtraBlock .sha1 55 = false ∧ ¬ MdVariant.sha1.blockBytes < 55 + 1 + MdVariant.sha1.lengthBytes) ∧
    (needsExtraBlock .sha1 56 = true ∧ MdVariant.sha1.blockBytes < 56 + 1 + MdVariant.sha1.lengthBytes) ∧
    (needsExtraBlock .sha512 111 = false ∧
      ¬ MdVariant.sha512.blockBytes < 111 + 1 + MdVariant.sha512.lengthBytes) ∧
    (needsExtraBlock .sha512 112 = true ∧
      MdVariant.sha512.blockBytes < 112 + 1 + MdVariant.sha512.lengthBytes) :=
  ⟨by decide, by decide, by simp, by decide, by decide, by decide, by decide, by decide⟩

theorem witness_WordReadsAfterFinalReturnH :
    ∃ t, (absorbing (.md .sha1) 0 20).var = .md .sha1 ∧ MdVariant.sha1.wordBits = 32 ∧
      (absorbing (.md .sha1) 0 20).phase = .absorb ∧
      (absorbing (.md .sha1) 0 20).xofn.toNat = MdVariant.sha1.digestBytes ∧
      exec (.final 0) (absorbing (.md .sha1) 0 20) = .next t ∧ t.phase = .done ∧
      4 * (4 : Fin 8).val + 4 ≤ MdVariant.sha1.digestBytes :=
  ⟨_, rfl, rfl, rfl, by decide, exec_eq_next _ _, by decide +kernel, by decide +kernel⟩

theorem witness_BlockBoundaryCases :
    MdVariant.sha1.blockBytes = 64 ∧ (zeros 120).length = 120 ∧
    MdVariant.sha512.blockBytes = 128 ∧ (zeros 248).length = 248 :=
  ⟨rfl, by simp, rfl, by simp⟩

theorem witness_ScheduleExpandsBlock : (zeros 64).length = 64 ∧ (zeros 128).length = 128 := by simp

theorem witness_NarrowCompressionKeepsHighHalves :
    MdVariant.sha224.wordBits = 32 ∧ MdVariant.sha1.wordBits = 32 ∧
    (MdVariant.sha1 = .sha1 → (4 : Fin 8).val < 5) ∧
    (∀ i : Fin 8, i.val < 5 → (mdIv .sha1)[i] = ((mdIv .sha1).set 5 1)[i]) ∧
    mdIv .sha1 ≠ (mdIv .sha1).set 5 1 := by decide +kernel

theorem witness_RhoPiMovesLanes : (4 : Nat) < 5 ∧ (0 : Nat) < 5 := by decide

theorem witness_SqueezeEmitsExactlyN :
    168 ≤ SpongeVariant.shake128.rate ∧ 511 < 512 := by decide

theorem witness_ShorterDigestIsPrefix : (0 : Nat) ≤ 512 ∧ (169 : Nat) ≤ 512 := by decide

theorem witness_SpongePaddingBytes :
    (zeros 135).length = 135 ∧ 135 < SpongeVariant.sha3_256.rate ∧
    0 < SpongeVariant.sha3_256.rate := ⟨by simp, by decide, by decide⟩

theorem witness_WorkIsBounded :
    ∃ s : State, s.Inv ∧ (∃ t, exec (.init 0) s = .next t) ∧ (∃ t, exec .block s = .next t) ∧
      ∃ t, exec (.final 167) s = .next t ∧ t.phase = .done :=
  ⟨absorbing (.sponge .shake128) 0 512, absorbing_inv, ⟨_, exec_eq_next _ _⟩, ⟨_, exec_eq_next _ _⟩,
    _, exec_eq_next _ _, rfl⟩

theorem witness_PackingRoundTrips : (zeros 64).length % 4 = 0 ∧ (zeros 200).length % 8 = 0 := by
  simp

theorem witness_BooleanFunctionsBitByBit : 31 < 32 ∧ 63 < 64 := by decide

theorem witness_HexParsing :
    (0 < [(0xA9 : Byte)].length ∧ toHex [0xA9] = ['a', '9'] ∧ hexVal 'F' = some 15) ∧
    (∃ c ∈ ['a', 'z'], hexVal c = none) ∧ ∀ c ∈ ['0', '9', 'a', 'f', 'A', 'F'],
      (hexVal c).isSome := by
  refine ⟨by decide, ⟨'z', by simp, rfl⟩, fun c hc => ?_⟩
  simp only [List.mem_cons, List.not_mem_nil, or_false] at hc
  rcases hc with rfl | rfl | rfl | rfl | rfl | rfl <;> rfl

theorem witness_DigestEqualityAndOrder :
    digestLess [] [0] = true ∧ digestLess [0] [0, 1] = true ∧ ([0] : List Byte) ≠ [0, 1] ∧
    ([1] : List Byte) ≠ [] ∧ (0 : Byte).toNat < (255 : Byte).toNat := by decide

end Sys2Proof.Tests.Slice0
end

section
/-! What one compression makes of H, and the shape every Merkle–Damgård command keeps it in (R9, R70, R78). -/

namespace Sys2Proof.Machine

theorem setWidth64_toNat_lt (x : Word32) : (x.setWidth 64).toNat < 2 ^ 32 := by
  rw [BitVec.toNat_setWidth_of_le (by decide)]
  exact x.isLt

/-- SHA-1 zero-extends the words it writes, H[0..4] (R70). -/
theorem sha1Compress_narrow (h : Chain) (blk : List Byte) (i : Fin 8) (hi : i.val < 5) :
    (sha1Compress h blk)[i].toNat < 2 ^ 32 := by
  match i, hi with
  | 0, _ | 1, _ | 2, _ | 3, _ | 4, _ => exact setWidth64_toNat_lt _

/-- SHA-1 leaves H[5..7] as they are (R70). -/
theorem sha1Compress_unused (h : Chain) (blk : List Byte) (i : Fin 8) (hi : 5 ≤ i.val) :
    (sha1Compress h blk)[i] = h[i] := by
  match i, hi with
  | 5, _ | 6, _ | 7, _ => rfl

/-- The 32-bit SHA-2 core zero-extends every word it writes (R78). -/
theorem sha2Compress32_narrow (h : Chain) (blk : List Byte) (i : Fin 8) :
    (sha2Compress sha2Core32 h blk)[i].toNat < 2 ^ 32 := by
  match i with
  | 0 | 1 | 2 | 3 | 4 | 5 | 6 | 7 => exact setWidth64_toNat_lt _

/-- SHA-1 loads its working variables from H[0..4] only (R70). -/
theorem sha1Load_congr {h h' : Chain} (heq : ∀ i : Fin 8, i.val < 5 → h[i] = h'[i]) :
    sha1Load h = sha1Load h' := by
  have h0 : h[0] = h'[0] := heq 0 (by decide)
  have h1 : h[1] = h'[1] := heq 1 (by decide)
  have h2 : h[2] = h'[2] := heq 2 (by decide)
  have h3 : h[3] = h'[3] := heq 3 (by decide)
  have h4 : h[4] = h'[4] := heq 4 (by decide)
  rw [sha1Load, h0, h1, h2, h3, h4, ← sha1Load]

/-- The end of the SHA-1 compression: the working variables are added to H[0..4] (R70). -/
def sha1AddVars (h : Chain) (v : Sha1Vars) : Chain :=
  #v[(low32 h[0] + v.a).setWidth 64, (low32 h[1] + v.b).setWidth 64,
    (low32 h[2] + v.c).setWidth 64, (low32 h[3] + v.d).setWidth 64,
    (low32 h[4] + v.e).setWidth 64, h[5], h[6], h[7]]

theorem sha1Compress_eq (h : Chain) (blk : List Byte) :
    sha1Compress h blk = sha1AddVars h (sha1Rounds (sha1Schedule blk) (sha1Load h)) := rfl

theorem sha1AddVars_congr {h h' : Chain} (v : Sha1Vars) (i : Fin 8) (hi : i.val < 5)
    (heq : h[i] = h'[i]) : (sha1AddVars h v)[i] = (sha1AddVars h' v)[i] := by
  match i, hi with
  | 0, _ | 1, _ | 2, _ | 3, _ | 4, _ => exact congrArg (fun x => (low32 x + _).setWidth 64) heq

/-- The words SHA-1 writes depend on H[0..4] only (R70). -/
theorem sha1Compress_congr {h h' : Chain} (heq : ∀ i : Fin 8, i.val < 5 → h[i] = h'[i])
    (blk : List Byte) (i : Fin 8) (hi : i.val < 5) :
    (sha1Compress h blk)[i] = (sha1Compress h' blk)[i] := by
  rw [sha1Compress_eq, sha1Compress_eq, sha1Load_congr heq]
  exact sha1AddVars_congr _ i hi (heq i hi)

/-- A W = 32 compression zero-extends every word it writes (R9, R78). -/
theorem compress_narrow {v : MdVariant} (hv : v.wordBits = 32) (h : Chain) (blk : List Byte)
    (i : Fin 8) (hi : v = .sha1 → i.val < 5) : (compress v h blk)[i].toNat < 2 ^ 32 := by
  cases v with
  | sha1 => exact sha1Compress_narrow h blk i (hi rfl)
  | sha224 | sha256 => exact sha2Compress32_narrow h blk i
  | sha384 | sha512 | sha512t224 | sha512t256 => exact absurd hv (by decide)

/-- H as a computation of the variant keeps it: 32-bit words for W = 32, and zeros in the registers
SHA-1 does not use (R9). -/
structure ChainFits (v : MdVariant) (h : Chain) : Prop where
  narrow : v.wordBits = 32 → ∀ i : Fin 8, h[i].toNat < 2 ^ 32
  unused : v = .sha1 → h[5] = 0 ∧ h[6] = 0 ∧ h[7] = 0

theorem mdIv_fits (v : MdVariant) : ChainFits v (mdIv v) where
  narrow := by cases v <;> decide
  unused := by rintro rfl; decide

theorem compress_fits {v : MdVariant} {h : Chain} (hh : ChainFits v h) (blk : List Byte) :
    ChainFits v (compress v h blk) where
  narrow hv i := by
    by_cases hi : v = .sha1 ∧ 5 ≤ i.val
    · obtain ⟨rfl, hi⟩ := hi
      rw [show (compress .sha1 h blk)[i] = h[i] from sha1Compress_unused h blk i hi]
      exact hh.narrow hv i
    · exact compress_narrow hv h blk i fun h1 => by
        by_contra h2
        exact hi ⟨h1, not_lt.1 h2⟩
  unused := by rintro rfl; exact hh.unused rfl

theorem mdFinal_fits {v : MdVariant} {h : Chain} (hh : ChainFits v h) (buf : List Byte)
    (lst total : Nat) : ChainFits v (mdFinal v h buf lst total).1 := by
  show ChainFits v ((mdFinalBlocks v buf lst total).foldl (compress v) h)
  induction mdFinalBlocks v buf lst total generalizing h with
  | nil => exact hh
  | cons b bs ih => exact ih (compress_fits hh b)

/-- Settles O43: what the 32-bit cores write is zero-extended, and SHA-1 stops at H[4]. -/
theorem narrowCompressionKeepsHighHalves : Obligations.NarrowCompressionKeepsHighHalves :=
  ⟨fun _ h blk i hv hi => compress_narrow hv h blk i hi,
    fun h _ blk heq => ⟨sha1Compress_unused h blk, sha1Compress_congr heq blk⟩⟩

end Sys2Proof.Machine
end

section
/-! A command is a check, then its writes (R113), and a change of the state that the check does not see. -/

namespace Sys2Proof.Machine

/-- The fault code with which a command is refused outside FAULT, none where its checks pass. -/
def commandCheck (i : Instr) (s : State) : Option FaultCode :=
  match i with
  | .init var =>
    match initVariant var with
    | none => some .unsupportedVariant
    | some v => if v.isShake && badOutbits s.outbits then some .badArgument else none
  | .block =>
    if s.phase ≠ .absorb then some .sequenceError
    else if lengthOverflows s s.var.blockBytes then some .lengthOverflow
    else none
  | .final lst =>
    if s.phase ≠ .absorb then some .sequenceError
    else if s.var.blockBytes ≤ lst.toNat then some .badArgument
    else if lengthOverflows s lst.toNat then some .lengthOverflow
    else none

/-- The state writes of a command whose checks pass. -/
def commandWrites (i : Instr) (s : State) : State :=
  match i with
  | .init var => (initVariant var).elim s fun v => startComputation v s
  | .block => consumeBlock s
  | .final lst => finishComputation lst.toNat { s with len := s.len + lst.setWidth 64 }

theorem commandWrites_init (var : Byte) (s : State) :
    commandWrites (.init var) s = (initVariant var).elim s fun v => startComputation v s := rfl

/-- "Every check precedes every write" (R113). -/
theorem commandEffect_eq (i : Instr) (s : State) :
    commandEffect i s = (commandCheck i s).elim (commandWrites i s) fun c => raiseFault c s := by
  cases i with
  | init var =>
    simp only [commandEffect, initEffect, commandCheck, commandWrites]
    cases initVariant var with
    | none => rfl
    | some v => simp only; split_ifs <;> rfl
  | block =>
    simp only [commandEffect, blockEffect, commandCheck, commandWrites]
    split_ifs <;> rfl
  | final lst =>
    simp only [commandEffect, finalEffect, commandCheck, commandWrites]
    split_ifs <;> rfl

/-- The checks read PHASE, VAR and LEN, and those of INIT also OUTBITS. -/
theorem commandCheck_congr {i : Instr} {s t : State} (hp : t.phase = s.phase)
    (hv : t.var = s.var) (hl : t.len = s.len) (ho : (∃ var, i = .init var) → t.outbits = s.outbits) :
    commandCheck i t = commandCheck i s := by
  cases i with
  | init var => simp only [commandCheck, ho ⟨var, rfl⟩]
  | block => simp only [commandCheck, hp, hv, lengthOverflows_congr hl]
  | final lst => simp only [commandCheck, hp, hv, lengthOverflows_congr hl]

/-- `f` changes a part of the state that neither the checks of `i` nor fault entry look at. -/
structure OutsideChecks (i : Instr) (f : State → State) : Prop where
  phase : ∀ s, (f s).phase = s.phase
  check : ∀ s, commandCheck i (f s) = commandCheck i s
  fault : ∀ c s, raiseFault c (f s) = f (raiseFault c s)

/-- A change outside the checks commutes with a command where it commutes with the command's own
writes. -/
theorem exec_commutes {i : Instr} {f : State → State} (hf : OutsideChecks i f) {s t : State}
    (h : exec i s = .next t)
    (hw : t = commandWrites i s → commandWrites i (f s) = f (commandWrites i s)) :
    exec i (f s) = .next (f t) := by
  have ht := eq_of_exec h
  rw [exec_eq_next]
  congr 1
  by_cases hp : s.phase = .fault
  · rw [unlessFault_fault hp] at ht
    rw [unlessFault_fault ((hf.phase s).trans hp), ht]
  · rw [unlessFault_ok hp, commandEffect_eq] at ht
    rw [unlessFault_ok (by rwa [hf.phase]), commandEffect_eq, hf.check]
    cases hc : commandCheck i s with
    | none =>
      rw [hc] at ht
      subst ht
      exact hw rfl
    | some c =>
      rw [hc] at ht
      subst ht
      exact hf.fault c s

end Sys2Proof.Machine
end

section
/-! What BLOCK and FINAL leave, the frame of every command and of a write of CMD (R14 to R20, R104, R105). -/

namespace Sys2Proof.Machine

@[simp] theorem consumeBlock_phase (s : State) : (consumeBlock s).phase = s.phase := by
  unfold consumeBlock; split <;> rfl
@[simp] theorem consumeBlock_var (s : State) : (consumeBlock s).var = s.var := by
  unfold consumeBlock; split <;> rfl
@[simp] theorem consumeBlock_fcode (s : State) : (consumeBlock s).fcode = s.fcode := by
  unfold consumeBlock; split <;> rfl
@[simp] theorem consumeBlock_dlen (s : State) : (consumeBlock s).dlen = s.dlen := by
  unfold consumeBlock; split <;> rfl
@[simp] theorem consumeBlock_outbits (s : State) : (consumeBlock s).outbits = s.outbits := by
  unfold consumeBlock; split <;> rfl
@[simp] theorem consumeBlock_blk (s : State) : (consumeBlock s).blk = s.blk := by
  unfold consumeBlock; split <;> rfl
@[simp] theorem consumeBlock_dout (s : State) : (consumeBlock s).dout = s.dout := by
  unfold consumeBlock; split <;> rfl
@[simp] theorem consumeBlock_pending_eq (s : State) : (consumeBlock s).pending = s.pending := by
  unfold consumeBlock; split <;> rfl
@[simp] theorem consumeBlock_resp (s : State) : (consumeBlock s).resp = s.resp := by
  unfold consumeBlock; split <;> rfl
@[simp] theorem consumeBlock_resets (s : State) : (consumeBlock s).resets = s.resets := by
  unfold consumeBlock; split <;> rfl

@[simp] theorem finishComputation_phase (n : Nat) (s : State) :
    (finishComputation n s).phase = .done := by
  unfold finishComputation; split <;> rfl
@[simp] theorem finishComputation_var (n : Nat) (s : State) :
    (finishComputation n s).var = s.var := by
  unfold finishComputation; split <;> rfl
@[simp] theorem finishComputation_fcode (n : Nat) (s : State) :
    (finishComputation n s).fcode = s.fcode := by
  unfold finishComputation; split <;> rfl
@[simp] theorem finishComputation_outbits (n : Nat) (s : State) :
    (finishComputation n s).outbits = s.outbits := by
  unfold finishComputation; split <;> rfl
@[simp] theorem finishComputation_blk (n : Nat) (s : State) :
    (finishComputation n s).blk = s.blk := by
  unfold finishComputation; split <;> rfl
@[simp] theorem finishComputation_pending_eq (n : Nat) (s : State) :
    (finishComputation n s).pending = s.pending := by
  unfold finishComputation; split <;> rfl
@[simp] theorem finishComputation_resp (n : Nat) (s : State) :
    (finishComputation n s).resp = s.resp := by
  unfold finishComputation; split <;> rfl
@[simp] theorem finishComputation_resets (n : Nat) (s : State) :
    (finishComputation n s).resets = s.resets := by
  unfold finishComputation; split <;> rfl

/-- FINAL writes DOUT[0..XOFN) only (R105). -/
theorem finishComputation_dout_tail (n : Nat) (s : State) (i : Nat) (hi : s.xofn.toNat ≤ i) :
    (finishComputation n s).dout[i]? = s.dout[i]? := by
  obtain ⟨h, sp, d, he, -, -⟩ := finishComputation_frame n s
  rw [he]
  by_cases h512 : i < 512
  · rw [Vector.getElem?_eq_getElem h512, Vector.getElem?_eq_getElem h512, writeDigest_getElem,
      if_neg (by omega)]
  · rw [Vector.getElem?_eq_none (by omega), Vector.getElem?_eq_none (by omega)]

/-- The registers that no command writes, and FCODE outside fault entry. -/
structure CommandKeeps (s t : State) : Prop where
  outbits : t.outbits = s.outbits
  blk : t.blk = s.blk
  pending : t.pending = s.pending
  resp : t.resp = s.resp
  resets : t.resets = s.resets
  fcode : t.phase ≠ .fault → t.fcode = s.fcode

theorem exec_keeps {i : Instr} {s t : State} (h : exec i s = .next t) : CommandKeeps s t := by
  rcases exec_cases h with ⟨-, rfl⟩ | ⟨-, c, -, rfl⟩ | ⟨-, var, v, -, -, -, rfl⟩ |
    ⟨-, -, -, rfl⟩ | ⟨lst, -, -, -, -, rfl⟩
  · exact ⟨rfl, rfl, rfl, rfl, rfl, fun _ => rfl⟩
  · exact ⟨rfl, rfl, rfl, rfl, rfl, fun hp => absurd rfl hp⟩
  · exact ⟨rfl, rfl, rfl, rfl, rfl, fun _ => rfl⟩
  · constructor <;> simp
  · constructor <;> simp

/-- A word that is no command is ignored in FAULT and latches ILLEGAL_COMMAND otherwise (R102). -/
theorem illegalCommand_cases (s : State) :
    (s.phase = .fault ∧ illegalCommand s = s) ∨
    (s.phase ≠ .fault ∧ illegalCommand s = raiseFault .illegalCommand s) := by
  by_cases hp : s.phase = .fault
  · exact .inl ⟨hp, unlessFault_fault hp⟩
  · exact .inr ⟨hp, unlessFault_ok hp⟩

theorem illegalCommand_keeps (s : State) : CommandKeeps s (illegalCommand s) := by
  rcases illegalCommand_cases s with ⟨-, he⟩ | ⟨-, he⟩
  · rw [he]; exact ⟨rfl, rfl, rfl, rfl, rfl, fun _ => rfl⟩
  · rw [he]; exact ⟨rfl, rfl, rfl, rfl, rfl, fun hp => absurd rfl hp⟩

/-- A write of CMD takes the access off and acknowledges it; the command keeps what every command
keeps. -/
theorem step_write_cmd_keeps {s t : State} {w : Word32} {rest : List HostEvent}
    (h : step { s with pending := .write 0x000 4 w :: rest } = .next t) :
    CommandKeeps { s with pending := rest, resp := .ack } t := by
  rw [step_write_cmd] at h
  cases hd : decode w with
  | ok i => rw [hd] at h; exact exec_keeps h
  | error e => rw [hd] at h; cases h; exact illegalCommand_keeps _

/-- Below DOUT and from its byte `n` on the window reads alike where BLK and those bytes do. -/
theorem windowByte_tail {s t : State} (hblk : t.blk = s.blk) {n : Nat}
    (hd : ∀ i, n ≤ i → t.dout[i]? = s.dout[i]?) (a : Nat) (ha : a < 0x200 ∨ 0x200 + n ≤ a) :
    windowByte t a = windowByte s a := by
  unfold windowByte
  rw [hblk]
  cases hr : regionOf a with
  | dout =>
    have := (regionOf_dout_iff a).1 hr
    exact hd _ (by omega)
  | cmd | status | outbits | lenLo | lenHi | blk | reserved => rfl

/-- BLOCK leaves DOUT (R20). -/
theorem execBlock_dout {s t : State} (h : exec .block s = .next t) : t.dout = s.dout := by
  rcases exec_cases h with ⟨-, rfl⟩ | ⟨-, c, -, rfl⟩ | ⟨-, _, _, hi, -⟩ | ⟨-, -, -, rfl⟩ | ⟨_, hi, -⟩
  · rfl
  · rfl
  · cases hi
  · exact consumeBlock_dout s
  · cases hi

/-- FINAL leaves DOUT from byte XOFN on (R20, R105). -/
theorem execFinal_dout_tail {lst : Byte} {s t : State} (h : exec (.final lst) s = .next t) (i : Nat)
    (hi : s.xofn.toNat ≤ i) : t.dout[i]? = s.dout[i]? := by
  rcases exec_cases h with ⟨-, rfl⟩ | ⟨-, c, -, rfl⟩ | ⟨-, _, _, hf, -⟩ | ⟨hf, -⟩ |
    ⟨_, -, -, -, -, rfl⟩
  · rfl
  · rfl
  · cases hf
  · cases hf
  · exact finishComputation_dout_tail _ _ i hi

/-- Settles O14: the frame of `exec`, and the window bytes through BLK and DOUT. -/
theorem commandFrame : Obligations.CommandFrame := by
  intro i s t h
  have hk := exec_keeps h
  refine ⟨hk.outbits, hk.blk, hk.pending, hk.resp, hk.resets, hk.fcode, fun a => ?_⟩
  cases i with
  | init var => exact windowByte_out hk.blk a
  | block => exact windowByte_congr hk.blk (execBlock_dout h) a
  | final lst => exact windowByte_tail hk.blk (execFinal_dout_tail h) a

/-- Settles O5: the write is the next event, and CMD hands its word to `exec`. -/
theorem stepPerformsDecodedCommand : Obligations.StepPerformsDecodedCommand := by
  intro s w i rest hd hp
  rw [step_of_pending hp, step_write_cmd, hd]

end Sys2Proof.Machine
end

section
/-! What a command does not read: the other engine's state and, after INIT, OUTBITS (R9, R10, R15). -/

namespace Sys2Proof.Machine

/-- `s` with other contents of S. -/
def setSponge (x : SpongeBytes) (s : State) : State := { s with sponge := x }

/-- `s` with other contents of H. -/
def setH (x : Chain) (s : State) : State := { s with h := x }

/-- `s` with another OUTBITS. -/
def setOutbits (o : Word32) (s : State) : State := { s with outbits := o }

theorem setSponge_outside (i : Instr) (x : SpongeBytes) : OutsideChecks i (setSponge x) :=
  ⟨fun _ => rfl, fun _ => commandCheck_congr rfl rfl rfl fun _ => rfl, fun _ _ => rfl⟩

theorem setH_outside (i : Instr) (x : Chain) : OutsideChecks i (setH x) :=
  ⟨fun _ => rfl, fun _ => commandCheck_congr rfl rfl rfl fun _ => rfl, fun _ _ => rfl⟩

theorem setOutbits_outside {i : Instr} (hi : ∀ var, i ≠ .init var) (o : Word32) :
    OutsideChecks i (setOutbits o) :=
  ⟨fun _ => rfl, fun _ => commandCheck_congr rfl rfl rfl fun ⟨var, h⟩ => absurd h (hi var),
    fun _ _ => rfl⟩

theorem consumeBlock_setSponge {v : MdVariant} {s : State} (hv : s.var = .md v)
    (x : SpongeBytes) : consumeBlock (setSponge x s) = setSponge x (consumeBlock s) := by
  rw [consumeBlock_md hv, consumeBlock_md (s := setSponge x s) hv]; rfl

theorem finishComputation_setSponge {v : MdVariant} {s : State} (hv : s.var = .md v) (n : Nat)
    (x : SpongeBytes) :
    finishComputation n (setSponge x s) = setSponge x (finishComputation n s) := by
  rw [finishComputation_md hv, finishComputation_md (s := setSponge x s) hv]; rfl

theorem consumeBlock_setH {v : SpongeVariant} {s : State} (hv : s.var = .sponge v) (x : Chain) :
    consumeBlock (setH x s) = setH x (consumeBlock s) := by
  rw [consumeBlock_sponge hv, consumeBlock_sponge (s := setH x s) hv]; rfl

theorem finishComputation_setH {v : SpongeVariant} {s : State} (hv : s.var = .sponge v) (n : Nat)
    (x : Chain) : finishComputation n (setH x s) = setH x (finishComputation n s) := by
  rw [finishComputation_sponge hv, finishComputation_sponge (s := setH x s) hv]; rfl

theorem consumeBlock_setOutbits (o : Word32) (s : State) :
    consumeBlock (setOutbits o s) = setOutbits o (consumeBlock s) := by
  obtain ⟨v, hv⟩ | ⟨v, hv⟩ := var_cases s
  · rw [consumeBlock_md hv, consumeBlock_md (s := setOutbits o s) hv]; rfl
  · rw [consumeBlock_sponge hv, consumeBlock_sponge (s := setOutbits o s) hv]; rfl

theorem finishComputation_setOutbits (o : Word32) (n : Nat) (s : State) :
    finishComputation n (setOutbits o s) = setOutbits o (finishComputation n s) := by
  obtain ⟨v, hv⟩ | ⟨v, hv⟩ := var_cases s
  · rw [finishComputation_md hv, finishComputation_md (s := setOutbits o s) hv]; rfl
  · rw [finishComputation_sponge hv, finishComputation_sponge (s := setOutbits o s) hv]; rfl

/-- BLOCK and FINAL do not read OUTBITS (R15). -/
theorem commandWrites_setOutbits {i : Instr} (hi : ∀ var, i ≠ .init var) (o : Word32) (s : State) :
    commandWrites i (setOutbits o s) = setOutbits o (commandWrites i s) := by
  cases i with
  | init var => exact absurd rfl (hi var)
  | block => exact consumeBlock_setOutbits o s
  | final lst =>
    exact finishComputation_setOutbits o lst.toNat { s with len := s.len + lst.setWidth 64 }

/-- A command of a Merkle–Damgård variant does not read S (R10). -/
theorem commandWrites_setSponge {i : Instr} {s : State} {v : MdVariant}
    (hv : (commandWrites i s).var = .md v) (x : SpongeBytes) :
    commandWrites i (setSponge x s) = setSponge x (commandWrites i s) := by
  cases i with
  | init var =>
    rw [commandWrites_init] at hv ⊢
    rw [commandWrites_init]
    generalize initVariant var = choice at hv ⊢
    cases choice with
    | none => rfl
    | some w =>
      obtain rfl : w = .md v := hv
      rfl
  | block => exact consumeBlock_setSponge ((consumeBlock_var s).symm.trans hv) x
  | final lst =>
    exact finishComputation_setSponge ((finishComputation_var lst.toNat _).symm.trans hv) _ x

/-- A command of a sponge variant does not read H (R9). -/
theorem commandWrites_setH {i : Instr} {s : State} {v : SpongeVariant}
    (hv : (commandWrites i s).var = .sponge v) (x : Chain) :
    commandWrites i (setH x s) = setH x (commandWrites i s) := by
  cases i with
  | init var =>
    rw [commandWrites_init] at hv ⊢
    rw [commandWrites_init]
    generalize initVariant var = choice at hv ⊢
    cases choice with
    | none => rfl
    | some w =>
      obtain rfl : w = .sponge v := hv
      rfl
  | block => exact consumeBlock_setH ((consumeBlock_var s).symm.trans hv) x
  | final lst =>
    exact finishComputation_setH ((finishComputation_var lst.toNat _).symm.trans hv) _ x

/-- A command leaves the state of the engine that the latched variant does not use (R9, R10). -/
theorem exec_keeps_other_engine {i : Instr} {s t : State} (h : exec i s = .next t) :
    (∀ v, t.var = .md v → t.sponge = s.sponge) ∧ (∀ v, t.var = .sponge v → t.h = s.h) := by
  rcases exec_cases h with ⟨-, rfl⟩ | ⟨-, c, -, rfl⟩ | ⟨-, var, w, -, -, -, rfl⟩ |
    ⟨-, -, -, rfl⟩ | ⟨lst, -, -, -, -, rfl⟩
  · exact ⟨fun _ _ => rfl, fun _ _ => rfl⟩
  · exact ⟨fun _ _ => rfl, fun _ _ => rfl⟩
  · constructor <;> rintro v rfl <;> rfl
  · obtain ⟨h, sp, he, hsp, hh⟩ := consumeBlock_frame s
    rw [he]
    exact ⟨hsp, hh⟩
  · obtain ⟨h, sp, d, he, hsp, hh⟩ :=
      finishComputation_frame lst.toNat { s with len := s.len + BitVec.ofNat 64 lst.toNat }
    rw [he]
    exact ⟨hsp, hh⟩

/-- Settles O19: OUTBITS is neither checked nor read by BLOCK and FINAL. -/
theorem laterOutbitsHaveNoEffect : Obligations.LaterOutbitsHaveNoEffect := by
  intro i s t o hi h
  exact exec_commutes (setOutbits_outside hi o) h fun _ => commandWrites_setOutbits hi o s

/-- Settles O15: S is no part of a Merkle–Damgård command, H none of a sponge command. -/
theorem enginesAreSeparate : Obligations.EnginesAreSeparate := by
  refine ⟨fun i s t => exec_keeps_other_engine, ?_, ?_⟩
  · rintro i s t x h ⟨v, hv⟩
    exact exec_commutes (setSponge_outside i x) h fun hw => commandWrites_setSponge (hw ▸ hv) x
  · rintro i s t x h ⟨v, hv⟩
    exact exec_commutes (setH_outside i x) h fun hw => commandWrites_setH (hw ▸ hv) x

end Sys2Proof.Machine
end

section
/-! What a step does to PHASE and to the registers of the computation (R14). -/

namespace Sys2Proof.Machine

/-- The host's next access writes a word to CMD that decodes to `i`, outside FAULT. -/
def CommandAt (s : State) (i : Instr) : Prop :=
  s.phase ≠ .fault ∧ ∃ w, s.pending.head? = some (.write 0x000 4 w) ∧ decode w = .ok i

/-- The registers of the computation the host can read stand: VAR, LEN, DOUT and DLEN. -/
structure ComputationStands (s t : State) : Prop where
  var : t.var = s.var
  len : t.len = s.len
  dout : t.dout = s.dout
  dlen : t.dlen = s.dlen

/-- What a step from `s` to `t` does to PHASE and to the computation (R14). -/
inductive StepMove (s t : State) : Prop where
  | reset (hr : s.pending.head? = some .reset) (ht : t.phase = .idle)
  | stays (hc : ComputationStands s t) (ht : t.phase = s.phase)
  | refused (hc : ComputationStands s t) (w : Word32)
      (hw : s.pending.head? = some (.write 0x000 4 w)) (ht : t.phase = .fault)
  | started (var : Byte) (hi : CommandAt s (.init var)) (ht : t.phase = .absorb)
  | consumed (hi : CommandAt s .block) (hs : s.phase = .absorb) (ht : t.phase = .absorb)
      (hv : t.var = s.var) (hd : t.dout = s.dout) (hl : t.dlen = s.dlen)
  | finished (lst : Byte) (hi : CommandAt s (.final lst)) (hs : s.phase = .absorb)
      (ht : t.phase = .done) (hv : t.var = s.var)

/-- The move of a command taken off the host's accesses. -/
theorem command_move {s t : State} {w : Word32} {rest : List HostEvent} {i : Instr}
    (hp : s.pending = .write 0x000 4 w :: rest) (hd : decode w = .ok i)
    (h : exec i { s with pending := rest, resp := .ack } = .next t) : StepMove s t := by
  have hw : s.pending.head? = some (.write 0x000 4 w) := by rw [hp]; rfl
  rcases exec_cases h with ⟨-, rfl⟩ | ⟨-, c, -, rfl⟩ | ⟨hs, var, v, rfl, -, -, rfl⟩ |
    ⟨rfl, hs, -, rfl⟩ | ⟨lst, rfl, hs, -, -, rfl⟩
  · exact .stays ⟨rfl, rfl, rfl, rfl⟩ rfl
  · exact .refused ⟨rfl, rfl, rfl, rfl⟩ w hw rfl
  · exact .started var ⟨hs, w, hw, hd⟩ rfl
  · have hs' : s.phase = .absorb := hs
    exact .consumed ⟨by simp [hs'], w, hw, hd⟩ hs' (by simpa using hs') (by simp) (by simp)
      (by simp)
  · have hs' : s.phase = .absorb := hs
    exact .finished lst ⟨by simp [hs'], w, hw, hd⟩ hs' (by simp) (by simp)

theorem step_move {s t : State} (h : step s = .next t) : StepMove s t := by
  rcases step_cases h with ⟨-, rfl⟩ | ⟨rest, hp, rfl⟩ | ⟨w, rest, i, hp, hd, hexec⟩ |
    ⟨w, rest, e, hp, -, rfl⟩ | ⟨e, rest, r, o, b, -, -, -, rfl⟩
  · exact .stays ⟨rfl, rfl, rfl, rfl⟩ rfl
  · exact .reset (by rw [hp]; rfl) rfl
  · exact command_move hp hd hexec
  · rcases illegalCommand_cases { s with pending := rest, resp := .ack } with ⟨-, he⟩ | ⟨-, he⟩
    · rw [he]; exact .stays ⟨rfl, rfl, rfl, rfl⟩ rfl
    · rw [he]; exact .refused ⟨rfl, rfl, rfl, rfl⟩ w (by rw [hp]; rfl) rfl
  · exact .stays ⟨rfl, rfl, rfl, rfl⟩ rfl

/-- Settles O16: each move of PHASE names the event behind it. -/
theorem phaseMoves : Obligations.PhaseMoves := by
  intro s t h hne
  cases step_move h with
  | reset hr ht => simp [ht, hr]
  | stays _ ht => exact absurd ht.symm hne
  | refused _ w hw ht => simp [ht, hw]
  | started var hi ht =>
    obtain ⟨hs, w, hw, hd⟩ := hi
    exact ⟨by simp [ht], fun _ => ⟨hs, w, var, hw, hd⟩, by simp [ht], by simp [ht]⟩
  | consumed _ hs ht => exact absurd (hs.trans ht.symm) hne
  | finished lst hi hs ht =>
    obtain ⟨-, w, hw, hd⟩ := hi
    exact ⟨by simp [ht], by simp [ht], fun _ => ⟨hs, w, lst, hw, hd⟩, by simp [ht]⟩

end Sys2Proof.Machine
end

section
/-! Who writes OUTBITS and BLK (R15, R19, R26), and with the moves of the computation who writes each register. -/

namespace Sys2Proof.Machine

theorem admitted_outbits {a n : Nat} (h : admitted a n = true) (hr : regionOf a = .outbits) :
    a = 0x008 ∧ n = 4 := by
  have ha := (regionOf_outbits_iff a).1 hr
  obtain rfl | rfl := admitted_width h
  · rw [admitted_byte_iff] at h; omega
  · rw [admitted_word_iff] at h; omega

theorem admitted_blk {a n : Nat} (h : admitted a n = true) (hr : regionOf a = .blk) :
    0x100 ≤ a ∧ a + n ≤ 0x1A8 := by
  have ha := (regionOf_blk_iff a).1 hr
  obtain rfl | rfl := admitted_width h
  · omega
  · rw [admitted_word_iff, hr, regionOf_blk_iff (a + 3)] at h
    omega

/-- What a store can change, with the accesses that change it: OUTBITS by a write of it, BLK by a
write inside it, and nothing otherwise. -/
theorem hostWrite_stores {s t : State} {a n : Nat} {v : Word32} (h : hostWrite s a n v = .done t) :
    (a = 0x008 ∧ n = 4 ∧ t.outbits = v ∧ t.blk = s.blk) ∨
    (0x100 ≤ a ∧ a + n ≤ 0x1A8 ∧ t.outbits = s.outbits) ∨
    (t.outbits = s.outbits ∧ t.blk = s.blk) := by
  unfold hostWrite at h
  by_cases hadm : admitted a n = true
  · rw [if_pos hadm] at h
    cases hr : regionOf a with
    | outbits =>
      obtain ⟨ha, hn⟩ := admitted_outbits hadm hr
      rw [hr] at h; cases h
      exact .inl ⟨ha, hn, rfl, rfl⟩
    | blk =>
      obtain ⟨hlo, hhi⟩ := admitted_blk hadm hr
      rw [hr] at h
      by_cases hn : n = 1
      · simp only [if_pos hn] at h; cases h; exact .inr (.inl ⟨hlo, hhi, rfl⟩)
      · simp only [if_neg hn] at h; cases h; exact .inr (.inl ⟨hlo, hhi, rfl⟩)
    | cmd => rw [hr] at h; cases h
    | status | lenLo | lenHi | dout | reserved => rw [hr] at h; cases h; exact .inr (.inr ⟨rfl, rfl⟩)
  · rw [if_neg hadm] at h; cases h; exact .inr (.inr ⟨rfl, rfl⟩)

/-- What a step other than a reset input does to OUTBITS and BLK (R15, R19). -/
inductive StepStore (s t : State) : Prop where
  | none (ho : t.outbits = s.outbits) (hb : t.blk = s.blk)
  | outbits (v : Word32) (hw : s.pending.head? = some (.write 0x008 4 v)) (ho : t.outbits = v)
      (hb : t.blk = s.blk)
  | blk (a n : Nat) (v : Word32) (hw : s.pending.head? = some (.write a n v)) (hlo : 0x100 ≤ a)
      (hhi : a + n ≤ 0x1A8) (ho : t.outbits = s.outbits)

theorem step_store {s t : State} (h : step s = .next t) (hr : s.pending.head? ≠ some .reset) :
    StepStore s t := by
  cases hp : s.pending with
  | nil => rw [step_idle s hp] at h; cases h; exact .none rfl rfl
  | cons e rest =>
    rw [step_of_pending hp] at h
    cases e with
    | reset => exact absurd (by rw [hp]; rfl) hr
    | read a n =>
      obtain ⟨r, he⟩ := hostRead_eq { s with pending := rest } a n
      rw [step_read, he] at h; cases h
      exact .none rfl rfl
    | write a n v =>
      have hw : s.pending.head? = some (.write a n v) := by rw [hp]; rfl
      cases ha : hostWrite { s with pending := rest } a n v with
      | done u =>
        rw [step_write, ha] at h; cases h
        rcases hostWrite_stores ha with ⟨rfl, rfl, ho, hb⟩ | ⟨hlo, hhi, ho⟩ | ⟨ho, hb⟩
        · exact .outbits v hw ho hb
        · exact .blk a n v hw hlo hhi ho
        · exact .none ho hb
      | command w u =>
        rcases hostWrite_cases { s with pending := rest } a n v with
          ⟨rfl, rfl, -⟩ | he | ⟨b, he⟩ | he
        · have hk := step_write_cmd_keeps h
          exact .none hk.outbits hk.blk
        all_goals rw [he] at ha; cases ha

/-- Settles O17: VAR, LEN and the digest by the moves of the computation, OUTBITS and BLK by the
stores. -/
theorem registerWriters : Obligations.RegisterWriters := by
  intro s t h hr commands
  have hstore := step_store h hr
  refine ⟨fun hne => ?_, fun hne => ?_, fun hne => ?_, fun hne => ?_, fun hne => ?_⟩
  · cases step_move h with
    | reset hr' => exact absurd hr' hr
    | stays hc | refused hc => exact absurd hc.var hne
    | started var hi => exact ⟨var, hi⟩
    | consumed _ _ _ hv | finished _ _ _ _ hv => exact absurd hv hne
  · cases step_move h with
    | reset hr' => exact absurd hr' hr
    | stays hc | refused hc => exact absurd hc.len hne
    | started var hi => exact .inl ⟨var, hi⟩
    | consumed hi hs => exact .inr ⟨hs, .inl hi⟩
    | finished lst hi hs => exact .inr ⟨hs, .inr ⟨lst, hi⟩⟩
  · cases step_move h with
    | reset hr' => exact absurd hr' hr
    | stays hc | refused hc => simp [hc.dout, hc.dlen] at hne
    | started var hi => exact .inl ⟨var, hi⟩
    | consumed _ _ _ _ hd hl => simp [hd, hl] at hne
    | finished lst hi hs => exact .inr ⟨hs, lst, hi⟩
  · cases hstore with
    | none ho | blk _ _ _ _ _ _ ho => exact absurd ho hne
    | outbits v hw ho => exact ⟨v, hw, ho⟩
  · cases hstore with
    | none _ hb | outbits _ _ _ hb => exact absurd hb hne
    | blk a n v hw hlo hhi => exact ⟨a, n, v, hw, hlo, hhi⟩

end Sys2Proof.Machine
end

section
/-! H and S behind the host window (R9, R10). -/

namespace Sys2Proof.Machine

/-- `s` with other contents of both engines. -/
def setEngines (h : Chain) (x : SpongeBytes) (s : State) : State := { s with h := h, sponge := x }

/-- An action on a state changed by `f`. -/
def HostAction.map (f : State → State) : HostAction → HostAction
  | .command w s => .command w (f s)
  | .done s => .done (f s)

theorem hostRead_setEngines (h : Chain) (x : SpongeBytes) (s : State) (a n : Nat) :
    hostRead (setEngines h x s) a n = setEngines h x (hostRead s a n) := by
  have hm : memRead (setEngines h x s) a n = memRead s a n := rfl
  unfold hostRead
  rw [hm]
  cases memRead s a n <;> rfl

theorem hostWrite_setEngines (h : Chain) (x : SpongeBytes) (s : State) (a n : Nat) (v : Word32) :
    hostWrite (setEngines h x s) a n v = (hostWrite s a n v).map (setEngines h x) := by
  unfold hostWrite
  by_cases hadm : admitted a n = true
  · rw [if_pos hadm, if_pos hadm]
    cases regionOf a with
    | blk => by_cases hn : n = 1 <;> simp only [hn, if_true, if_false] <;> rfl
    | cmd | status | outbits | lenLo | lenHi | dout | reserved => rfl
  · rw [if_neg hadm, if_neg hadm]; rfl

theorem hostEvent_setEngines {e : HostEvent} (hr : e ≠ .reset) (h : Chain) (x : SpongeBytes)
    (s : State) : hostEvent e (setEngines h x s) = (hostEvent e s).map (setEngines h x) := by
  cases e with
  | reset => exact absurd rfl hr
  | read a n => exact congrArg HostAction.done (hostRead_setEngines h x s a n)
  | write a n v => exact hostWrite_setEngines h x s a n v

theorem hostEvent_done {e : HostEvent} (hcmd : ∀ w, e ≠ .write 0x000 4 w) (s : State) :
    ∃ t, hostEvent e s = .done t := by
  cases e with
  | reset => exact ⟨_, rfl⟩
  | read a n => exact ⟨_, rfl⟩
  | write a n v =>
    rcases hostWrite_cases s a n v with ⟨rfl, rfl, -⟩ | hw | ⟨b, hw⟩ | hw
    · exact absurd rfl (hcmd v)
    all_goals exact ⟨_, hw⟩

theorem eventEffect_of_done {e : HostEvent} {s t : State} (h : hostEvent e s = .done t) :
    eventEffect e s = t := by
  rw [eventEffect, h]

/-- An access that is no command and no reset input acts alike whatever H and S hold. -/
theorem eventEffect_setEngines {e : HostEvent} (hcmd : ∀ w, e ≠ .write 0x000 4 w) (hr : e ≠ .reset)
    (h : Chain) (x : SpongeBytes) (s : State) :
    eventEffect e (setEngines h x s) = setEngines h x (eventEffect e s) := by
  obtain ⟨t, ht⟩ := hostEvent_done hcmd s
  have ht' : hostEvent e (setEngines h x s) = .done (setEngines h x t) := by
    rw [hostEvent_setEngines hr, ht, HostAction.map]
  rw [eventEffect_of_done ht, eventEffect_of_done ht']

theorem step_setEngines {s t : State} {e : HostEvent} {rest : List HostEvent}
    (hs : step { s with pending := e :: rest } = .next t) (hcmd : ∀ w, e ≠ .write 0x000 4 w)
    (hr : e ≠ .reset) (h : Chain) (x : SpongeBytes) :
    step { setEngines h x s with pending := e :: rest } = .next (setEngines h x t) := by
  rw [step_event] at hs ⊢
  cases hs
  exact congrArg Host.Outcome.next (eventEffect_setEngines hcmd hr h x { s with pending := rest })

/-- An access that is no command and no reset input leaves H and S. -/
theorem step_access_engines {s t : State} {e : HostEvent} {rest : List HostEvent}
    (h : step { s with pending := e :: rest } = .next t) (hcmd : ∀ w, e ≠ .write 0x000 4 w)
    (hr : e ≠ .reset) : t.h = s.h ∧ t.sponge = s.sponge := by
  rcases step_cases h with ⟨hp, -⟩ | ⟨_, hp, -⟩ | ⟨w, _, _, hp, -⟩ | ⟨w, _, _, hp, -⟩ |
    ⟨_, _, r, o, b, -, -, -, rfl⟩
  · cases hp
  · cases hp; exact absurd rfl hr
  · cases hp; exact absurd rfl (hcmd w)
  · cases hp; exact absurd rfl (hcmd w)
  · exact ⟨rfl, rfl⟩

/-- Settles O27: a command is acknowledged whatever it does, a reset input forgets H and S, and every
other access passes them by. -/
theorem hostCannotObserveEngines : Obligations.HostCannotObserveEngines := by
  intro s t s' t' e rest hst hs ht
  obtain ⟨h, x, rfl⟩ : ∃ h x, t = setEngines h x s := ⟨t.h, t.sponge, hst⟩
  by_cases hcmd : ∃ w, e = .write 0x000 4 w
  · obtain ⟨w, rfl⟩ := hcmd
    exact ⟨(step_write_cmd_keeps hs).resp.trans (step_write_cmd_keeps ht).resp.symm,
      fun hne => absurd rfl (hne w)⟩
  have hcmd : ∀ w, e ≠ .write 0x000 4 w := not_exists.1 hcmd
  by_cases hr : e = .reset
  · subst hr
    rw [step_reset] at hs ht
    cases hs
    cases ht
    exact ⟨rfl, fun _ => ⟨rfl, fun hne => absurd rfl hne⟩⟩
  obtain ⟨hth, hts⟩ := step_access_engines ht hcmd hr
  obtain ⟨hsh, hss⟩ := step_access_engines hs hcmd hr
  rw [step_setEngines hs hcmd hr h x] at ht
  cases ht
  exact ⟨rfl, fun _ => ⟨rfl, fun _ => ⟨hsh, hss, hth, hts⟩⟩⟩

end Sys2Proof.Machine
end

section
/-! The STATUS word (R14, R108). -/

namespace Sys2Proof.Machine

theorem statusWord_phase (s : State) : (statusWord s).extractLsb' 0 2 = phaseBits s.phase :=
  BitVec.extractLsb'_append_eq_right

theorem statusWord_var (s : State) : (statusWord s).extractLsb' 4 4 = variantBits s.var := by
  simp (disch := decide) only [statusWord, BitVec.extractLsb'_append_eq_of_le]
  exact BitVec.extractLsb'_append_eq_right

theorem statusWord_fcode (s : State) : (statusWord s).extractLsb' 8 3 = faultBits s.fcode := by
  simp (disch := decide) only [statusWord, BitVec.extractLsb'_append_eq_of_le]
  exact BitVec.extractLsb'_append_eq_right

theorem statusWord_dlen (s : State) : (statusWord s).extractLsb' 16 10 = s.dlen := by
  simp (disch := decide) only [statusWord, BitVec.extractLsb'_append_eq_of_le]
  exact BitVec.extractLsb'_append_eq_right

/-- The reserved bits of STATUS are 0 (R14). -/
theorem statusWord_reserved (s : State) :
    (statusWord s).extractLsb' 2 2 = 0 ∧ (statusWord s).extractLsb' 11 5 = 0 ∧
      (statusWord s).extractLsb' 26 6 = 0 := by
  simp (disch := decide) only [statusWord, BitVec.extractLsb'_append_eq_of_le]
  exact ⟨BitVec.extractLsb'_append_eq_right, BitVec.extractLsb'_append_eq_right, by decide⟩

theorem variantBits_toNat (v : Variant) : (variantBits v).toNat = v.id := by
  obtain v | v := v <;> cases v <;> rfl

/-- STATUS reads PHASE, VAR, FCODE and DLEN only. -/
theorem statusWord_congr {s t : State} (hp : t.phase = s.phase) (hv : t.var = s.var)
    (hf : t.fcode = s.fcode) (hd : t.dlen = s.dlen) : statusWord t = statusWord s := by
  rw [statusWord, hp, hv, hf, hd, ← statusWord]

theorem statusWord_reset : statusWord State.reset = 0 := by decide

/-- Settles O26: each field of STATUS is the number of the register it shows. -/
theorem statusFields : Obligations.StatusFields := by
  intro s field
  obtain ⟨h2, h11, h26⟩ := statusWord_reserved s
  refine ⟨?_, congrArg BitVec.toNat h2, ?_, ?_, congrArg BitVec.toNat h11,
    congrArg BitVec.toNat (statusWord_dlen s), congrArg BitVec.toNat h26⟩
  · simp only [field, statusWord_phase]
    cases s.phase <;> rfl
  · simp only [field, statusWord_var, variantBits_toNat]
  · simp only [field, statusWord_fcode]
    cases s.fcode <;> rfl

end Sys2Proof.Machine
end

section
/-! Reset (R22, R122). -/

namespace Sys2Proof.Machine

/-- The digest buffer as reset and INIT leave it is 0 (R20, R22). -/
theorem replicate_dout_getElem (i : Fin 512) : (Vector.replicate 512 (0 : Byte))[i] = 0 := by simp

/-- Settles O29: `State.reset` is the core after reset with zeros in H, S and BLK. -/
theorem resetValues : Obligations.ResetValues :=
  ⟨rfl, rfl, rfl, rfl, statusWord_reset, rfl, rfl, rfl, replicate_dout_getElem⟩

theorem statusWord_takeReset (s : State) : statusWord (takeReset s) = 0 :=
  (statusWord_congr rfl rfl rfl rfl).trans statusWord_reset

/-- Settles O30: the reset input is one step, `takeReset`, which leaves the later accesses. -/
theorem resetInputRestores : Obligations.ResetInputRestores := by
  intro s rest
  exact ⟨takeReset { s with pending := rest }, step_reset s rest, rfl, rfl, rfl, rfl,
    statusWord_takeReset _, rfl, rfl, rfl, replicate_dout_getElem, rfl⟩

end Sys2Proof.Machine
end

section
/-! The invariant, operation by operation and then step by step (R9, R14, R16, R17, R20). -/

namespace Sys2Proof.Machine

theorem digestBytes_fixed {v : Variant} (hv : v.isShake = false) (outbits : Nat) :
    v.digestBytes outbits = v.digestBytes 0 := by
  obtain v | v := v
  · rfl
  · cases v with
    | sha3_224 | sha3_256 | sha3_384 | sha3_512 => rfl
    | shake128 | shake256 => cases hv

theorem digestBytes_le {v : Variant} {outbits : Word32}
    (hok : ¬ (v.isShake = true ∧ badOutbits outbits = true)) :
    v.digestBytes outbits.toNat ≤ Config.maxXofBytes := by
  cases hv : v.isShake with
  | false =>
    rw [digestBytes_fixed hv]
    obtain v | v := v <;> cases v <;> decide
  | true =>
    have hgood := mt (badOutbits_iff outbits).2 (not_and.1 hok hv)
    have hle : outbits.toNat / 8 ≤ 512 := by omega
    obtain v | v := v
    · cases hv
    · cases v with
      | sha3_224 | sha3_256 | sha3_384 | sha3_512 => cases hv
      | shake128 | shake256 => exact hle

theorem initXofn_toNat {v : Variant} {outbits : Word32}
    (hok : ¬ (v.isShake = true ∧ badOutbits outbits = true)) :
    (initXofn v outbits).toNat = v.digestBytes outbits.toNat := by
  have hle : v.digestBytes outbits.toNat ≤ 512 := digestBytes_le hok
  rw [initXofn, BitVec.toNat_ofNat, Nat.mod_eq_of_lt (by omega)]

theorem State.Inv.chainFits {s : State} (hs : s.Inv) (hc : s.computing) {v : MdVariant}
    (hv : s.var = .md v) : ChainFits v s.h :=
  ⟨hs.highHalvesZero v hc hv, fun h1 => hs.sha1Unused hc (h1 ▸ hv)⟩

theorem not_computing_of_fault {s : State} (h : s.phase = .fault) : ¬ s.computing := by
  simp [State.computing, h]

theorem not_computing_of_idle {s : State} (h : s.phase = .idle) : ¬ s.computing := by
  simp [State.computing, h]

theorem afterReset_inv (h : Chain) (sp : SpongeBytes) (b : Vector Byte 168) :
    (State.afterReset h sp b).Inv where
  faultLatched := by simp
  lenBound := by simp
  dlenBound := by simp
  xofnBound := by simp
  doutTail i _ := replicate_dout_getElem i
  idleFresh := by simp
  absorbNoDigest := by simp
  absorbWholeBlocks := by simp
  xofnFixed hc := absurd hc (not_computing_of_idle rfl)
  doneDigest := by simp
  highHalvesZero _ hc := absurd hc (not_computing_of_idle rfl)
  sha1Unused hc := absurd hc (not_computing_of_idle rfl)

/-- The invariant says nothing of OUTBITS, of BLK or of the model's own fields. -/
theorem inv_congr {s : State} (hs : s.Inv) (o : Word32) (b : Vector Byte 168)
    (p : List HostEvent) (r : Response) (n : Nat) :
    ({ s with outbits := o, blk := b, pending := p, resp := r, resets := n } : State).Inv :=
  { hs with }

theorem takeReset_inv (s : State) : (takeReset s).Inv :=
  inv_congr (afterReset_inv _ _ _) 0 _ s.pending .nothing (s.resets + 1)

theorem raiseFault_inv {s : State} (hs : s.Inv) {c : FaultCode} (hc : c ≠ .none) :
    (raiseFault c s).Inv where
  faultLatched := by simp [hc]
  lenBound := hs.lenBound
  dlenBound := hs.dlenBound
  xofnBound := hs.xofnBound
  doutTail := hs.doutTail
  idleFresh := by simp
  absorbNoDigest := by simp
  absorbWholeBlocks := by simp
  xofnFixed hc := absurd hc (not_computing_of_fault rfl)
  doneDigest := by simp
  highHalvesZero _ hc := absurd hc (not_computing_of_fault rfl)
  sha1Unused hc := absurd hc (not_computing_of_fault rfl)

theorem State.Inv.fcode_none {s : State} (hs : s.Inv) (hp : s.phase ≠ .fault) : s.fcode = .none := by
  by_contra hc
  exact hp (hs.faultLatched.1 hc)

/-- INIT starts from a chain that fits its variant (R65, R71). -/
theorem startComputation_fits (v : Variant) (s : State) (m : MdVariant) (hm : v = .md m) :
    ChainFits m (startComputation v s).h := by
  subst hm
  exact mdIv_fits m

theorem startComputation_inv {s : State} (hs : s.Inv) (hp : s.phase ≠ .fault) {v : Variant}
    (hok : ¬ (v.isShake = true ∧ badOutbits s.outbits = true)) : (startComputation v s).Inv where
  faultLatched := by simp [hs.fcode_none hp]
  lenBound := by simp
  dlenBound := by simp
  xofnBound := (initXofn_toNat hok).le.trans (digestBytes_le hok)
  doutTail i _ := replicate_dout_getElem i
  idleFresh := by simp
  absorbNoDigest := by simp
  absorbWholeBlocks := by simp
  xofnFixed _ hv := (initXofn_toNat hok).trans (digestBytes_fixed hv _)
  doneDigest := by simp
  highHalvesZero m _ hm := (startComputation_fits v s m hm).narrow
  sha1Unused _ hm := (startComputation_fits v s .sha1 hm).unused rfl

/-- More of the message is consumed: LEN still counts whole blocks and the chain still fits. -/
theorem absorb_inv {s : State} (hs : s.Inv) (hp : s.phase = .absorb) (h : Chain) (sp : SpongeBytes)
    (len : Word64) (hbound : len.toNat ≤ Config.maxMsgBytes) (hdvd : s.var.blockBytes ∣ len.toNat)
    (hh : ∀ v, s.var = .md v → ChainFits v h) :
    ({ s with h := h, sponge := sp, len := len } : State).Inv :=
  { hs with
    lenBound := hbound
    idleFresh := fun h1 => absurd (hp.symm.trans h1) (by decide)
    absorbWholeBlocks := fun _ => hdvd
    highHalvesZero := fun v _ hv => (hh v hv).narrow
    sha1Unused := fun _ hv => (hh .sha1 hv).unused rfl }

theorem consumeBlock_fits {v : MdVariant} {s : State} (hv : s.var = .md v)
    (hh : ChainFits v s.h) : ChainFits v (consumeBlock s).h := by
  rw [consumeBlock_md hv]
  exact compress_fits hh _

theorem consumeBlock_inv {s : State} (hs : s.Inv) (hp : s.phase = .absorb)
    (hl : s.len.toNat + s.var.blockBytes ≤ Config.maxMsgBytes) : (consumeBlock s).Inv := by
  have hlen := len_add hl
  have hfits := fun v hv => consumeBlock_fits hv (hs.chainFits (.inl hp) (v := v) hv)
  obtain ⟨h, sp, he, -, -⟩ := consumeBlock_frame s
  rw [he] at hfits ⊢
  exact absorb_inv hs hp h sp _ (hlen.trans_le hl)
    (hlen ▸ (hs.absorbWholeBlocks hp).add (dvd_refl _)) hfits

/-- The digest is written over a buffer that INIT cleared, so DOUT is 0 from XOFN on (R20). -/
theorem writeDigest_tail {s : State} (hs : s.Inv) (hp : s.phase = .absorb) (d : List Byte)
    (i : Fin 512) (hi : s.xofn.toNat ≤ i.val) : (writeDigest s.xofn.toNat d s.dout)[i] = 0 := by
  have hclear : s.dout[i] = 0 := hs.doutTail i (by simp [hs.absorbNoDigest hp])
  rw [Fin.getElem_fin, writeDigest_getElem, if_neg (by omega)]
  exact hclear

theorem finishComputation_fits {v : MdVariant} {s : State} (hv : s.var = .md v)
    (hh : ChainFits v s.h) (lst : Nat) : ChainFits v (finishComputation lst s).h := by
  rw [finishComputation_md hv]
  exact mdFinal_fits hh _ _ _

theorem finishComputation_inv {s : State} (hs : s.Inv) (hp : s.phase = .absorb) {lst : Nat}
    (hl : s.len.toNat + lst ≤ Config.maxMsgBytes) :
    (finishComputation lst { s with len := s.len + BitVec.ofNat 64 lst }).Inv := by
  have hfits := fun v hv => finishComputation_fits
    (s := { s with len := s.len + BitVec.ofNat 64 lst }) hv
    (hs.chainFits (.inl hp) (v := v) hv) lst
  obtain ⟨h, sp, d, he, -, -⟩ :=
    finishComputation_frame lst { s with len := s.len + BitVec.ofNat 64 lst }
  rw [he] at hfits ⊢
  exact {
    faultLatched := by simp [hs.fcode_none (by simp [hp])]
    lenBound := (len_add hl).trans_le hl
    dlenBound := hs.xofnBound
    xofnBound := hs.xofnBound
    doutTail := writeDigest_tail hs hp d
    idleFresh := by simp
    absorbNoDigest := by simp
    absorbWholeBlocks := by simp
    xofnFixed := fun _ => hs.xofnFixed (.inl hp)
    doneDigest := fun _ => rfl
    highHalvesZero := fun v _ hv => (hfits v hv).narrow
    sha1Unused := fun _ hv => (hfits .sha1 hv).unused rfl }

theorem exec_keeps_inv {i : Instr} {s t : State} (hs : s.Inv) (h : exec i s = .next t) : t.Inv := by
  rcases exec_cases h with ⟨-, rfl⟩ | ⟨-, c, hc, rfl⟩ | ⟨hp, var, v, -, -, hok, rfl⟩ |
    ⟨-, hp, hl, rfl⟩ | ⟨lst, -, hp, -, hl, rfl⟩
  · exact hs
  · exact raiseFault_inv hs hc
  · exact startComputation_inv hs hp hok
  · exact consumeBlock_inv hs hp hl
  · exact finishComputation_inv hs hp hl

theorem illegalCommand_inv {s : State} (hs : s.Inv) : (illegalCommand s).Inv := by
  rcases illegalCommand_cases s with ⟨-, he⟩ | ⟨-, he⟩
  · rwa [he]
  · rw [he]
    exact raiseFault_inv hs (by decide)

/-- Settles O32: a step is idle, a reset input, a command, an illegal word or an access that leaves
everything the invariant speaks of. -/
theorem stepKeepsInv : Obligations.StepKeepsInv := by
  intro s t hs h
  rcases step_cases h with ⟨-, rfl⟩ | ⟨rest, -, rfl⟩ | ⟨w, rest, i, -, -, hexec⟩ |
    ⟨w, rest, e, -, -, rfl⟩ | ⟨e, rest, r, o, b, -, -, -, rfl⟩
  · exact hs
  · exact takeReset_inv _
  · exact exec_keeps_inv (inv_congr hs s.outbits s.blk rest .ack s.resets) hexec
  · exact illegalCommand_inv (inv_congr hs s.outbits s.blk rest .ack s.resets)
  · exact inv_congr hs o b rest r s.resets

/-- Settles O31: the invariant says nothing of BLK, of S, or of H outside a computation. -/
theorem resetHasInv : Obligations.ResetHasInv := ⟨afterReset_inv _ _ _, afterReset_inv⟩

end Sys2Proof.Machine
end

section
/-! The admitted accesses by offset and width, and what a refused access does (R23, R24, R27). -/

namespace Sys2Proof.Machine

/-- The offsets of the admitted word accesses (R23, R24). -/
theorem admitted_word_offsets (a : Nat) :
    admitted a 4 = true ↔ a % 4 = 0 ∧ (a < 0x00C ∨ a = 0x010 ∨ a = 0x014 ∨
      (0x100 ≤ a ∧ a + 4 ≤ 0x1A8) ∨ (0x200 ≤ a ∧ a + 4 ≤ 0x400)) := by
  constructor
  · intro h
    obtain ⟨hr, ha, -, -, h3⟩ := (admitted_word_iff a).1 h
    refine ⟨ha, ?_⟩
    cases hreg : regionOf a with
    | cmd => have := (regionOf_cmd_iff a).1 hreg; omega
    | status => have := (regionOf_status_iff a).1 hreg; omega
    | outbits => have := (regionOf_outbits_iff a).1 hreg; omega
    | lenLo => have := (regionOf_lenLo_iff a).1 hreg; omega
    | lenHi => have := (regionOf_lenHi_iff a).1 hreg; omega
    | blk => have := admitted_blk h hreg; omega
    | dout =>
      have := (regionOf_dout_iff a).1 hreg
      have := (regionOf_dout_iff (a + 3)).1 (h3.trans hreg)
      omega
    | reserved => exact absurd hreg hr
  · rintro ⟨ha, hlow | rfl | rfl | ⟨hlo, hhi⟩ | ⟨hlo, hhi⟩⟩
    · obtain rfl | rfl | rfl : a = 0 ∨ a = 4 ∨ a = 8 := by omega
      all_goals decide
    · decide
    · decide
    · obtain ⟨i, rfl⟩ : ∃ i, a = 0x100 + 4 * i := ⟨(a - 0x100) / 4, by omega⟩
      exact admitted_blk_word i (by omega)
    · obtain ⟨i, rfl⟩ : ∃ i, a = 0x200 + 4 * i := ⟨(a - 0x200) / 4, by omega⟩
      exact admitted_dout_word i (by omega)

theorem hostRead_of_not_admitted {a n : Nat} (h : admitted a n = false) (s : State) :
    hostRead s a n = refuseAccess s a n := by
  simp [hostRead, memRead, h]

theorem hostWrite_of_not_admitted {a n : Nat} (h : admitted a n = false) (s : State)
    (v : Word32) : hostWrite s a n v = .done (refuseAccess s a n) := by
  simp [hostWrite, h]

/-- A write that asks for no command is one step. -/
theorem step_write_done {s t : State} {a n : Nat} {v : Word32} {rest : List HostEvent}
    (h : hostWrite { s with pending := rest } a n v = .done t) :
    step { s with pending := .write a n v :: rest } = .next t := by
  rw [step_write, h]

/-- Settles O21: the two admitted widths, each with its offsets, and the refusal of the rest. -/
theorem unadmittedAccessIsBusError : Obligations.UnadmittedAccessIsBusError := by
  refine ⟨fun a n => ⟨fun h => ?_, ?_⟩, fun s a n v rest h =>
    ⟨⟨Config.busErrorReport a n, ?_⟩, Config.busErrorReport a n, ?_⟩⟩
  · obtain rfl | rfl := admitted_width h
    · exact .inr ⟨rfl, (admitted_byte_iff a).1 h⟩
    · exact .inl ⟨rfl, (admitted_word_offsets a).1 h⟩
  · rintro (⟨rfl, hword⟩ | ⟨rfl, hbyte⟩)
    · exact (admitted_word_offsets a).2 hword
    · exact (admitted_byte_iff a).2 hbyte
  · rw [step_read, hostRead_of_not_admitted h, refuseAccess]
  · exact step_write_done (hostWrite_of_not_admitted h _ v)

end Sys2Proof.Machine
end

section
/-! What each admitted read returns (R25, R31). -/

namespace Sys2Proof.Machine

/-- A read that is answered hands over its datum and changes nothing else. -/
theorem step_read_data {s : State} {a n : Nat} {v : Word32} (h : memRead s a n = some v)
    (rest : List HostEvent) :
    step { s with pending := .read a n :: rest } =
      .next { s with pending := rest, resp := .data v } := by
  have hm : memRead { s with pending := rest } a n = some v := h
  rw [step_read, hostRead, hm]

theorem windowByte_blk (s : State) (i : Nat) (hi : i < 168) :
    windowByte s (0x100 + i) = some s.blk[i] := by
  rw [windowByte, regionOf_blk (by omega) (by omega)]
  simp [hi]

theorem windowByte_dout (s : State) (i : Nat) (hi : i < 512) :
    windowByte s (0x200 + i) = some s.dout[i] := by
  rw [windowByte, regionOf_dout (by omega) (by omega)]
  simp [hi]

theorem memRead_byte {s : State} {a : Nat} (hadm : admitted a 1 = true) {b : Byte}
    (hb : windowByte s a = some b) : memRead s a 1 = some (BitVec.ofNat 32 b.toNat) := by
  have hr := (admitted_byte_iff a).1 hadm
  rw [← regionOf_blk_iff, ← regionOf_dout_iff] at hr
  rw [memRead, if_pos hadm]
  obtain hr | hr := hr <;> simp [hr, hb, BitVec.ofNat_toNat]

/-- A word read of a buffer puts the byte at the lowest offset first (R31). -/
theorem memRead_word {s : State} {a : Nat} (hadm : admitted a 4 = true) {b0 b1 b2 b3 : Byte}
    (h0 : windowByte s a = some b0) (h1 : windowByte s (a + 1) = some b1)
    (h2 : windowByte s (a + 2) = some b2) (h3 : windowByte s (a + 3) = some b3) :
    memRead s a 4 = some (b0 ++ b1 ++ b2 ++ b3) := by
  have hword : windowWord s a = b0 ++ b1 ++ b2 ++ b3 := by
    simp only [windowWord, Nat.add_zero, h0, h1, h2, h3, Option.getD_some]
  rw [memRead, if_pos hadm, ← hword]
  unfold windowByte at h0
  cases hr : regionOf a with
  | blk | dout => rfl
  | cmd | status | outbits | lenLo | lenHi | reserved => simp [hr] at h0

theorem memRead_blk_word (s : State) (i : Nat) (hi : i < 42) :
    memRead s (0x100 + 4 * i) 4 =
      some (s.blk[4 * i] ++ s.blk[4 * i + 1] ++ s.blk[4 * i + 2] ++ s.blk[4 * i + 3]) :=
  memRead_word (admitted_blk_word i hi) (windowByte_blk s (4 * i) (by omega))
    (windowByte_blk s (4 * i + 1) (by omega)) (windowByte_blk s (4 * i + 2) (by omega))
    (windowByte_blk s (4 * i + 3) (by omega))

theorem memRead_dout_word (s : State) (i : Nat) (hi : i < 128) :
    memRead s (0x200 + 4 * i) 4 =
      some (s.dout[4 * i] ++ s.dout[4 * i + 1] ++ s.dout[4 * i + 2] ++ s.dout[4 * i + 3]) :=
  memRead_word (admitted_dout_word i hi) (windowByte_dout s (4 * i) (by omega))
    (windowByte_dout s (4 * i + 1) (by omega)) (windowByte_dout s (4 * i + 2) (by omega))
    (windowByte_dout s (4 * i + 3) (by omega))

/-- A field of a word as a number (R17, R57). -/
theorem extractLsb'_eq_ofNat {w : Nat} (x : BitVec w) (k n : Nat) :
    x.extractLsb' k n = BitVec.ofNat n (x.toNat / 2 ^ k) := by
  apply BitVec.eq_of_toNat_eq
  rw [BitVec.extractLsb'_toNat, Nat.shiftRight_eq_div_pow, BitVec.toNat_ofNat]

/-- Settles O22: a read is its datum, and the datum is that of its region. -/
theorem readsReturnWindowContents : Obligations.ReadsReturnWindowContents := by
  intro s rest answers
  have answer : ∀ {a n v}, memRead s a n = some v → answers a n v :=
    fun h => step_read_data h rest
  refine ⟨answer rfl, answer rfl, answer rfl, answer ?_, answer ?_, fun i => answer ?_,
    fun i => answer ?_, fun i => answer (memRead_blk_word s i.val i.isLt),
    fun i => answer (memRead_dout_word s i.val i.isLt)⟩
  · rw [← Nat.div_one s.len.toNat]
    exact congrArg some (extractLsb'_eq_ofNat s.len 0 32)
  · exact congrArg some (extractLsb'_eq_ofNat s.len 32 32)
  · exact memRead_byte (admitted_blk_byte i i.isLt) (windowByte_blk s i i.isLt)
  · exact memRead_byte (admitted_dout_byte i i.isLt) (windowByte_dout s i i.isLt)

end Sys2Proof.Machine
end

section
/-! What each admitted write stores or refuses (R26, R27, R31). -/

namespace Sys2Proof.Machine

/-- The four addressed bytes of BLK after a word write are the word, the lowest offset first. -/
theorem setBlkWord_word (b : Vector Byte 168) (v : Word32) (i : Nat) (hi : i < 42) :
    (setBlkWord b (4 * i) v)[4 * i] ++ (setBlkWord b (4 * i) v)[4 * i + 1] ++
      (setBlkWord b (4 * i) v)[4 * i + 2] ++ (setBlkWord b (4 * i) v)[4 * i + 3] = v := by
  simpa [setBlkWord_getElem] using word_of_bytes v

/-- A word write leaves the bytes of BLK outside the four it addresses. -/
theorem setBlkWord_frame (b : Vector Byte 168) (i : Nat) (v : Word32) (j : Fin 168)
    (hj : j.val < i ∨ i + 4 ≤ j.val) : (setBlkWord b i v)[j] = b[j] := by
  rw [Fin.getElem_fin, setBlkWord_getElem, if_neg (by omega), if_neg (by omega),
    if_neg (by omega), if_neg (by omega), Fin.getElem_fin]

/-- STATUS, LEN and DOUT take no write (R26). -/
theorem hostWrite_readOnly {a n : Nat} (ha : a = 0x004 ∨ a = 0x010 ∨ a = 0x014 ∨ 0x200 ≤ a)
    (hadm : admitted a n = true) (s : State) (v : Word32) :
    hostWrite s a n v = .done (refuseAccess s a n) := by
  rw [hostWrite, if_pos hadm]
  obtain rfl | rfl | rfl | ha := ha
  · rfl
  · rfl
  · rfl
  · have hlt : a < 0x400 := by
      obtain rfl | rfl := admitted_width hadm
      · have := (admitted_byte_iff a).1 hadm; omega
      · have := (admitted_word_offsets a).1 hadm; omega
    rw [regionOf_dout ha hlt]

/-- Settles O23: the command, the three stores, and the refusals. -/
theorem writesStoreOrRefuse : Obligations.WritesStoreOrRefuse := by
  intro s v rest
  refine ⟨fun i hd => ?_, fun e hd => ?_, rfl, fun i => ?_, fun i => ?_, fun a n hadm ha => ?_⟩
  · rw [step_write_cmd, hd]
  · rw [step_write_cmd, hd]
  · exact step_write_done (hostWrite_blk_byte _ i i.isLt v)
  · exact ⟨_, step_write_done (hostWrite_blk_word _ i i.isLt v), rfl,
      setBlkWord_word s.blk v i i.isLt, setBlkWord_frame s.blk (4 * i) v⟩
  · exact ⟨_, step_write_done (hostWrite_readOnly ha hadm _ v)⟩

theorem setBlkWord_eq_set (b : Vector Byte 168) (v : Word32) (i : Nat) (hi : i + 3 < 168) :
    setBlkWord b i v = (((b.set i (v.extractLsb' 24 8)).set (i + 1) (v.extractLsb' 16 8)).set
      (i + 2) (v.extractLsb' 8 8)).set (i + 3) (v.extractLsb' 0 8) := by
  rw [setBlkWord, setIfInBounds_eq_set _ i (by omega), setIfInBounds_eq_set _ (i + 1) (by omega),
    setIfInBounds_eq_set _ (i + 2) (by omega), setIfInBounds_eq_set _ (i + 3) hi]

/-- Settles O24: both sides set the same four bytes of BLK, in the same order. -/
theorem wordWriteIsFourByteWrites : Obligations.WordWriteIsFourByteWrites := by
  intro s t i v rest h
  rw [step_write_done (hostWrite_blk_word _ i i.isLt v)] at h
  cases h
  refine (run_events [_, _, _, _] rest s).trans ?_
  simp (disch := omega) only [runEvents, List.foldl_cons, List.foldl_nil, Nat.add_assoc,
    write8_effect, setBlkWord_eq_set]

end Sys2Proof.Machine
end

section
/-! The place of the window in the platform's address map (R23). -/

namespace Sys2Proof.Machine

theorem windowOffset_eq_some_iff (a off : Nat) :
    windowOffset a = some off ↔ off < 0x400 ∧ a = Config.windowBase + off := by
  have hsize : Config.windowBytes = 0x400 := rfl
  unfold windowOffset
  split <;> simp <;> omega

/-- Settles O28: a window offset is the distance from WINDOW_BASE. -/
theorem windowStandsAtItsBase : Obligations.WindowStandsAtItsBase :=
  ⟨fun off h => (windowOffset_eq_some_iff _ off).2 ⟨h, rfl⟩,
    fun a off => (windowOffset_eq_some_iff a off).1⟩

end Sys2Proof.Machine
end

section
/-! The words of a 32-bit digest as the host reads them (R31, R85). -/

namespace Sys2Proof.Machine

/-- The bytes of a word, most significant first (R57). -/
theorem beBytes_word (x : Word32) :
    beBytes x.toNat 4 =
      [x.extractLsb' 24 8, x.extractLsb' 16 8, x.extractLsb' 8 8, x.extractLsb' 0 8] := by
  simp only [beBytes, ← extractLsb'_eq_ofNat]
  rfl

/-- "H words used" covers the digest (R5, R85). -/
theorem digestBytes_le_chainWords {v : MdVariant} (hv : v.wordBits = 32) :
    v.digestBytes ≤ 4 * v.chainWords ∧ v.chainWords ≤ 8 := by
  cases v with
  | sha1 | sha224 | sha256 => decide
  | sha384 | sha512 | sha512t224 | sha512t256 => exact absurd hv (by decide)

/-- Four bytes of a 32-bit digest are the low half of a word of H (R85). -/
theorem mdExtract_word {v : MdVariant} (hv : v.wordBits = 32) (h : Chain) (k : Fin 8)
    (hk : 4 * k.val + 4 ≤ v.digestBytes) :
    slice (mdExtract v h) (4 * k) 4 = beBytes (low32 h[k]).toNat 4 := by
  obtain ⟨hle, h8⟩ := digestBytes_le_chainWords hv
  have hlen : k.val < ((h.toList.take v.chainWords).map low32).length := by simp; omega
  have hword := slice_flatMap ((h.toList.take v.chainWords).map low32)
    (fun x => beBytes x.toNat 4) 4 (fun _ _ => beBytes_length _ _) k hlen
  rw [mdExtract, if_pos hv, fromWords, slice, List.drop_take, List.take_take,
    Nat.min_eq_left (by omega), Nat.mul_comm]
  refine hword.trans ?_
  simp

/-- The bytes of DOUT that FINAL writes are the digest's, read one by one (R105). -/
theorem writeDigest_slice {n : Nat} {d : List Byte} {i m : Nat} {bs : List Byte}
    (hs : slice d i m = bs) (hn : i + m ≤ n) (dout : Vector Byte 512) {j : Nat} (hj : j < m)
    (hbs : j < bs.length) (h512 : i + j < 512) : (writeDigest n d dout)[i + j] = bs[j] := by
  have hd : d[i + j]? = some bs[j] := by
    rw [← List.getElem?_eq_getElem hbs, ← hs, slice, List.getElem?_take_of_lt hj,
      List.getElem?_drop]
  rw [writeDigest_getElem, if_pos (by omega), List.getD_eq_getElem?_getD, hd, Option.getD_some]

/-- A word read of DOUT where FINAL wrote the big-endian bytes of a word is that word (R31). -/
theorem memRead_writeDigest {s : State} {n : Nat} {d : List Byte} {dout : Vector Byte 512}
    (hd : s.dout = writeDigest n d dout) {k : Nat} (hk : 4 * k + 4 ≤ n) (h512 : 4 * k + 4 ≤ 512)
    {x : Word32} (hx : slice d (4 * k) 4 = beBytes x.toNat 4) :
    memRead s (0x200 + 4 * k) 4 = some x := by
  rw [beBytes_word] at hx
  have hbyte := fun j (hj : j < 4) => writeDigest_slice hx hk dout hj hj (by omega)
  have hfirst : (writeDigest n d dout)[4 * k] = x.extractLsb' 24 8 := hbyte 0 (by omega)
  rw [memRead_dout_word s k (by omega)]
  simp only [hd, hfirst, hbyte 1 (by omega), hbyte 2 (by omega), hbyte 3 (by omega)]
  exact congrArg some (word_of_bytes x)

/-- FINAL writes the digest of the H it leaves (R84, R105). -/
theorem finishComputation_dout_md {v : MdVariant} {s : State} (hv : s.var = .md v) (lst : Nat) :
    (finishComputation lst s).dout =
      writeDigest s.xofn.toNat (mdExtract v (finishComputation lst s).h) s.dout := by
  rw [finishComputation_md hv]; rfl

/-- After the end of FINAL a word read of the digest is a word of H (R31, R85). -/
theorem memRead_finishComputation {v : MdVariant} {s : State} (hv : s.var = .md v)
    (hw : v.wordBits = 32) (hx : s.xofn.toNat = v.digestBytes) (lst : Nat) (k : Fin 8)
    (hk : 4 * k.val + 4 ≤ v.digestBytes) :
    memRead (finishComputation lst s) (0x200 + 4 * k.val) 4 =
      some ((finishComputation lst s).h[k].setWidth 32) := by
  obtain ⟨hle, h8⟩ := digestBytes_le_chainWords hw
  exact memRead_writeDigest (finishComputation_dout_md hv lst) (hk.trans hx.ge) (by omega)
    (mdExtract_word hw _ k hk)

/-- Settles O39: FINAL leaves the digest of the H it leaves, and a word read of DOUT undoes the
big-endian rendering of a word of H. -/
theorem wordReadsAfterFinalReturnH : Obligations.WordReadsAfterFinalReturnH := by
  intro v s t lst k hv hw hp hx h ht hk
  rcases exec_cases h with ⟨hf, -⟩ | ⟨-, c, -, rfl⟩ | ⟨-, _, _, hi, -⟩ | ⟨hi, -⟩ |
    ⟨_, hi, -, -, -, rfl⟩
  · exact absurd (hp.symm.trans hf) (by decide)
  · exact absurd ht (by simp)
  · cases hi
  · cases hi
  · exact memRead_finishComputation (s := { s with len := s.len + _ }) hv hw hx _ k hk

end Sys2Proof.Machine
end

section
/-! A command word is its four fields (R39), and each command's word has its fields (R41). -/

namespace Sys2Proof

/-- The command word with these fields (R39). -/
def wordOf (op var : BitVec 4) (lst : Byte) (rsv : BitVec 16) : Word32 := rsv ++ lst ++ var ++ op

@[simp] theorem cmdOp_wordOf (op var : BitVec 4) (lst : Byte) (rsv : BitVec 16) :
    cmdOp (wordOf op var lst rsv) = op :=
  BitVec.extractLsb'_append_eq_right

@[simp] theorem cmdVar_wordOf (op var : BitVec 4) (lst : Byte) (rsv : BitVec 16) :
    cmdVar (wordOf op var lst rsv) = var := by
  simp (disch := decide) only [cmdVar, wordOf, BitVec.extractLsb'_append_eq_of_le]
  exact BitVec.extractLsb'_append_eq_right

@[simp] theorem cmdLst_wordOf (op var : BitVec 4) (lst : Byte) (rsv : BitVec 16) :
    cmdLst (wordOf op var lst rsv) = lst := by
  simp (disch := decide) only [cmdLst, wordOf, BitVec.extractLsb'_append_eq_of_le]
  exact BitVec.extractLsb'_append_eq_right

@[simp] theorem cmdRsv_wordOf (op var : BitVec 4) (lst : Byte) (rsv : BitVec 16) :
    cmdRsv (wordOf op var lst rsv) = rsv := by
  simp (disch := decide) only [cmdRsv, wordOf, BitVec.extractLsb'_append_eq_of_le]
  exact BitVec.extractLsb'_eq_self

/-- The fields cover the word: no bit stands outside them (R39). -/
theorem wordOf_fields (w : Word32) : wordOf (cmdOp w) (cmdVar w) (cmdLst w) (cmdRsv w) = w := by
  simp only [wordOf, cmdOp, cmdVar, cmdLst, cmdRsv]
  simp (disch := rfl) only [BitVec.extractLsb'_append_extractLsb'_eq_extractLsb']
  simp

theorem encode_block : encode .block = wordOf 2 0 0 0 := rfl

theorem encode_init (var : BitVec 4) : encode (.init (var.setWidth 8)) = wordOf 1 var 0 0 := by
  decide +revert

theorem encode_final (lst : Byte) : encode (.final lst) = wordOf 3 0 lst 0 := by
  apply BitVec.eq_of_getLsbD_eq
  intro i hi
  simp only [encode, finalRow, wordOf, BitVec.getLsbD_or, BitVec.getLsbD_shiftLeft,
    BitVec.getLsbD_setWidth, BitVec.getLsbD_append]
  interval_cases i <;> simp

/-- A variant id of four bits is the zero-extension of its field (R40). -/
theorem setWidth_setWidth_of_wellFormed {var : Byte} (h : (Instr.init var).WellFormed) :
    (var.setWidth 4).setWidth 8 = var := by
  have hlt : var.toNat < 16 := of_decide_eq_true h
  apply BitVec.eq_of_toNat_eq
  simp only [BitVec.toNat_setWidth]
  omega

theorem decode_wordOf_init (var : BitVec 4) :
    decode (wordOf 1 var 0 0) = .ok (.init (var.setWidth 8)) := by
  have h : initRow.accepts (wordOf 1 var 0 0) = true := by simp [initRow_accepts]
  rw [decode, if_pos h, cmdVar_wordOf]

theorem decode_wordOf_final (lst : Byte) : decode (wordOf 3 0 lst 0) = .ok (.final lst) := by
  have h1 : ¬ initRow.accepts (wordOf 3 0 lst 0) = true := by simp [initRow_accepts]
  have h2 : ¬ blockRow.accepts (wordOf 3 0 lst 0) = true := by simp [blockRow_accepts]
  have h3 : finalRow.accepts (wordOf 3 0 lst 0) = true := by simp [finalRow_accepts]
  rw [decode, if_neg h1, if_neg h2, if_pos h3, cmdLst_wordOf]

theorem decode_wordOf_block : decode (wordOf 2 0 0 0) = .ok .block := by decide

/-- Settles O1: the word of a command has the command's fields, and the decoder reads them. -/
theorem decodeAfterEncode : Obligations.DecodeAfterEncode := by
  intro i hi
  cases i with
  | init var =>
    rw [← setWidth_setWidth_of_wellFormed hi, encode_init, decode_wordOf_init]
  | block => rw [encode_block, decode_wordOf_block]
  | final lst => rw [encode_final, decode_wordOf_final]

/-- Settles O4: each word is written out field by field. -/
theorem writtenOutWordsDecode : Obligations.WrittenOutWordsDecode :=
  ⟨decode_wordOf_init 0, decode_wordOf_init 12, decode_wordOf_init 15, decode_wordOf_block,
    decode_wordOf_final 0, decode_wordOf_final 3, decode_wordOf_final 255⟩

/-- A word that decodes is the word of its command's fields (R39, R41). -/
theorem word_of_decode {w : Word32} {i : Instr} (h : decode w = .ok i) :
    (∃ var : BitVec 4, i = .init (var.setWidth 8) ∧ w = wordOf 1 var 0 0) ∨
    (i = .block ∧ w = wordOf 2 0 0 0) ∨
    (∃ lst : Byte, i = .final lst ∧ w = wordOf 3 0 lst 0) := by
  have hw := wordOf_fields w
  rcases decode_cases w with ⟨hd, hop, hlst, hrsv⟩ | ⟨hd, hop, hvar, hlst, hrsv⟩ |
    ⟨hd, hop, hvar, hrsv⟩ | ⟨hd, -⟩
  · rw [hop, hlst, hrsv] at hw
    exact .inl ⟨cmdVar w, Except.ok.inj (h.symm.trans hd), hw.symm⟩
  · rw [hop, hvar, hlst, hrsv] at hw
    exact .inr (.inl ⟨Except.ok.inj (h.symm.trans hd), hw.symm⟩)
  · rw [hop, hvar, hrsv] at hw
    exact .inr (.inr ⟨cmdLst w, Except.ok.inj (h.symm.trans hd), hw.symm⟩)
  · cases hd.symm.trans h

theorem wellFormed_init_setWidth (var : BitVec 4) : (Instr.init (var.setWidth 8)).WellFormed := by
  decide +revert

/-- Settles O2: a word that decodes is the word of its command's fields. -/
theorem encodeAfterDecode : Obligations.EncodeAfterDecode := by
  intro w i h
  obtain ⟨var, rfl, rfl⟩ | ⟨rfl, rfl⟩ | ⟨lst, rfl, rfl⟩ := word_of_decode h
  · exact ⟨wellFormed_init_setWidth var, encode_init var⟩
  · exact ⟨rfl, encode_block⟩
  · exact ⟨rfl, encode_final lst⟩

/-- A word is illegal where no row of the opcode map has its fields (R41, R43). -/
theorem decode_error_iff (w : Word32) :
    (∃ e, decode w = .error e) ↔ ¬ (cmdOp w = 1 ∧ cmdLst w = 0 ∧ cmdRsv w = 0) ∧
      ¬ (cmdOp w = 2 ∧ cmdVar w = 0 ∧ cmdLst w = 0 ∧ cmdRsv w = 0) ∧
      ¬ (cmdOp w = 3 ∧ cmdVar w = 0 ∧ cmdRsv w = 0) := by
  rcases decode_cases w with ⟨hd, h⟩ | ⟨hd, h⟩ | ⟨hd, h⟩ | ⟨hd, h⟩
  · simp [hd, h]
  · simp [hd, h]
  · simp [hd, h]
  · exact ⟨fun _ => h, fun _ => ⟨_, hd⟩⟩

/-- R43's list, read off the fields: a reserved OP, or a nonzero bit that the OP's row reserves. -/
theorem decode_error_iff_reservedWord (w : Word32) :
    (∃ e, decode w = .error e) ↔ ReservedWord w := by
  have hop (n : BitVec 4) : cmdOp w = n ↔ (cmdOp w).toNat = n.toNat := BitVec.toNat_inj.symm
  have hcases : (cmdOp w).toNat = 0 ∨ (cmdOp w).toNat = 1 ∨ (cmdOp w).toNat = 2 ∨
      (cmdOp w).toNat = 3 ∨ 4 ≤ (cmdOp w).toNat := by omega
  rw [decode_error_iff, ReservedWord, hop 1, hop 2, hop 3]
  rcases hcases with h | h | h | h | h
  · simp [h]
  · simp [h, imp_iff_not_or]
  · simp [h, imp_iff_not_or]
  · simp [h, imp_iff_not_or]
  · have h1 : (cmdOp w).toNat ≠ 1 := by omega
    have h2 : (cmdOp w).toNat ≠ 2 := by omega
    have h3 : (cmdOp w).toNat ≠ 3 := by omega
    simp [h, h1, h2, h3]

end Sys2Proof

namespace Sys2Proof.Machine

/-- A word that is no command latches ILLEGAL_COMMAND and nothing else (R102, R111). -/
theorem step_write_illegal {s : State} {w : Word32} (hw : ∃ e, decode w = .error e)
    (hs : s.phase ≠ .fault) (rest : List HostEvent) :
    step { s with pending := .write 0x000 4 w :: rest } =
      .next (raiseFault .illegalCommand { s with pending := rest, resp := .ack }) := by
  obtain ⟨e, he⟩ := hw
  rw [step_write_cmd, he]
  exact congrArg Host.Outcome.next (unlessFault_ok hs)

/-- Settles O3: the reserved words are those no row accepts, and fault entry is all they do. -/
theorem reservedWordsAreIllegal : Obligations.ReservedWordsAreIllegal :=
  ⟨decode_error_iff_reservedWord, fun _ w rest hw hs =>
    step_write_illegal ((decode_error_iff_reservedWord w).2 hw) hs rest⟩

end Sys2Proof.Machine
end

section
/-! The tables of the variants (R5, R6, R42). -/

namespace Sys2Proof

theorem variantOfId_id (v : Variant) : variantOfId v.id = some v := by
  obtain v | v := v <;> cases v <;> rfl

theorem variantOfName_name (v : Variant) : variantOfName v.name = some v := by
  obtain v | v := v <;> cases v <;> decide

theorem variantOfId_eq_none {n : Nat} (h : 12 < n) : variantOfId n = none :=
  List.getElem?_eq_none h

/-- What R42 gives of a variant: its id and its name, each selecting it, and its block size. -/
theorem variant_row {v : Variant} {id b : Nat} {name : String} (hid : v.id = id)
    (hname : v.name = name) (hb : v.blockBytes = b) :
    v.id = id ∧ v.name = name ∧ variantOfId id = some v ∧ variantOfName name = some v ∧
      v.blockBytes = b :=
  ⟨hid, hname, hid ▸ variantOfId_id v, hname ▸ variantOfName_name v, hb⟩

/-- Settles O20: each row's id and name select its variant, and its numbers are read off. -/
theorem variantTable : Obligations.VariantTable := by
  unfold Obligations.VariantTable
  refine ⟨⟨?_, ?_, ?_, ?_, ?_, ?_, ?_⟩, ⟨?_, ?_, ?_, ?_, ?_, ?_⟩,
    fun _ => variantOfId_eq_none, rfl, rfl⟩
  iterate 7
    · exact ⟨variant_row rfl rfl rfl, rfl, fun _ => rfl, rfl, rfl, rfl, rfl, rfl, rfl⟩
  iterate 6
    · exact ⟨variant_row rfl rfl rfl, rfl, fun _ => rfl, rfl, rfl, rfl⟩

end Sys2Proof
end

section
/-! LOADBLK word by word (R31, R44). -/

namespace Sys2Proof.Machine

theorem write32_effect (s : State) (i : Nat) (hi : i < 42) (v : Word32) :
    eventEffect (write32 (0x100 + 4 * i) v) s =
      { s with resp := .ack, blk := setBlkWord s.blk (4 * i) v } :=
  eventEffect_of_done (hostWrite_blk_word s i hi v)

/-- The number that WR32 takes for four bytes has just these bytes (R53, R57). -/
theorem word_of_slice (bytes : List Byte) (i : Nat) (h : i + 4 ≤ bytes.length) {v : Word32}
    (hv : v = BitVec.ofNat 32 (beNat (slice bytes i 4))) :
    v.extractLsb' 24 8 = bytes.getD i 0 ∧ v.extractLsb' 16 8 = bytes.getD (i + 1) 0 ∧
      v.extractLsb' 8 8 = bytes.getD (i + 2) 0 ∧ v.extractLsb' 0 8 = bytes.getD (i + 3) 0 := by
  have hlen := slice_length bytes i 4 h
  have hnat : v.toNat = beNat (slice bytes i 4) := by
    have hlt := beNat_lt (slice bytes i 4)
    rw [hlen] at hlt
    rw [hv, BitVec.toNat_ofNat, Nat.mod_eq_of_lt (by omega)]
  have hbytes : beBytes v.toNat 4 = slice bytes i 4 := by
    have hround := beBytes_beNat (slice bytes i 4)
    rwa [hlen, ← hnat] at hround
  have hget (k : Nat) (hk : k < 4) : (beBytes v.toNat 4)[k]? = some (bytes.getD (i + k) 0) := by
    rw [hbytes, slice, List.getElem?_take_of_lt hk, List.getElem?_drop, List.getD_eq_getElem?_getD,
      List.getElem?_eq_getElem (by omega), Option.getD_some]
  rw [beBytes_word] at hget
  exact ⟨Option.some.inj (hget 0 (by omega)), Option.some.inj (hget 1 (by omega)),
    Option.some.inj (hget 2 (by omega)), Option.some.inj (hget 3 (by omega))⟩

/-- Access `i` of `LOADBLK bytes` (R44). -/
def loadByte (bytes : List Byte) (i : Nat) : HostEvent := write8 (0x100 + i) (bytes.getD i 0)

/-- Access `i` of the equivalent WR32 writes (R44). -/
def loadWord (bytes : List Byte) (i : Nat) : HostEvent :=
  write32 (0x100 + 4 * i) (BitVec.ofNat 32 (beNat (slice bytes (4 * i) 4)))

/-- A WR32 of the equivalent writes does what the four WR8 of its bytes do (R26, R31). -/
theorem loadWord_effect (bytes : List Byte) (h168 : bytes.length ≤ 168) {i : Nat}
    (hi : 4 * i + 4 ≤ bytes.length) (s : State) :
    eventEffect (loadWord bytes i) s =
      runEvents ((List.range 4).map fun k => loadByte bytes (4 * i + k)) s := by
  have hr : List.range 4 = [0, 1, 2, 3] := rfl
  obtain ⟨h0, h1, h2, h3⟩ := word_of_slice bytes (4 * i) hi rfl
  rw [loadWord, write32_effect s i (by omega), setBlkWord_eq_set _ _ _ (by omega), h0, h1, h2, h3]
  simp (disch := omega) only [hr, loadByte, List.map_cons, List.map_nil, runEvents,
    List.foldl_cons, List.foldl_nil, write8_effect, Nat.add_zero]

/-- The first `q` WR32 do what the first `4 * q` WR8 do. -/
theorem runEvents_loadWords (bytes : List Byte) (h168 : bytes.length ≤ 168) (q : Nat)
    (hq : 4 * q ≤ bytes.length) (s : State) :
    runEvents ((List.range q).map (loadWord bytes)) s =
      runEvents ((List.range (4 * q)).map (loadByte bytes)) s := by
  induction q with
  | zero => rfl
  | succ q ih =>
    rw [List.range_succ, List.map_append, runEvents_append, ih (by omega), Nat.mul_succ,
      List.range_add, List.map_append, runEvents_append, List.map_map]
    exact loadWord_effect bytes h168 hq _

theorem runEvents_loadBlkWords {bytes : List Byte} (h168 : bytes.length ≤ 168)
    (h4 : bytes.length % 4 = 0) (s : State) :
    runEvents (loadBlkWords bytes) s = runEvents (loadBlk bytes) s := by
  have hlen : 4 * (bytes.length / 4) = bytes.length := by omega
  refine (runEvents_loadWords bytes h168 (bytes.length / 4) hlen.le s).trans ?_
  rw [hlen]; rfl

/-- Settles O25: word by word, the WR32 writes do what the WR8 writes do. -/
theorem loadByWordsIsLoadByBytes : Obligations.LoadByWordsIsLoadByBytes := by
  intro s bytes rest _ h168 h4
  rw [run_events, run_events, runEvents_loadBlkWords h168 h4]

end Sys2Proof.Machine
end

section
/-! The host procedure as far as the host follows it: PHASE, VAR, LEN, XOFN and DLEN after INIT, after every block and after FINAL (R106). -/

namespace Sys2Proof.Machine

/-- `LOADBLK bytes`, then a command: the command's effect on the state with BLK loaded (R44). -/
theorem loadThenCommand_effect {bs : List Byte} (hbs : bs.length ≤ 168) {i : Instr}
    (hi : i.WellFormed) (s : State) :
    runEvents (loadBlk bs ++ [commandWrite i]) s =
      unlessFault (commandEffect i) { s with resp := .ack, blk := overlay bs s.blk } := by
  obtain ⟨r, hr⟩ := load_effect bs s hbs
  rw [runEvents_append, hr]
  exact commandWrite_effect (decodeAfterEncode i hi) _

/-- The core in FAULT, as far as the host can tell: the latched code and the DLEN it keeps. -/
structure Latched (code : FaultCode) (dlen : BitVec 10) (s : State) : Prop where
  phase : s.phase = .fault
  fcode : s.fcode = code
  dlen : s.dlen = dlen

/-- A computation of `v` with XOFN `x` that has consumed `n` bytes and still takes blocks. -/
structure Absorbing (v : Variant) (x : BitVec 10) (n : Nat) (s : State) : Prop where
  phase : s.phase = .absorb
  var : s.var = v
  xofn : s.xofn = x
  len : s.len.toNat = n
  dlen : s.dlen = 0

/-- A computation after whole blocks of `n` bytes: it takes more, or `n` is too long a message. -/
inductive HashProgress (v : Variant) (x : BitVec 10) (n : Nat) (s : State) : Prop where
  | absorbing (hn : n ≤ Config.maxMsgBytes) (h : Absorbing v x n s)
  | overflowed (hn : Config.maxMsgBytes < n) (h : Latched .lengthOverflow 0 s)

section

variable {v : Variant} {x : BitVec 10} {n : Nat} {s : State}

theorem Latched.loadThenCommand {code : FaultCode} {d : BitVec 10} (h : Latched code d s)
    {bs : List Byte} (hbs : bs.length ≤ 168) {i : Instr} (hi : i.WellFormed) :
    Latched code d (runEvents (loadBlk bs ++ [commandWrite i]) s) := by
  have hu : Latched code d { s with resp := .ack, blk := overlay bs s.blk } :=
    ⟨h.phase, h.fcode, h.dlen⟩
  rw [loadThenCommand_effect hbs hi, unlessFault_fault hu.phase]
  exact hu

theorem Absorbing.not_fault (h : Absorbing v x n s) : s.phase ≠ .fault := by
  simp [h.phase]

theorem Absorbing.loadThenCommand (h : Absorbing v x n s) {bs : List Byte}
    (hbs : bs.length ≤ 168) {i : Instr} (hi : i.WellFormed) : ∃ u, Absorbing v x n u ∧
      runEvents (loadBlk bs ++ [commandWrite i]) s = commandEffect i u := by
  have hu : Absorbing v x n { s with resp := .ack, blk := overlay bs s.blk } :=
    ⟨h.phase, h.var, h.xofn, h.len, h.dlen⟩
  refine ⟨_, hu, ?_⟩
  rw [loadThenCommand_effect hbs hi, unlessFault_ok hu.not_fault]

/-- BLOCK consumes one more block where the message bound allows it, and overflows otherwise
(R104). -/
theorem Absorbing.blockEffect_progress (h : Absorbing v x n s) :
    HashProgress v x (n + v.blockBytes) (blockEffect s) := by
  obtain ⟨hp, rfl, hx, rfl, hd⟩ := h
  rcases blockEffect_cases s with ⟨hne, -⟩ | ⟨-, hl, he⟩ | ⟨-, hl, he⟩
  · exact absurd hp hne
  · rw [he]
    exact .overflowed ((lengthOverflows_iff _ _).1 hl) ⟨rfl, rfl, hd⟩
  · have hle := (lengthOverflows_false_iff _ _).1 hl
    obtain ⟨h, sp, hc, -, -⟩ := consumeBlock_frame s
    rw [he, hc]
    exact .absorbing hle ⟨hp, rfl, hx, len_add hle, hd⟩

/-- FINAL writes a digest of XOFN bytes where the message bound allows the remainder (R105). -/
theorem Absorbing.finalEffect_done (h : Absorbing v x n s) {lst : Byte}
    (hlst : lst.toNat < v.blockBytes) (hle : n + lst.toNat ≤ Config.maxMsgBytes) :
    (finalEffect lst s).phase = .done ∧ (finalEffect lst s).dlen = x := by
  obtain ⟨hp, rfl, rfl, rfl, hd⟩ := h
  rw [finalEffect_finishes hp hlst hle]
  obtain ⟨h, sp, d, hc, -, -⟩ := finishComputation_frame lst.toNat
    { s with len := s.len + BitVec.ofNat 64 lst.toNat }
  rw [hc]
  exact ⟨rfl, rfl⟩

/-- FINAL of a remainder that makes the message too long overflows (R105). -/
theorem Absorbing.finalEffect_overflows (h : Absorbing v x n s) {lst : Byte}
    (hlst : lst.toNat < v.blockBytes) (hgt : Config.maxMsgBytes < n + lst.toNat) :
    Latched .lengthOverflow 0 (finalEffect lst s) := by
  obtain ⟨hp, rfl, hx, rfl, hd⟩ := h
  rcases finalEffect_cases lst s with ⟨hne, -⟩ | ⟨-, hb, -⟩ | ⟨-, -, -, he⟩ | ⟨-, -, hl, -⟩
  · exact absurd hp hne
  · omega
  · rw [he]
    exact ⟨rfl, rfl, hd⟩
  · have := (lengthOverflows_false_iff _ _).1 hl
    omega

/-- One more LOADBLK and BLOCK of the procedure. -/
theorem HashProgress.block (h : HashProgress v x n s) {bs : List Byte} (hbs : bs.length ≤ 168) :
    HashProgress v x (n + v.blockBytes) (runEvents (loadBlk bs ++ [commandWrite .block]) s) := by
  cases h with
  | absorbing _ h =>
    obtain ⟨u, hu, he⟩ := h.loadThenCommand hbs (i := .block) rfl
    rw [he]
    exact hu.blockEffect_progress
  | overflowed hn h => exact .overflowed (by omega) (h.loadThenCommand hbs rfl)

end

/-- The accesses of the procedure for the first `q` full blocks (R106). -/
def blockAccesses (v : Variant) (m : List Byte) (q : Nat) : List HostEvent :=
  (List.range q).flatMap fun j =>
    loadBlk (slice m (j * v.blockBytes) v.blockBytes) ++ [commandWrite .block]

theorem blockAccesses_succ (v : Variant) (m : List Byte) (q : Nat) :
    blockAccesses v m (q + 1) = blockAccesses v m q ++
      (loadBlk (slice m (q * v.blockBytes) v.blockBytes) ++ [commandWrite .block]) := by
  simp [blockAccesses, List.range_succ]

/-- What every LOADBLK and BLOCK carries on, the blocks of the procedure carry on. -/
theorem blockAccesses_induction {P : Nat → State → Prop} {v : Variant}
    (hblock : ∀ {n : Nat} {s : State} {bs : List Byte}, P n s → bs.length ≤ 168 →
      P (n + v.blockBytes) (runEvents (loadBlk bs ++ [commandWrite .block]) s))
    {s : State} (h0 : P 0 s) (m : List Byte) (q : Nat) :
    P (q * v.blockBytes) (runEvents (blockAccesses v m q) s) := by
  induction q with
  | zero => rw [Nat.zero_mul]; exact h0
  | succ q ih =>
    rw [blockAccesses_succ, runEvents_append, Nat.succ_mul]
    exact hblock ih ((List.length_take_le _ _).trans (blockBytes_le v))

/-- The state that the INIT of the procedure leaves. -/
def afterInit (v : Variant) (s : State) : State :=
  eventEffect (commandWrite (.init (BitVec.ofNat 8 v.id))) s

/-- The remainder that the procedure hands to FINAL (R106). -/
def remainder (v : Variant) (m : List Byte) : List Byte :=
  m.drop (m.length / v.blockBytes * v.blockBytes)

theorem remainder_length (v : Variant) (m : List Byte) :
    (remainder v m).length = m.length % v.blockBytes := by
  rw [remainder, List.length_drop, Nat.mod_eq_sub_div_mul]

theorem remainder_lt (v : Variant) (m : List Byte) :
    (remainder v m).length < v.blockBytes := by
  rw [remainder_length]
  exact Nat.mod_lt _ (blockBytes_pos v)

theorem remainder_le (v : Variant) (m : List Byte) : (remainder v m).length ≤ 168 :=
  (remainder_lt v m).le.trans (blockBytes_le v)

/-- The lst operand of the procedure's FINAL is the length of the remainder. -/
theorem remainder_lst (v : Variant) (m : List Byte) :
    (BitVec.ofNat 8 (remainder v m).length).toNat = (remainder v m).length := by
  have := remainder_le v m
  rw [BitVec.toNat_ofNat, Nat.mod_eq_of_lt (by omega)]

/-- The procedure is INIT, the full blocks, then the remainder with FINAL (R106). -/
theorem runEvents_hashAccesses (v : Variant) (m : List Byte) (s : State) :
    runEvents (hashAccesses v m) s =
      runEvents (loadBlk (remainder v m) ++
          [commandWrite (.final (BitVec.ofNat 8 (remainder v m).length))])
        (runEvents (blockAccesses v m (m.length / v.blockBytes)) (afterInit v s)) := by
  rw [← runEvents_append, afterInit, ← runEvents_cons, remainder, List.length_drop, hashAccesses,
    blockAccesses]
  simp only [List.cons_append, List.append_assoc]

/-- The OUTBITS that INIT of the variant takes (R103). -/
def OutbitsFit (v : Variant) (outbits : Word32) : Prop :=
  v.isShake = true → outbits.toNat % 8 = 0 ∧ outbits.toNat ≤ 4096

theorem outbitsFit_iff (v : Variant) (outbits : Word32) :
    OutbitsFit v outbits ↔ ¬ (v.isShake = true ∧ badOutbits outbits = true) := by
  rw [OutbitsFit, badOutbits_iff, not_and]
  exact imp_congr_right fun _ => by omega

theorem afterInit_eq (v : Variant) (s : State) :
    afterInit v s =
      unlessFault (initEffect (BitVec.ofNat 8 v.id)) { s with resp := .ack } := by
  have hwf : (Instr.init (BitVec.ofNat 8 v.id)).WellFormed := by
    obtain v | v := v <;> cases v <;> decide
  exact commandWrite_effect (decodeAfterEncode _ hwf) s

theorem initVariant_ofNat_id (v : Variant) : initVariant (BitVec.ofNat 8 v.id) = some v :=
  initVariant_of_id (by obtain v | v := v <;> cases v <;> rfl)

/-- The INIT of the procedure outside FAULT: the variant is supported, so OUTBITS decides (R103). -/
theorem initEffect_ofNat_id (v : Variant) (s : State) :
    initEffect (BitVec.ofNat 8 v.id) s =
      if v.isShake && badOutbits s.outbits then raiseFault .badArgument s
      else startComputation v s := by
  rw [initEffect, initVariant_ofNat_id]

theorem afterInit_ignored {s : State} (hs : s.phase = .fault) (v : Variant) :
    Latched s.fcode s.dlen (afterInit v s) := by
  rw [afterInit_eq, unlessFault_fault (s := { s with resp := .ack }) hs]
  exact ⟨hs, rfl, rfl⟩

theorem afterInit_refused {v : Variant} {s : State} (hs : s.phase ≠ .fault)
    (hfit : ¬ OutbitsFit v s.outbits) : Latched .badArgument s.dlen (afterInit v s) := by
  rw [outbitsFit_iff, not_not] at hfit
  rw [afterInit_eq, unlessFault_ok (s := { s with resp := .ack }) hs, initEffect_ofNat_id,
    if_pos (by simpa using hfit)]
  exact ⟨rfl, rfl, rfl⟩

theorem afterInit_absorbing {v : Variant} {s : State} (hs : s.phase ≠ .fault)
    (hfit : OutbitsFit v s.outbits) : Absorbing v (initXofn v s.outbits) 0 (afterInit v s) := by
  rw [outbitsFit_iff] at hfit
  rw [afterInit_eq, unlessFault_ok (s := { s with resp := .ack }) hs, initEffect_ofNat_id,
    if_neg (by simpa using hfit)]
  exact ⟨rfl, rfl, rfl, rfl, rfl⟩

/-- A core that INIT leaves in FAULT stays there to the end of the procedure (R102, R106). -/
theorem hash_latched {v : Variant} {code : FaultCode} {d : BitVec 10} {s : State}
    (h : Latched code d (afterInit v s)) (m : List Byte) :
    Latched code d (runEvents (hashAccesses v m) s) := by
  rw [runEvents_hashAccesses]
  have hblocks : Latched code d
      (runEvents (blockAccesses v m (m.length / v.blockBytes)) (afterInit v s)) :=
    blockAccesses_induction (P := fun _ => Latched code d)
      (fun h hbs => h.loadThenCommand hbs rfl) h m _
  exact hblocks.loadThenCommand (remainder_le v m) rfl

/-- After INIT and `q` blocks of the procedure (R106). -/
theorem hash_blocks {v : Variant} {s : State} (hs : s.phase ≠ .fault)
    (hfit : OutbitsFit v s.outbits) (m : List Byte) (q : Nat) :
    HashProgress v (initXofn v s.outbits) (q * v.blockBytes)
      (runEvents (blockAccesses v m q) (afterInit v s)) :=
  blockAccesses_induction (fun h hbs => h.block hbs)
    (.absorbing (Nat.zero_le _) (afterInit_absorbing hs hfit)) m q

theorem blocks_add_remainder (v : Variant) (m : List Byte) :
    m.length / v.blockBytes * v.blockBytes + (remainder v m).length = m.length := by
  rw [remainder_length, Nat.div_add_mod']

/-- The procedure completes where nothing refuses it (R106). -/
theorem hash_done {v : Variant} {s : State} (hs : s.phase ≠ .fault)
    (hfit : OutbitsFit v s.outbits) {m : List Byte} (hm : m.length ≤ Config.maxMsgBytes) :
    (runEvents (hashAccesses v m) s).phase = .done ∧
      (runEvents (hashAccesses v m) s).dlen = initXofn v s.outbits := by
  rw [← blocks_add_remainder v m, ← remainder_lst] at hm
  rw [runEvents_hashAccesses]
  cases hash_blocks hs hfit m (m.length / v.blockBytes) with
  | absorbing _ h =>
    obtain ⟨u, hu, he⟩ := h.loadThenCommand (remainder_le v m) (i := .final _) rfl
    rw [he]
    exact hu.finalEffect_done ((remainder_lst v m).trans_lt (remainder_lt v m)) hm
  | overflowed hn => omega

/-- The procedure for too long a message ends in LENGTH_OVERFLOW, with no digest (R104 to R106). -/
theorem hash_overflows {v : Variant} {s : State} (hs : s.phase ≠ .fault)
    (hfit : OutbitsFit v s.outbits) {m : List Byte} (hm : Config.maxMsgBytes < m.length) :
    Latched .lengthOverflow 0 (runEvents (hashAccesses v m) s) := by
  rw [← blocks_add_remainder v m, ← remainder_lst] at hm
  rw [runEvents_hashAccesses]
  cases hash_blocks hs hfit m (m.length / v.blockBytes) with
  | absorbing _ h =>
    obtain ⟨u, hu, he⟩ := h.loadThenCommand (remainder_le v m) (i := .final _) rfl
    rw [he]
    exact hu.finalEffect_overflows ((remainder_lst v m).trans_lt (remainder_lt v m)) hm
  | overflowed _ h => exact h.loadThenCommand (remainder_le v m) rfl

theorem thenReadDigest_eq (es : List HostEvent) (s : State) :
    thenReadDigest es s = es ++ readDigest (runEvents es s).dlen.toNat := by
  rw [thenReadDigest, afterAccesses_eq]

/-- Settles O35: the line reads the DLEN that the procedure leaves, which is XOFN where it completes,
the one from before where INIT does not start it, and 0 where it overflows. -/
theorem hashLineReadsDlenBytes : Obligations.HashLineReadsDlenBytes := by
  intro v m s outbitsFit reads
  have reads_of_dlen {n : Nat} (h : (runEvents (hashAccesses v m) s).dlen.toNat = n) : reads n := by
    rw [← h]
    exact thenReadDigest_eq _ _
  refine ⟨fun hs hfit hm => reads_of_dlen ?_, fun h => reads_of_dlen ?_,
    fun hs hfit hm => reads_of_dlen ?_, fun bits => ?_⟩
  · rw [(hash_done hs hfit hm).2, initXofn_toNat ((outbitsFit_iff _ _).1 hfit)]
  · by_cases hs : s.phase = .fault
    · rw [(hash_latched (afterInit_ignored hs v) m).dlen]
    · rw [(hash_latched (afterInit_refused hs (h.resolve_left hs)) m).dlen]
  · rw [(hash_overflows hs hfit hm).dlen]; rfl
  · simp only [lineAccesses, thenReadDigest_eq, runEvents_cons, setXof_effect, List.cons_append]

end Sys2Proof.Machine
end

section
/-! Packing and unpacking (R53 to R57): the words of a byte sequence and the bytes of a word are inverse, so the sequences are. -/

namespace Sys2Proof

/-- Rewriting every k-byte slice of a sequence to itself gives the sequence back. -/
theorem flatMap_range_of_slices (bs : List Byte) (k : Nat) (h : bs.length % k = 0)
    (f : Nat → List Byte)
    (hf : ∀ j, (slice bs (j * k) k).length = k → f j = slice bs (j * k) k) :
    (List.range (bs.length / k)).flatMap f = bs := by
  have hlen : bs.length = bs.length / k * k := (Nat.div_mul_cancel (Nat.dvd_of_mod_eq_zero h)).symm
  calc (List.range (bs.length / k)).flatMap f
    _ = (List.range (bs.length / k)).flatMap fun j => slice bs (j * k) k := by
      refine List.flatMap_congr fun j hj => hf j (slice_length _ _ _ ?_)
      have := Nat.mul_le_mul_right k (List.mem_range.1 hj)
      rw [Nat.succ_mul] at this
      omega
    _ = bs := flatMap_range_slice bs k _ hlen

/-- Reading back every k-byte slice of a concatenation of k-byte pieces gives the items in order. -/
theorem map_range_flatMap {α} (ls : List α) (f : α → List Byte) (k : Nat) (hk : 0 < k)
    (hf : ∀ x ∈ ls, (f x).length = k) (g : List Byte → α) (hg : ∀ x, g (f x) = x) :
    (List.range ((ls.flatMap f).length / k)).map (fun j => g (slice (ls.flatMap f) (j * k) k)) =
      ls := by
  have hlen : (ls.flatMap f).length / k = ls.length := by
    rw [length_flatMap_const ls f k hf, Nat.mul_div_cancel _ hk]
  rw [hlen]
  refine List.ext_getElem (by simp) fun j _ hj => ?_
  rw [List.getElem_map, List.getElem_range, slice_flatMap ls f k hf j hj, hg]

/-! ### Big-endian words -/

theorem two_pow_eq_bytes {w : Nat} (hw : w % 8 = 0) : 2 ^ w = 256 ^ (w / 8) := by
  rw [show 256 = 2 ^ 8 from rfl, ← Nat.pow_mul, Nat.mul_div_cancel' (Nat.dvd_of_mod_eq_zero hw)]

/-- The bytes of a packed word are the bytes it was packed from (R53, R57). -/
theorem beBytes_ofNat_beNat {w : Nat} (hw : w % 8 = 0) {bs : List Byte}
    (hlen : bs.length = w / 8) : beBytes (BitVec.ofNat w (beNat bs)).toNat (w / 8) = bs := by
  have hlt : beNat bs < 2 ^ w := by rw [two_pow_eq_bytes hw, ← hlen]; exact beNat_lt bs
  rw [BitVec.toNat_ofNat, Nat.mod_eq_of_lt hlt, ← hlen, beBytes_beNat]

/-- The word packed from a word's bytes is the word (R53, R57). -/
theorem ofNat_beNat_beBytes {w : Nat} (hw : w % 8 = 0) (x : BitVec w) :
    BitVec.ofNat w (beNat (beBytes x.toNat (w / 8))) = x := by
  rw [beNat_beBytes, ← two_pow_eq_bytes hw, Nat.mod_eq_of_lt x.isLt, BitVec.ofNat_toNat,
    BitVec.setWidth_eq]

theorem unpackBe_packBe {w : Nat} (hw : w % 8 = 0) (bs : List Byte)
    (h : bs.length % (w / 8) = 0) : unpackBe (packBe w bs) = bs := by
  rw [unpackBe, packBe, List.flatMap_map]
  exact flatMap_range_of_slices bs (w / 8) h _ fun _ hlen => beBytes_ofNat_beNat hw hlen

theorem packBe_unpackBe {w : Nat} (hw : w % 8 = 0) (hpos : 0 < w / 8) (ws : List (BitVec w)) :
    packBe w (unpackBe ws) = ws :=
  map_range_flatMap ws _ (w / 8) hpos (fun _ _ => beBytes_length _ _)
    (fun bs => BitVec.ofNat w (beNat bs)) (ofNat_beNat_beBytes hw)

/-- Settles O54, from the round trips at any width that is a positive number of bytes. -/
theorem bigEndianPackingRoundTrips : Obligations.BigEndianPackingRoundTrips :=
  ⟨unpackBe_packBe (w := 32) rfl, unpackBe_packBe (w := 64) rfl, packBe_unpackBe rfl (by decide),
    packBe_unpackBe rfl (by decide)⟩

/-! ### Little-endian lanes -/

/-- The eight bytes of a lane, byte 0 first (R56). -/
def laneBytes (x : Word64) : List Byte := (List.range 8).map fun i => x.extractLsb' (8 * i) 8

theorem unpackLe64_eq (ls : List Word64) : unpackLe64 ls = ls.flatMap laneBytes := rfl

@[simp] theorem laneBytes_length (x : Word64) : (laneBytes x).length = 8 := by simp [laneBytes]

theorem laneBytes_getElem (x : Word64) (i : Nat) (hi : i < (laneBytes x).length) :
    (laneBytes x)[i] = x.extractLsb' (8 * i) 8 := by simp [laneBytes]

/-- A bit of the lane packed from a byte sequence (R55). -/
theorem ofNat_leNat_bit (bs : List Byte) {i : Nat} (hi : i < 64) :
    (BitVec.ofNat 64 (leNat bs)).getLsbD i = (bs.getD (i / 8) 0).getLsbD (i % 8) := by
  rw [BitVec.getLsbD_ofNat, leNat_testBit, decide_eq_true hi, Bool.true_and]

theorem laneBytes_ofNat_leNat {bs : List Byte} (hlen : bs.length = 8) :
    laneBytes (BitVec.ofNat 64 (leNat bs)) = bs := by
  refine List.ext_getElem (by simp [hlen]) fun i _ hi => BitVec.eq_of_getLsbD_eq fun j hj => ?_
  rw [laneBytes_getElem, BitVec.getLsbD_extractLsb', ofNat_leNat_bit bs (by omega),
    show (8 * i + j) / 8 = i by omega, show (8 * i + j) % 8 = j by omega,
    List.getD_eq_getElem _ _ hi, decide_eq_true hj, Bool.true_and]

theorem ofNat_leNat_laneBytes (x : Word64) : BitVec.ofNat 64 (leNat (laneBytes x)) = x := by
  refine BitVec.eq_of_getLsbD_eq fun i hi => ?_
  have hbyte : i / 8 < (laneBytes x).length := by rw [laneBytes_length]; omega
  rw [ofNat_leNat_bit _ hi, List.getD_eq_getElem _ _ hbyte, laneBytes_getElem,
    BitVec.getLsbD_extractLsb', Nat.div_add_mod, decide_eq_true (by omega), Bool.true_and]

theorem packLe64_eq (bs : List Byte) :
    packLe64 bs =
      (List.range (bs.length / 8)).map fun j => BitVec.ofNat 64 (leNat (slice bs (j * 8) 8)) := by
  simp only [packLe64, Nat.mul_comm]

/-- Settles O55: a lane and its eight bytes determine each other, slice by slice. -/
theorem littleEndianPackingRoundTrips : Obligations.LittleEndianPackingRoundTrips := by
  refine ⟨fun bs h => ?_, fun ls => ?_⟩
  · rw [packLe64_eq, unpackLe64_eq, List.flatMap_map]
    exact flatMap_range_of_slices bs 8 h _ fun _ hlen => laneBytes_ofNat_leNat hlen
  · rw [packLe64_eq, unpackLe64_eq]
    exact map_range_flatMap ls laneBytes 8 (by decide) (fun x _ => laneBytes_length x)
      (fun bs => BitVec.ofNat 64 (leNat bs)) ofNat_leNat_laneBytes

end Sys2Proof
end

section
/-! Rotates (R47, R48) and the boolean functions (R50 to R52), bit by bit at any width. -/

namespace Sys2Proof

/-! ### Rotates -/

theorem rotl_eq_rotr {w : Nat} (x : BitVec w) (n : Nat) :
    rotl x n = rotr x ((w - n % w) % w) := by
  refine BitVec.eq_of_getLsbD_eq fun i hi => ?_
  rw [rotl_bit x n i hi, rotr_bit x _ i hi, Nat.add_mod_mod]

theorem rotr_width_mul {w : Nat} (x : BitVec w) (n : Nat) : rotr x (w * n) = x := by
  refine BitVec.eq_of_getLsbD_eq fun i hi => ?_
  rw [rotr_bit x _ i hi, Nat.add_mul_mod_self_left, Nat.mod_eq_of_lt hi]

/-- Moving by `n` and on by its complement comes to the same place modulo the width. -/
theorem add_add_complement_mod {w : Nat} {i : Nat} (hi : i < w) (n : Nat) :
    ((i + n) % w + (w - n % w)) % w = i := by
  have hturns : i + n + (w - n % w) = i + w * (n / w + 1) := by
    have := Nat.mod_lt n (Nat.zero_lt_of_lt hi)
    have := Nat.div_add_mod n w
    rw [Nat.mul_succ]
    omega
  rw [Nat.mod_add_mod, hturns, Nat.add_mul_mod_self_left, Nat.mod_eq_of_lt hi]

theorem rotr_rotl {w : Nat} (x : BitVec w) (n : Nat) : rotr (rotl x n) n = x := by
  refine BitVec.eq_of_getLsbD_eq fun i hi => ?_
  rw [rotr_bit _ n i hi, rotl_bit x n _ (Nat.mod_lt _ (Nat.zero_lt_of_lt hi)),
    add_add_complement_mod hi]

/-- Settles O57, from the three identities at any width. -/
theorem rotatesAreInverse : Obligations.RotatesAreInverse :=
  ⟨fun x n => ⟨rotl_eq_rotr x n, rotr_width_mul x n, rotr_rotl x n⟩,
    fun x n => ⟨rotl_eq_rotr x n, rotr_width_mul x n, rotr_rotl x n⟩⟩

/-! ### Boolean functions -/

section
variable {w : Nat} (x y z : BitVec w) {i : Nat}

theorem ch_bit (hi : i < w) :
    (ch x y z).getLsbD i = if x.getLsbD i then y.getLsbD i else z.getLsbD i := by
  rw [ch, BitVec.getLsbD_xor, BitVec.getLsbD_and, BitVec.getLsbD_and, BitVec.getLsbD_not]
  cases x.getLsbD i <;> simp [hi]

/-- The bit of Maj is a sum of products of bits, which is a vote of the three (R51). -/
theorem maj_bit :
    (maj x y z).getLsbD i = true ↔
      2 ≤ (x.getLsbD i).toNat + (y.getLsbD i).toNat + (z.getLsbD i).toNat := by
  have vote : ∀ a b c : Bool,
      (((a && b) ^^ (a && c)) ^^ (b && c)) = true ↔ 2 ≤ a.toNat + b.toNat + c.toNat := by decide
  simp only [maj, BitVec.getLsbD_xor, BitVec.getLsbD_and, vote]

theorem parity_bit :
    (parity x y z).getLsbD i = (x.getLsbD i ^^ y.getLsbD i ^^ z.getLsbD i) := by
  rw [parity, BitVec.getLsbD_xor, BitVec.getLsbD_xor]

end

/-- Settles O56: each function acts on the bits at one place. -/
theorem booleanFunctionsBitByBit : Obligations.BooleanFunctionsBitByBit :=
  fun _ x y z _ hi => ⟨ch_bit x y z hi, maj_bit x y z, parity_bit x y z⟩

end Sys2Proof
end

section
/-! The digest as the host reads it from DOUT (R20, R25, R58). -/

namespace Sys2Proof.Machine

/-- Beyond DLEN the digest has no byte and DOUT holds 0 (R20), so the two agree at every offset. -/
theorem digestOf_getD {s : State} (hs : s.Inv) {i : Nat} (hi : i < 512) :
    (digestOf s).getD i 0 = s.dout[i] := by
  rw [digestOf, List.getD_eq_getElem?_getD, List.getElem?_take]
  by_cases hlt : i < s.dlen.toNat
  · simp [hlt, hi]
  · simpa [hlt] using (hs.doutTail ⟨i, hi⟩ (Nat.le_of_not_lt hlt)).symm

/-- Settles O36: a byte read of DOUT answers the byte of DOUT, which is the digest's. -/
theorem readDigestReturnsDigest : Obligations.ReadDigestReturnsDigest := by
  intro s i rest hs hi
  rw [digestOf_getD hs hi, ← BitVec.ofNat_toNat]
  exact step_read_data (memRead_byte (admitted_dout_byte i hi) (windowByte_dout s i hi)) rest

end Sys2Proof.Machine
end

section
/-! Hex rendering and parsing of a digest (R62 to R64). -/

namespace Sys2Proof

/-! ### The digits of a rendering -/

theorem toHex_length (d : List Byte) : (toHex d).length = 2 * d.length := by
  induction d with
  | nil => rfl
  | cons b d ih => rw [toHex_cons, List.length_cons, List.length_cons, List.length_cons, ih]; omega

/-- The high nibble of byte i stands at place 2i (R62). -/
theorem toHex_getElem?_high (d : List Byte) (i : Nat) :
    (toHex d)[2 * i]? = d[i]?.map fun b => hexDigit (b.toNat / 16) := by
  induction d generalizing i with
  | nil => rfl
  | cons b d ih =>
    cases i with
    | zero => rfl
    | succ i => exact ih i

/-- The low nibble of byte i stands at place 2i + 1 (R62). -/
theorem toHex_getElem?_low (d : List Byte) (i : Nat) :
    (toHex d)[2 * i + 1]? = d[i]?.map fun b => hexDigit (b.toNat % 16) := by
  induction d generalizing i with
  | nil => rfl
  | cons b d ih =>
    cases i with
    | zero => rfl
    | succ i => exact ih i

theorem hexDigits_getElem? {v : Nat} (hv : v < 16) : hexDigits[v]? = some (hexDigit v) := by
  have hlen : v < hexDigits.length := hv
  rw [hexDigit, List.getD_eq_getElem _ _ hlen, List.getElem?_eq_getElem hlen]

theorem byte_div_16_lt (b : Byte) : b.toNat / 16 < 16 := by
  have := b.isLt
  omega

theorem byte_mod_16_lt (b : Byte) : b.toNat % 16 < 16 := Nat.mod_lt _ (by decide)

theorem toHex_hexVal_isSome (d : List Byte) : ∀ c ∈ toHex d, (hexVal c).isSome := by
  intro c hc
  obtain ⟨b, -, hb⟩ := List.mem_flatMap.1 hc
  obtain rfl | rfl : c = hexDigit (b.toNat / 16) ∨ c = hexDigit (b.toNat % 16) := by simpa using hb
  · rw [hexVal_digit _ (byte_div_16_lt b)]; rfl
  · rw [hexVal_digit _ (byte_mod_16_lt b)]; rfl

/-! ### The value of a character -/

/-- The digits of R63 with the upper-case letters. -/
def upperHexDigits : List Char :=
  ['0', '1', '2', '3', '4', '5', '6', '7', '8', '9', 'A', 'B', 'C', 'D', 'E', 'F']

/-- Where `ds` lists the characters from `lo` to `hi` in order from place `off`, a character of that
range stands at its distance from `lo`. -/
theorem getElem?_of_mem_range {ds : List Char} {lo hi c : Char} (off : Nat)
    (hds : ∀ k, k < hi.toNat + 1 - lo.toNat → ds[k + off]? = some (Char.ofNat (lo.toNat + k)))
    (h : lo ≤ c ∧ c ≤ hi) : ds[c.toNat - lo.toNat + off]? = some c := by
  have hlo : lo.toNat ≤ c.toNat := h.1
  have hhi : c.toNat ≤ hi.toNat := h.2
  rw [hds _ (by omega), Nat.add_sub_cancel' hlo, Char.ofNat_toNat]

/-- The three ranges of R63 list the digits of either case in order. -/
theorem digit_of_hexVal {c : Char} {n : Nat} (h : hexVal c = some n) :
    hexDigits[n]? = some c ∨ upperHexDigits[n]? = some c := by
  unfold hexVal at h
  split_ifs at h with decimal lower upper
  · cases h; exact .inl (getElem?_of_mem_range 0 (by decide) decimal)
  · cases h; exact .inl (getElem?_of_mem_range 10 (by decide) lower)
  · cases h; exact .inr (getElem?_of_mem_range 10 (by decide) upper)

theorem hexVal_of_digit {c : Char} {n : Nat}
    (h : hexDigits[n]? = some c ∨ upperHexDigits[n]? = some c) : hexVal c = some n := by
  have upper : ∀ k (hk : k < upperHexDigits.length), hexVal upperHexDigits[k] = some k := by decide
  obtain h | h := h
  · obtain ⟨hn, -⟩ := List.getElem?_eq_some_iff.1 h
    rw [hexDigits_getElem? hn] at h
    cases h
    exact hexVal_digit n hn
  · obtain ⟨hn, rfl⟩ := List.getElem?_eq_some_iff.1 h
    exact upper n hn

theorem hexVal_eq_some_iff (c : Char) (n : Nat) :
    hexVal c = some n ↔ hexDigits[n]? = some c ∨ upperHexDigits[n]? = some c :=
  ⟨digit_of_hexVal, hexVal_of_digit⟩

theorem hexVal_lt {c : Char} {n : Nat} (h : hexVal c = some n) : n < 16 := by
  obtain h | h := digit_of_hexVal h
  · exact (List.getElem?_eq_some_iff.1 h).1
  · exact (List.getElem?_eq_some_iff.1 h).1

/-! ### Parsing -/

theorem hexNibble_eq (s : List Char) (i : Nat) : hexNibble s i = (s[i]?.bind hexVal).getD 0 := by
  unfold hexNibble
  cases s[i]? <;> rfl

theorem hexNibble_lt (s : List Char) (i : Nat) : hexNibble s i < 16 := by
  rw [hexNibble_eq]
  cases h : s[i]?.bind hexVal with
  | none => decide
  | some v =>
    obtain ⟨c, -, hc⟩ := Option.bind_eq_some_iff.1 h
    exact hexVal_lt hc

/-- Byte i of what `fromHex` gives: its two digits, high nibble first (R63). -/
def hexByte (s : List Char) (i : Nat) : Byte :=
  BitVec.ofNat 8 (hexNibble s (2 * i) * 16 + hexNibble s (2 * i + 1))

theorem hexByte_toNat (s : List Char) (i : Nat) :
    (hexByte s i).toNat = hexNibble s (2 * i) * 16 + hexNibble s (2 * i + 1) := by
  have := hexNibble_lt s (2 * i)
  have := hexNibble_lt s (2 * i + 1)
  rw [hexByte, BitVec.toNat_ofNat]
  exact Nat.mod_eq_of_lt (by omega)

theorem fromHex_of_invalid {s : List Char} (h : ∃ c ∈ s, hexVal c = none) (n : Nat) :
    fromHex s n = .error .invalidEncoding :=
  if_pos (by simpa [List.any_eq_true] using h)

theorem fromHex_of_valid {s : List Char} (h : ∀ c ∈ s, (hexVal c).isSome) (n : Nat) :
    fromHex s n = .ok ((List.range n).map (hexByte s)) :=
  if_neg (by simpa [← Option.isSome_iff_ne_none] using h)

/-- Settles O59, from the places of the digits, the values of the characters, and the bytes of a
parsed string. -/
theorem hexParsing : Obligations.HexParsing := by
  refine ⟨toHex_length, fun d i h => ⟨?high, ?low⟩, hexVal_eq_some_iff,
    fun s n h => fromHex_of_invalid h n,
    fun s n h => ⟨_, fromHex_of_valid h n, by simp, fun i hi => ?byte⟩⟩
  case high =>
    rw [toHex_getElem?_high, List.getElem?_eq_getElem h]
    exact (hexDigits_getElem? (byte_div_16_lt d[i])).symm
  case low =>
    rw [toHex_getElem?_low, List.getElem?_eq_getElem h]
    exact (hexDigits_getElem? (byte_mod_16_lt d[i])).symm
  case byte =>
    have hget : ((List.range n).map (hexByte s)).getD i 0 = hexByte s i := by simp [hi]
    rw [hget, hexByte_toNat, hexNibble_eq, hexNibble_eq]

/-- The two nibbles of a rendered byte are its two hex digits, so together they are the byte. -/
theorem hexByte_toHex (d : List Byte) {i : Nat} (hi : i < d.length) :
    hexByte (toHex d) i = d[i] := by
  have hhigh : hexNibble (toHex d) (2 * i) = d[i].toNat / 16 := by
    simp [hexNibble_eq, toHex_getElem?_high, hi, hexVal_digit _ (byte_div_16_lt d[i])]
  have hlow : hexNibble (toHex d) (2 * i + 1) = d[i].toNat % 16 := by
    simp [hexNibble_eq, toHex_getElem?_low, hi, hexVal_digit _ (byte_mod_16_lt d[i])]
  apply BitVec.eq_of_toNat_eq
  rw [hexByte_toNat, hhigh, hlow]
  exact Nat.div_add_mod' _ 16

/-- Settles O58: every character of a rendering has a value, and each pair gives its byte back. -/
theorem hexRoundTrip : Obligations.HexRoundTrip := by
  intro d
  rw [fromHex_of_valid (toHex_hexVal_isSome d)]
  congr 1
  refine List.ext_getElem (by simp) fun i _ hi => ?_
  rw [List.getElem_map, List.getElem_range, hexByte_toHex d hi]

end Sys2Proof
end

section
/-! Equality and order of digests (R60). -/

namespace Sys2Proof

theorem digestEqual_iff (d1 d2 : List Byte) : digestEqual d1 d2 = true ↔ d1 = d2 := by
  constructor
  · intro h
    simp only [digestEqual, Bool.and_eq_true, beq_iff_eq, List.all_eq_true, List.mem_range] at h
    obtain ⟨hlen, hbyte⟩ := h
    refine List.ext_getElem hlen fun i h1 h2 => ?_
    simpa [h1, h2] using hbyte i h1
  · rintro rfl
    simp [digestEqual]

/-- The order of digests is the lexicographic order of the sequences of their bytes' numbers. -/
theorem digestLess_iff (d1 d2 : List Byte) :
    digestLess d1 d2 = true ↔ d1.map BitVec.toNat < d2.map BitVec.toNat := by
  induction d1 generalizing d2 with
  | nil =>
    cases d2 with
    | nil => simp [digestLess]
    | cons b d2 => simp [digestLess]
  | cons a d1 ih =>
    cases d2 with
    | nil => simp [digestLess]
    | cons b d2 =>
      rw [List.map_cons, List.map_cons, List.cons_lt_cons_iff, ← ih d2, BitVec.toNat_inj]
      simp [digestLess]

/-- The numbers of its bytes determine a digest. -/
theorem map_toNat_injective : Function.Injective (List.map (BitVec.toNat : Byte → Nat)) :=
  List.map_injective_iff.2 BitVec.toNat_injective

/-- Settles O60: the order is that of sequences of numbers, which is linear. -/
theorem digestEqualityAndOrder : Obligations.DigestEqualityAndOrder := by
  unfold Obligations.DigestEqualityAndOrder
  refine ⟨digestEqual_iff, fun d => ?irreflexive, fun d1 d2 d3 => ?transitive,
    fun d1 d2 hne => ?total, fun d1 d2 hne => ?extension, fun p d1 d2 a b hab => ?firstDifference⟩
  case irreflexive =>
    rw [← Bool.not_eq_true, digestLess_iff]
    exact lt_irrefl _
  case transitive =>
    simp only [digestLess_iff]
    exact lt_trans
  case total =>
    simp only [digestLess_iff]
    exact lt_or_gt_of_ne (map_toNat_injective.ne hne)
  case extension =>
    obtain ⟨b, d2, rfl⟩ := List.exists_cons_of_ne_nil hne
    rw [digestLess_iff, List.map_append]
    simpa using List.append_left_lt (l₁ := d1.map BitVec.toNat) (List.nil_lt_cons b.toNat _)
  case firstDifference =>
    rw [digestLess_iff, List.map_append, List.map_append]
    exact List.append_left_lt (List.cons_lt_cons_iff.2 (.inl hab))

end Sys2Proof
end

section
/-! Message schedules: a block's words, extended one word at a time by a recurrence over the words
before it (R68, R76). -/

namespace Sys2Proof.Machine

/-- `ws` extended at the places s, s + 1, …, s + n - 1, where `next w t` is the word at place t after
the words `w`: the loop of both schedules. -/
def extendBy {α : Type} (next : List α → Nat → α) (s n : Nat) (ws : List α) : List α :=
  (List.range' s n).foldl (fun w t => w ++ [next w t]) ws

section
variable {α : Type} (next : List α → Nat → α) (s : Nat) (ws : List α)

theorem extendBy_succ (n : Nat) :
    extendBy next s (n + 1) ws = extendBy next s n ws ++ [next (extendBy next s n ws) (s + n)] := by
  simp [extendBy, List.range'_1_concat]

@[simp] theorem extendBy_length (n : Nat) : (extendBy next s n ws).length = ws.length + n := by
  induction n with
  | zero => rfl
  | succ n ih => rw [extendBy_succ, List.length_append, ih, List.length_singleton, Nat.add_assoc]

theorem extendBy_prefix {m n : Nat} (h : m ≤ n) : extendBy next s m ws <+: extendBy next s n ws := by
  induction n, h using Nat.le_induction with
  | base => exact List.prefix_rfl
  | succ n _ ih => exact ih.trans (extendBy_succ next s ws n ▸ List.prefix_append _ _)

theorem extendBy_take (n : Nat) (hs : ws.length = s) : (extendBy next s n ws).take s = ws := by
  subst hs
  exact (List.prefix_iff_eq_take.1 (extendBy_prefix next ws.length ws n.zero_le)).symm

theorem extendBy_getD_of_le {m n i : Nat} (h : m ≤ n) (hi : i < ws.length + m) (d : α) :
    (extendBy next s m ws).getD i d = (extendBy next s n ws).getD i d := by
  obtain ⟨tail, htail⟩ := extendBy_prefix next s ws h
  rw [← htail, List.getD_append _ _ _ _ (by simpa using hi)]

/-- The word at place t is `next` of the finished list, when `next` at t reads only the places
before t. -/
theorem extendBy_getD {n t : Nat} (d : α) (hs : ws.length = s) (hst : s ≤ t) (htn : t < s + n)
    (hnext : ∀ w w' : List α, (∀ i < t, w.getD i d = w'.getD i d) → next w t = next w' t) :
    (extendBy next s n ws).getD t d = next (extendBy next s n ws) t := by
  obtain ⟨k, rfl⟩ := Nat.exists_eq_add_of_le hst
  have hk : k + 1 ≤ n := by omega
  calc (extendBy next s n ws).getD (s + k) d
      = (extendBy next s (k + 1) ws).getD (s + k) d :=
        (extendBy_getD_of_le next s ws hk (by omega) d).symm
    _ = next (extendBy next s k ws) (s + k) := by
        simp [extendBy_succ, hs]
    _ = next (extendBy next s n ws) (s + k) :=
        hnext _ _ fun i hi => extendBy_getD_of_le next s ws (by omega) (by omega) d

end

/-- A block packs to one word for every w / 8 of its bytes (R53). -/
theorem packBe_length (w : Nat) (bs : List Byte) : (packBe w bs).length = bs.length / (w / 8) := by
  simp [packBe]

/-- The SHA-1 recurrence (R68): word t from the words t - 3, t - 8, t - 14 and t - 16. -/
def sha1Next (w : List Word32) (t : Nat) : Word32 :=
  rotl (w.getD (t - 3) 0 ^^^ w.getD (t - 8) 0 ^^^ w.getD (t - 14) 0 ^^^ w.getD (t - 16) 0) 1

theorem sha1Schedule_eq (blk : List Byte) :
    sha1Schedule blk = extendBy sha1Next 16 64 (packBe 32 blk) := rfl

/-- The SHA-1 recurrence at t reads only words before t. -/
theorem sha1Next_congr {t : Nat} (ht : 0 < t) (w w' : List Word32)
    (h : ∀ i < t, w.getD i 0 = w'.getD i 0) : sha1Next w t = sha1Next w' t := by
  have back (k : Nat) (hk : 0 < k) : w.getD (t - k) 0 = w'.getD (t - k) 0 := h _ (by omega)
  rw [sha1Next, sha1Next, back 3 (by decide), back 8 (by decide), back 14 (by decide),
    back 16 (by decide)]

/-- Settles O41: the schedule is the block's 16 words extended by `sha1Next`, which looks back
only. -/
theorem sha1ScheduleExpandsBlock : Obligations.Sha1ScheduleExpandsBlock := by
  intro blk hblk
  have hlen : (packBe 32 blk).length = 16 := by rw [packBe_length, hblk]
  rw [sha1Schedule_eq]
  refine ⟨?length, ?block, fun t h16 h80 => ?recurrence⟩
  case length => rw [extendBy_length, hlen]
  case block => exact extendBy_take sha1Next 16 _ 64 hlen
  case recurrence =>
    exact extendBy_getD sha1Next 16 _ 0 hlen h16 h80 (sha1Next_congr (by omega))

end Sys2Proof.Machine
end

section
/-! The SHA-2 message schedule at both widths (R76), as an extension of the block's words like that of
SHA-1. -/

namespace Sys2Proof.Machine

section
variable {w : Nat} (core : Sha2Core w)

/-- The SHA-2 recurrence (R76): word t from the words t - 16, t - 7, t - 15 and t - 2. -/
def sha2Next (ws : List (BitVec w)) (t : Nat) : BitVec w :=
  ws.getD (t - 16) 0 + ws.getD (t - 7) 0 + core.smallSigma0 (ws.getD (t - 15) 0) +
    core.smallSigma1 (ws.getD (t - 2) 0)

theorem sha2Schedule_eq (blk : List Byte) :
    sha2Schedule core blk = extendBy (sha2Next core) 16 (core.rounds - 16) (packBe w blk) := rfl

/-- The SHA-2 recurrence at t reads only words before t. -/
theorem sha2Next_congr {t : Nat} (ht : 0 < t) (ws ws' : List (BitVec w))
    (h : ∀ i < t, ws.getD i 0 = ws'.getD i 0) : sha2Next core ws t = sha2Next core ws' t := by
  have back (k : Nat) (hk : 0 < k) : ws.getD (t - k) 0 = ws'.getD (t - k) 0 := h _ (by omega)
  rw [sha2Next, sha2Next, back 16 (by decide), back 7 (by decide), back 15 (by decide),
    back 2 (by decide)]

/-- R76 at any width, for a core of at least 16 rounds and a block of 16 words. -/
theorem sha2Schedule_expands (hr : 16 ≤ core.rounds) {blk : List Byte}
    (hlen : (packBe w blk).length = 16) :
    (sha2Schedule core blk).length = core.rounds ∧
    (sha2Schedule core blk).take 16 = packBe w blk ∧
    ∀ t, 16 ≤ t → t < core.rounds →
      (sha2Schedule core blk).getD t 0 = sha2Next core (sha2Schedule core blk) t := by
  rw [sha2Schedule_eq]
  refine ⟨?length, ?block, fun t h16 ht => ?recurrence⟩
  case length => rw [extendBy_length, hlen, Nat.add_sub_cancel' hr]
  case block => exact extendBy_take _ 16 _ _ hlen
  case recurrence =>
    exact extendBy_getD _ 16 _ 0 hlen h16 (by omega) (sha2Next_congr core (by omega))

end

/-- Settles O42: both cores are instances of the schedule at any width. -/
theorem sha2ScheduleExpandsBlock : Obligations.Sha2ScheduleExpandsBlock :=
  ⟨fun blk h => sha2Schedule_expands sha2Core32 (by decide) (by rw [packBe_length, h]),
    fun blk h => sha2Schedule_expands sha2Core64 (by decide) (by rw [packBe_length, h])⟩

end Sys2Proof.Machine
end

section
/-! The round constant tables (R72, R73, R93). -/

namespace Sys2Proof.Machine

/-- R73 on whole tables: K256 lists the high halves of the first 64 entries of K512. -/
theorem k256_eq_high_halves : k256 = (k512.take 64).map (BitVec.extractLsb' 32 32) := by decide

/-- Settles O44: an entry of K256 is the entry of the list of high halves. -/
theorem roundConstantTablesAgree : Obligations.RoundConstantTablesAgree := by
  refine ⟨rfl, rfl, rfl, fun t ht => ?_⟩
  have h80 : t < k512.length := Nat.lt_trans ht (by decide)
  simp [k256_eq_high_halves, ht, h80]

end Sys2Proof.Machine
end

section
/-! Digests of messages that pad to one block (R84, R86), and those of "abc". -/

namespace Sys2Proof.Machine

/-- A message that leaves room for the length field is padded to one block, so its digest is read from
one compression of the initialization vector (R82, R84, R86). -/
theorem mdHash_of_one_block (v : MdVariant) (m : List Byte)
    (hm : m.length < v.blockBytes - v.lengthBytes) :
    mdHash v m = mdExtract v
      (compress v (mdIv v) (injectLength v (padFirst v m m.length) m.length)) := by
  have hq : m.length / v.blockBytes = 0 := Nat.div_eq_of_lt (by omega)
  have hroom : needsExtraBlock v m.length = false := decide_eq_false (by omega)
  simp [mdHash, mdFinal, mdFinalBlocks, hq, hroom]

/-- Settles O46: each digest is that of one block, and the kernel evaluates its compression. -/
theorem sha2DigestsOfAbc : Obligations.Sha2DigestsOfAbc := by
  refine ⟨?sha224, ?sha384, ?sha512, ?sha512t224, ?sha512t256⟩
  all_goals
    rw [mdHash_of_one_block _ _ (by decide)]
    decide +kernel

end Sys2Proof.Machine
end

section
/-! The length of a digest that extraction renders from words (R5, R61, R85). -/

namespace Sys2Proof.Machine

theorem unpackBe_length {w : Nat} (words : List (BitVec w)) :
    (unpackBe words).length = words.length * (w / 8) :=
  length_flatMap_const _ _ _ fun _ _ => beBytes_length _ _

theorem fromWords_length {w : Nat} {words : List (BitVec w)} {n : Nat}
    (h : n ≤ words.length * (w / 8)) : (fromWords words n).length = n := by
  rw [fromWords, List.length_take, unpackBe_length, Nat.min_eq_left h]

theorem chainWords_le (v : MdVariant) : v.chainWords ≤ 8 := by cases v <;> decide

/-- "H words used" covers the digest at either word width (R5, R85). -/
theorem digestBytes_le_chainBytes (v : MdVariant) :
    v.digestBytes ≤ v.chainWords * (v.wordBits / 8) := by cases v <;> decide

theorem wordBits_eq_64 {v : MdVariant} (h : v.wordBits ≠ 32) : v.wordBits = 64 := by
  cases v with
  | sha1 | sha224 | sha256 => exact absurd rfl h
  | sha384 | sha512 | sha512t224 | sha512t256 => rfl

/-- Settles O38: extraction renders enough words to cut N bytes from. -/
theorem extractedDigestLength : Obligations.ExtractedDigestLength := by
  intro v h
  have hwords : (h.toList.take v.chainWords).length = v.chainWords := by
    simpa using chainWords_le v
  have hle := digestBytes_le_chainBytes v
  rw [mdExtract]
  split
  next h32 =>
    refine fromWords_length ?_
    rwa [List.length_map, hwords, ← h32]
  next h32 =>
    refine fromWords_length ?_
    rwa [hwords, ← wordBits_eq_64 h32]

end Sys2Proof.Machine
end

section
/-! The padded blocks of the final step (R81 to R84). -/

namespace Sys2Proof.Machine

theorem needsExtraBlock_iff (v : MdVariant) (lst : Nat) :
    needsExtraBlock v lst = true ↔ v.blockBytes < lst + 1 + v.lengthBytes := by
  have := lengthBytes_le v
  rw [needsExtraBlock, decide_eq_true_iff]
  omega

theorem mdFinalBlocks_two {v : MdVariant} {lst : Nat} (h : needsExtraBlock v lst = true)
    (buf : List Byte) (total : Nat) :
    mdFinalBlocks v buf lst total =
      [padFirst v (buf.take lst) lst, injectLength v (zeros v.blockBytes) total] := if_pos h

theorem mdFinalBlocks_one {v : MdVariant} {lst : Nat} (h : ¬ needsExtraBlock v lst = true)
    (buf : List Byte) (total : Nat) :
    mdFinalBlocks v buf lst total = [injectLength v (padFirst v (buf.take lst) lst) total] :=
  if_neg h

theorem mdFinalBlocks_length (v : MdVariant) (buf : List Byte) (lst total : Nat) :
    (mdFinalBlocks v buf lst total).length =
      if v.blockBytes < lst + 1 + v.lengthBytes then 2 else 1 := by
  by_cases h : needsExtraBlock v lst = true
  · rw [mdFinalBlocks_two h, if_pos ((needsExtraBlock_iff v lst).1 h)]; rfl
  · rw [mdFinalBlocks_one h, if_neg (mt (needsExtraBlock_iff v lst).2 h)]; rfl

theorem length_of_mem_mdFinalBlocks {v : MdVariant} {buf : List Byte} {lst total : Nat}
    (hlst : lst < v.blockBytes) (hbuf : lst ≤ buf.length) {b : List Byte}
    (hb : b ∈ mdFinalBlocks v buf lst total) : b.length = v.blockBytes := by
  have hpad := padFirst_length v (List.length_take_of_le hbuf) hlst
  by_cases h : needsExtraBlock v lst = true
  · rw [mdFinalBlocks_two h, List.mem_pair] at hb
    obtain rfl | rfl := hb
    · exact hpad
    · exact injectLength_length v (zeros_length _) total
  · rw [mdFinalBlocks_one h, List.mem_singleton] at hb
    exact hb ▸ injectLength_length v hpad total

theorem zeros_add (a b : Nat) : zeros (a + b) = zeros a ++ zeros b := List.replicate_add a b 0

/-- Length injection overwrites the last 8 of the padding's zeros (R83). -/
theorem injectLength_zeros (v : MdVariant) (total : Nat) :
    injectLength v (zeros v.blockBytes) total =
      zeros (v.blockBytes - 8) ++ beBytes (8 * total) 8 := by
  rw [injectLength, zeros, List.take_replicate, Nat.min_eq_left (Nat.sub_le _ _), zeros]

theorem injectLength_padFirst (v : MdVariant) {rem : List Byte} {lst : Nat}
    (hrem : rem.length = lst) (hroom : lst + 1 + 8 ≤ v.blockBytes) (total : Nat) :
    injectLength v (padFirst v rem lst) total =
      rem ++ 0x80 :: zeros (v.blockBytes - lst - 1 - 8) ++ beBytes (8 * total) 8 := by
  obtain ⟨z, hz⟩ := Nat.exists_eq_add_of_le hroom
  have htake : v.blockBytes - 8 = rem.length + (z + 1) := by omega
  have hzeros : min z (v.blockBytes - lst - 1) = v.blockBytes - lst - 1 - 8 := by omega
  rw [injectLength, padFirst, htake, List.take_length_add_append, List.take_succ_cons, zeros,
    List.take_replicate, hzeros, zeros]

/-- The final blocks end to end: the zeros of an extra block continue those of the first. -/
theorem mdFinalBlocks_flatten {v : MdVariant} {buf : List Byte} {lst : Nat}
    (hlst : lst < v.blockBytes) (hbuf : lst ≤ buf.length) (total : Nat) :
    (mdFinalBlocks v buf lst total).flatten =
      buf.take lst ++ 0x80 :: zeros
        ((mdFinalBlocks v buf lst total).length * v.blockBytes - lst - 1 - 8) ++
        beBytes (8 * total) 8 := by
  obtain ⟨hL8, hLB⟩ := lengthBytes_le v
  by_cases h : needsExtraBlock v lst = true
  · have hzeros : 2 * v.blockBytes - lst - 1 - 8 = v.blockBytes - lst - 1 + (v.blockBytes - 8) := by
      omega
    have hlen : (mdFinalBlocks v buf lst total).length = 2 := by rw [mdFinalBlocks_two h]; rfl
    rw [hlen, hzeros, mdFinalBlocks_two h, injectLength_zeros, zeros_add]
    simp [padFirst]
  · have hroom := mt (needsExtraBlock_iff v lst).2 h
    rw [mdFinalBlocks_one h, List.length_singleton, Nat.one_mul, List.flatten_singleton]
    exact injectLength_padFirst v (List.length_take_of_le hbuf) (by omega) total

/-- Settles O37: the condition for the extra block, then number, length and bytes of the blocks. -/
theorem finalBlocksShape : Obligations.FinalBlocksShape := fun v buf lst total hlst hbuf =>
  ⟨needsExtraBlock_iff v lst, mdFinalBlocks_length v buf lst total,
    fun _ hb => length_of_mem_mdFinalBlocks hlst hbuf hb, mdFinalBlocks_flatten hlst hbuf total⟩

end Sys2Proof.Machine
end

section
/-! The commands of the host procedure: how many BLOCKs it issues, and its last command (R87, R106). -/

namespace Sys2Proof.Machine

theorem hashAccesses_eq (v : Variant) (m : List Byte) :
    hashAccesses v m = commandWrite (.init (BitVec.ofNat 8 v.id)) ::
      (blockAccesses v m (m.length / v.blockBytes) ++ (loadBlk (remainder v m) ++
        [commandWrite (.final (BitVec.ofNat 8 (remainder v m).length))])) := by
  rw [hashAccesses, blockAccesses, remainder, List.length_drop]
  simp only [List.cons_append, List.append_assoc]

/-- Different commands are different words, so different writes (R41). -/
theorem commandWrite_ne {i j : Instr} (hi : i.WellFormed) (hj : j.WellFormed) (hne : i ≠ j) :
    commandWrite i ≠ commandWrite j := by
  intro h
  have hword : encode i = encode j := by injection h
  have hdec := decodeAfterEncode i hi
  rw [hword, decodeAfterEncode j hj] at hdec
  exact hne (Except.ok.inj hdec).symm

theorem wellFormed_init_id (v : Variant) : (Instr.init (BitVec.ofNat 8 v.id)).WellFormed := by
  obtain v | v := v <;> cases v <;> decide

/-- LOADBLK writes bytes, and a command is a word. -/
theorem count_commandWrite_loadBlk (i : Instr) (bs : List Byte) :
    (loadBlk bs).count (commandWrite i) = 0 := by
  simp [List.count_eq_zero, loadBlk, write8, commandWrite]

theorem count_block_blockAccesses (v : Variant) (m : List Byte) (q : Nat) :
    (blockAccesses v m q).count (commandWrite .block) = q := by
  induction q with
  | zero => rfl
  | succ q ih =>
    rw [blockAccesses_succ, List.count_append, List.count_append, ih, count_commandWrite_loadBlk,
      List.count_singleton_self]

theorem count_block_hashAccesses (v : Variant) (m : List Byte) :
    (hashAccesses v m).count (commandWrite .block) = m.length / v.blockBytes := by
  have hinit := commandWrite_ne (wellFormed_init_id v) (j := .block) rfl (by simp)
  have hfinal := fun lst => commandWrite_ne (i := .final lst) (j := .block) rfl rfl (by simp)
  rw [hashAccesses_eq, List.count_cons_of_ne hinit, List.count_append, List.count_append,
    count_block_blockAccesses, count_commandWrite_loadBlk,
    List.count_cons_of_ne (hfinal _), List.count_nil]
  rfl

theorem getLast?_hashAccesses (v : Variant) (m : List Byte) :
    (hashAccesses v m).getLast? =
      some (commandWrite (.final (BitVec.ofNat 8 (m.length % v.blockBytes)))) := by
  rw [hashAccesses_eq, ← remainder_length]
  simp only [← List.cons_append, ← List.append_assoc, List.getLast?_concat]

/-- One row of the table of R87, for any message length: the quotient and the remainder by the block
size, and whether the length field still has room. -/
theorem boundary_row {v : MdVariant} {B L : Nat} (hB : v.blockBytes = B) (hL : v.lengthBytes = L)
    {m : List Byte} {len blocks lst finals : Nat} (buf : List Byte) (hlen : m.length = len)
    (hrow : len / B = blocks ∧ len % B = lst ∧ (if B < lst + 1 + L then 2 else 1) = finals) :
    (hashAccesses (.md v) m).count (commandWrite .block) = blocks ∧
    (hashAccesses (.md v) m).getLast? = some (commandWrite (.final (BitVec.ofNat 8 lst))) ∧
    (mdFinalBlocks v buf lst m.length).length = finals := by
  obtain ⟨rfl, rfl, rfl⟩ := hrow
  subst hB hL hlen
  exact ⟨count_block_hashAccesses _ m, getLast?_hashAccesses _ m, mdFinalBlocks_length v buf _ _⟩

theorem lengthBytes_eq (v : MdVariant) : v.lengthBytes = v.blockBytes / 8 := by cases v <;> rfl

/-- Settles O40: each row is a row for any message length, at that length. -/
theorem blockBoundaryCases : Obligations.BlockBoundaryCases := by
  intro v m buf
  refine ⟨fun hB => ?_, fun hB => ?_⟩
  all_goals
    have hL := lengthBytes_eq v
    rw [hB] at hL
    and_intros
    all_goals exact fun hlen => boundary_row hB hL buf hlen (by decide)

end Sys2Proof.Machine
end

section
/-! The digests the source prints (R86, R100). -/

namespace Sys2Proof.Machine

/-- A message shorter than the rate, with a digest no longer than the rate, takes one permutation
(R98, R99, R100). -/
theorem spongeHash_of_one_block (v : SpongeVariant) {m : List Byte} {n : Nat}
    (hm : m.length < v.rate) (hn : n ≤ v.rate) :
    spongeHash v m n = (spPad v (Vector.replicate 200 0) m m.length).toList.take n := by
  simp [spongeHash, spSqueeze, squeezeLoop_last hn, Nat.div_eq_of_lt hm]

/-! ### The round on written-out lanes: for each `mkLanes` the kernel would build a vector lane by lane -/

/-- The lanes of `mkLanes`, written out one by one. -/
def lanesTable (f : Nat → Nat → Word64) : Lanes :=
  (#v[f 0 0, f 1 0, f 2 0, f 3 0, f 4 0, f 0 1, f 1 1, f 2 1, f 3 1, f 4 1, f 0 2, f 1 2, f 2 2, f 3 2,
    f 4 2, f 0 3, f 1 3, f 2 3, f 3 3, f 4 3, f 0 4, f 1 4, f 2 4, f 3 4, f 4 4])

theorem mkLanes_eq_lanesTable : mkLanes = lanesTable := by
  funext f
  refine lanes_ext fun x y hx hy => ?_
  rw [lane_mk]
  interval_cases x <;> interval_cases y <;> rfl

/-- `keccakRound` with the lanes of θ, of ρ and π, and of χ written out. -/
def keccakRoundTable (a : Lanes) (i : Nat) : Lanes :=
  let b := lanesTable fun x y => lane a x y ^^^ thetaTerm a x
  let c := lanesTable fun x y => rotl (lane b (x + 3 * y) x) (rhoOffset (x + 3 * y) x)
  iota i (lanesTable fun x y => lane c x y ^^^ (~~~(lane c (x + 1) y) &&& lane c (x + 2) y))

theorem keccakRound_eq_keccakRoundTable : keccakRound = keccakRoundTable := by
  funext a i
  simp only [keccakRound, theta, rhoPi, chi, mkLanes_eq_lanesTable, keccakRoundTable]

theorem xorPrefix_zero (s : SpongeBytes) (bs : List Byte) : xorPrefix s bs 0 = s := by
  ext j hj
  simp [xorPrefix_getElem]

/-- Settles O45: each message fits one block, and the kernel evaluates its one compression or its one
permutation. -/
theorem digestsTheSourcePrints : Obligations.DigestsTheSourcePrints := by
  refine ⟨?sha256, ?sha3_256, ?sha1⟩
  case sha3_256 =>
    rw [spongeHash_of_one_block _ (by decide) (by decide), spPad, spPadXor, List.length_nil,
      xorPrefix_zero, keccakF, keccakRound_eq_keccakRoundTable]
    decide +kernel
  all_goals
    rw [mdHash_of_one_block _ _ (by decide)]
    decide +kernel

end Sys2Proof.Machine
end

section
/-! The lane view and the byte view of the sponge state (R10, R88). -/

namespace Sys2Proof.Machine

/-- Bit 8i + j of lane k is bit j of S[8k + i] (R88). -/
theorem lanesOf_bit (s : SpongeBytes) {k i j : Nat} (hk : k < 25) (hi : i < 8) (hj : j < 8) :
    (lanesOf s)[k].getLsbD (8 * i + j) = (s[8 * k + i]'(by omega)).getLsbD j := by
  have hbyte : (slice s.toList (8 * k) 8).getD i 0 = s[8 * k + i]'(by omega) := by
    have hS : 8 * k + i < s.toList.length := by rw [Vector.length_toList]; omega
    rw [slice, List.getD_eq_getElem?_getD, List.getElem?_take_of_lt hi, List.getElem?_drop,
      List.getElem?_eq_getElem hS, Option.getD_some, Vector.getElem_toList]
  rw [lanesOf, Vector.getElem_ofFn, ofNat_leNat_bit _ (by omega), show (8 * i + j) / 8 = i by omega,
    show (8 * i + j) % 8 = j by omega, hbyte]

/-- Bit j of the byte S[8k + i] is bit 8i + j of lane k (R88). -/
theorem bytesOf_bit (a : Lanes) {k i j : Nat} (hk : k < 25) (hi : i < 8) (hj : j < 8) :
    ((bytesOf a)[8 * k + i]'(by omega)).getLsbD j = a[k].getLsbD (8 * i + j) := by
  have hlane : (8 * k + i) / 8 = k := by omega
  have hbyte : (8 * k + i) % 8 = i := by omega
  simp [bytesOf, hlane, hbyte, hj]

theorem lanesOf_bytesOf (a : Lanes) : lanesOf (bytesOf a) = a := by
  refine Vector.ext fun k hk => BitVec.eq_of_getLsbD_eq fun n hn => ?_
  rw [← Nat.div_add_mod n 8, lanesOf_bit _ hk (by omega) (by omega),
    bytesOf_bit _ hk (by omega) (by omega)]

theorem bytesOf_lanesOf (s : SpongeBytes) : bytesOf (lanesOf s) = s := by
  refine Vector.ext fun n hn => BitVec.eq_of_getLsbD_eq fun j hj => ?_
  obtain ⟨k, i, hi, rfl⟩ : ∃ k i, i < 8 ∧ n = 8 * k + i := ⟨n / 8, n % 8, by omega, by omega⟩
  rw [bytesOf_bit _ (by omega) hi hj, lanesOf_bit _ (by omega) hi hj]

/-- Settles O47: the two views have the same bits, so each determines the other. -/
theorem laneAndByteViewsAlias : Obligations.LaneAndByteViewsAlias := by
  refine ⟨lanesOf_bytesOf, bytesOf_lanesOf, fun a x y => ?_,
    fun s k i j => lanesOf_bit s k.isLt i.isLt j.isLt⟩
  simp only [lane, Nat.mod_eq_of_lt x.isLt, Nat.mod_eq_of_lt y.isLt]

end Sys2Proof.Machine
end

section
/-! ρ and π, χ and ι lane by lane, and each of them undone (R90 to R94). -/

namespace Sys2Proof.Machine

/-! ### Indices modulo 5 -/

theorem lane_congr (a : Lanes) {x x' y y' : Nat} (hx : x % 5 = x' % 5) (hy : y % 5 = y' % 5) :
    lane a x y = lane a x' y' := by rw [← lane_mod, hx, hy, lane_mod]

theorem rhoOffset_congr {x x' y y' : Nat} (hx : x % 5 = x' % 5) (hy : y % 5 = y' % 5) :
    rhoOffset x y = rhoOffset x' y' := by simp only [rhoOffset, rhoRow, hx, hy]

/-! ### ρ and π -/

theorem lane_rhoPi (a : Lanes) (x y : Nat) :
    lane (rhoPi a) x y = rotl (lane a (x + 3 * y) x) (rhoOffset (x + 3 * y) x) := by
  have hsource : (x % 5 + 3 * (y % 5)) % 5 = (x + 3 * y) % 5 := by omega
  rw [rhoPi, lane_mk, lane_congr a hsource (Nat.mod_mod x 5),
    rhoOffset_congr hsource (Nat.mod_mod x 5)]

/-- The lane at (x, y) moves to (y, 2x + 3y), rotated left by its offset (R91). -/
theorem lane_rhoPi_goal (a : Lanes) (x y : Nat) :
    lane (rhoPi a) y (2 * x + 3 * y) = rotl (lane a x y) (rhoOffset x y) := by
  have hsource : (y + 3 * (2 * x + 3 * y)) % 5 = x % 5 := by omega
  rw [lane_rhoPi, lane_congr a hsource rfl, rhoOffset_congr hsource rfl]

/-- Every lane is read back from its goal by undoing its rotation. -/
theorem rhoPi_injective : Function.Injective rhoPi := fun a b h => lanes_ext fun x y _ _ => by
  have hlane := congrArg (lane · y (2 * x + 3 * y)) h
  simp only [lane_rhoPi_goal] at hlane
  rw [← rotr_rotl (lane a x y) (rhoOffset x y), hlane, rotr_rotl]

/-- Settles O48: the goal of each lane, and the 25 places counted. -/
theorem rhoPiMovesLanes : Obligations.RhoPiMovesLanes := by
  refine ⟨fun a x y _ _ => ?_, by decide⟩
  rw [lane_congr _ rfl (Nat.mod_mod _ 5), lane_rhoPi_goal]

/-! ### χ -/

theorem lane_chi (a : Lanes) (x y : Nat) :
    lane (chi a) x y = lane a x y ^^^ (~~~(lane a (x + 1) y) &&& lane a (x + 2) y) := by
  have hx : x % 5 % 5 = x % 5 := Nat.mod_mod x 5
  have hy : y % 5 % 5 = y % 5 := Nat.mod_mod y 5
  rw [chi, lane_mk, lane_congr a hx hy, lane_congr a (Nat.mod_add_mod x 5 1) hy,
    lane_congr a (Nat.mod_add_mod x 5 2) hy]

/-- χ undone on one row: the input lane at x from the output row c, read from x on. -/
def chiInverse (c0 c1 c2 c3 c4 : Word64) : Word64 := c0 ^^^ (~~~c1 &&& (c2 ^^^ (~~~c3 &&& c4)))

/-- χ on one bit of each lane of a row, then its inverse. -/
theorem chiInverse_bit : ∀ a0 a1 a2 a3 a4 : Bool,
    ((a0 ^^ (!a1 && a2)) ^^ (!(a1 ^^ (!a2 && a3)) &&
      ((a2 ^^ (!a3 && a4)) ^^ (!(a3 ^^ (!a4 && a0)) && (a4 ^^ (!a0 && a1)))))) = a0 := by decide

theorem lane_of_chi (a : Lanes) (x y : Nat) :
    chiInverse (lane (chi a) x y) (lane (chi a) (x + 1) y) (lane (chi a) (x + 2) y)
      (lane (chi a) (x + 3) y) (lane (chi a) (x + 4) y) = lane a x y := by
  have h5 : lane a (x + 5) y = lane a x y := lane_congr a (Nat.add_mod_right x 5) rfl
  have h6 : lane a (x + 6) y = lane a (x + 1) y := lane_congr a (Nat.add_mod_right (x + 1) 5) rfl
  refine BitVec.eq_of_getLsbD_eq fun i hi => ?_
  simp only [chiInverse, lane_chi, Nat.add_assoc, Nat.reduceAdd, h5, h6, BitVec.getLsbD_xor,
    BitVec.getLsbD_and, BitVec.getLsbD_not, hi, decide_true, Bool.true_and, chiInverse_bit]

theorem chi_injective : Function.Injective chi := fun a b h => lanes_ext fun x y _ _ => by
  rw [← lane_of_chi a, h, lane_of_chi]

/-! ### ι -/

theorem iota_iota (i : Nat) (a : Lanes) : iota i (iota i a) = a := by
  simp [iota]

theorem iota_injective (i : Nat) : Function.Injective (iota i) :=
  Function.Involutive.injective (iota_iota i)

end Sys2Proof.Machine
end

section
/-! θ is injective (R89), and with the other step mappings the whole round (R95). What θ adds depends
on the column parities alone, and θ sends the parities C to C[x] ^ C[x-1] ^ rotl(C[x+1], 1). Where two
states have the same image, the difference of their parities is sent to zero, which leaves only zero. -/

namespace Sys2Proof.Machine

/-! ### The columns of θ -/

theorem columnParity_congr (a : Lanes) {x x' : Nat} (hx : x % 5 = x' % 5) :
    columnParity a x = columnParity a x' := by simp only [columnParity, lane_congr a hx rfl]

theorem thetaTerm_congr (a : Lanes) {x x' : Nat} (hx : x % 5 = x' % 5) :
    thetaTerm a x = thetaTerm a x' := by
  have h4 : (x + 4) % 5 = (x' + 4) % 5 := by omega
  have h1 : (x + 1) % 5 = (x' + 1) % 5 := by omega
  rw [thetaTerm, columnParity_congr a h4, columnParity_congr a h1, ← thetaTerm]

theorem lane_theta (a : Lanes) (x y : Nat) : lane (theta a) x y = lane a x y ^^^ thetaTerm a x := by
  rw [theta, lane_mk, lane_mod, thetaTerm_congr a (Nat.mod_mod x 5)]

/-- The five equal terms that θ adds to a column leave one in its parity. -/
theorem columnParity_theta (a : Lanes) (x : Nat) :
    columnParity (theta a) x = columnParity a x ^^^ thetaTerm a x := by
  simp only [columnParity, lane_theta]
  generalize thetaTerm a x = t
  calc lane a x 0 ^^^ t ^^^ (lane a x 1 ^^^ t) ^^^ (lane a x 2 ^^^ t) ^^^ (lane a x 3 ^^^ t) ^^^
          (lane a x 4 ^^^ t)
    _ = lane a x 0 ^^^ lane a x 1 ^^^ lane a x 2 ^^^ lane a x 3 ^^^ lane a x 4 ^^^ t ^^^
          (t ^^^ t) ^^^ (t ^^^ t) := by ac_rfl
    _ = lane a x 0 ^^^ lane a x 1 ^^^ lane a x 2 ^^^ lane a x 3 ^^^ lane a x 4 ^^^ t := by
      simp only [BitVec.xor_self, BitVec.xor_zero]

/-! ### The parities in bits -/

/-- Bit i of the parity of column x, with i taken modulo 64 as x is modulo 5. -/
def parityBit (a : Lanes) (x i : Nat) : Bool := (columnParity a x).getLsbD (i % 64)

theorem parityBit_congr (a : Lanes) {x x' i i' : Nat} (hx : x % 5 = x' % 5)
    (hi : i % 64 = i' % 64) : parityBit a x i = parityBit a x' i' := by
  rw [parityBit, parityBit, columnParity_congr a hx, hi]

theorem parityBit_theta (a : Lanes) (x i : Nat) :
    parityBit (theta a) x i =
      (parityBit a x i ^^ parityBit a (x + 4) i ^^ parityBit a (x + 1) (i + 63)) := by
  simp only [parityBit, columnParity_theta, thetaTerm, BitVec.getLsbD_xor,
    rotl_bit _ 1 _ (Nat.mod_lt i (by decide : 0 < 64)), Nat.reduceMod, Nat.reduceSub,
    Nat.mod_add_mod, Bool.xor_assoc]

/-- The relation f(x) = f(x + 4) ^ rotl(f(x + 1), 1) put into itself has its steps doubled, since the
two terms in the middle cancel. -/
theorem recurrence_pow_two {f : Nat → Nat → Bool}
    (h : ∀ x i, f x i = (f (x + 4) i ^^ f (x + 1) (i + 63))) (k x i : Nat) :
    f x i = (f (x + 4 * 2 ^ k) i ^^ f (x + 2 ^ k) (i + 63 * 2 ^ k)) := by
  induction k generalizing x i with
  | zero => exact h x i
  | succ k ih =>
    have hcross : x + 2 ^ k + 4 * 2 ^ k = x + 4 * 2 ^ k + 2 ^ k := by omega
    rw [ih x i, ih (x + 4 * 2 ^ k) i, ih (x + 2 ^ k) (i + 63 * 2 ^ k), hcross,
      show 4 * 2 ^ (k + 1) = 4 * 2 ^ k + 4 * 2 ^ k by omega,
      show 63 * 2 ^ (k + 1) = 63 * 2 ^ k + 63 * 2 ^ k by omega,
      show 2 ^ (k + 1) = 2 ^ k + 2 ^ k by omega]
    simp only [← Nat.add_assoc]
    rw [Bool.xor_assoc, ← Bool.xor_assoc (f (x + 4 * 2 ^ k + 2 ^ k) _), Bool.xor_self, Bool.false_xor]

/-- Five bits in a ring, each the sum of its two neighbours, are zero. -/
theorem eq_false_of_neighbour_sums : ∀ c0 c1 c2 c3 c4 : Bool, c0 = (c4 ^^ c1) → c1 = (c0 ^^ c2) →
    c2 = (c1 ^^ c3) → c3 = (c2 ^^ c4) → c4 = (c3 ^^ c0) → c0 = false := by decide

/-- Parities that θ sends to zero are zero: six doublings make the rotation one by 64, and leave each
column the sum of its two neighbours. -/
theorem eq_false_of_recurrence {f : Nat → Nat → Bool}
    (hf : ∀ {x x' i i'}, x % 5 = x' % 5 → i % 64 = i' % 64 → f x i = f x' i')
    (h : ∀ x i, f x i = (f (x + 4) i ^^ f (x + 1) (i + 63))) (x i : Nat) : f x i = false := by
  have hsum : ∀ x, f (x + 1) i = (f x i ^^ f (x + 2) i) := fun x => by
    rw [recurrence_pow_two h 6, hf (x' := x + 2) (i' := i) (by omega) rfl,
      hf (x := x + 1 + 2 ^ 6) (x' := x) (i' := i) (by omega) (by omega), Bool.xor_comm]
  have h5 : ∀ x, f (x + 5) i = f x i := fun x => hf (Nat.add_mod_right x 5) rfl
  have h4 : f (x + 4) i = (f (x + 3) i ^^ f x i) := by rw [← h5 x]; exact hsum (x + 3)
  have h0 : f x i = (f (x + 4) i ^^ f (x + 1) i) := by
    rw [← h5 x, ← h5 (x + 1)]; exact hsum (x + 4)
  exact eq_false_of_neighbour_sums _ _ _ _ _ h0 (hsum x) (hsum (x + 1)) (hsum (x + 2)) h4

/-- Equal sums of three bits, as a relation of the differences of their terms. -/
theorem xor_xor_of_sums_eq : ∀ a b c a' b' c' : Bool, (a ^^ b ^^ c) = (a' ^^ b' ^^ c') →
    (a ^^ a') = ((b ^^ b') ^^ (c ^^ c')) := by decide

/-- States with the same image under θ have the same column parities. -/
theorem columnParity_of_theta_eq {a b : Lanes} (h : theta a = theta b) (x : Nat) :
    columnParity a x = columnParity b x := by
  have hzero := eq_false_of_recurrence (f := fun x i => parityBit a x i ^^ parityBit b x i)
    (fun hx hi => by simp only [parityBit_congr _ hx hi]) (fun x i => by
      have hx := congrArg (parityBit · x i) h
      simp only [parityBit_theta] at hx
      exact xor_xor_of_sums_eq _ _ _ _ _ _ hx)
  refine BitVec.eq_of_getLsbD_eq fun i hi => ?_
  simpa only [parityBit, Nat.mod_eq_of_lt hi, bne_eq_false_iff_eq] using hzero x i

/-- With the same parities, θ adds the same terms to both states. -/
theorem theta_injective : Function.Injective theta := fun a b h => lanes_ext fun x y _ _ => by
  have hterm : thetaTerm a x = thetaTerm b x := by
    simp only [thetaTerm, columnParity_of_theta_eq h]
  have hlane := congrArg (lane · x y) h
  simp only [lane_theta, hterm] at hlane
  exact (BitVec.xor_left_inj _).1 hlane

/-! ### The round -/

theorem keccakRound_injective (i : Nat) : Function.Injective (keccakRound · i) :=
  (iota_injective i).comp (chi_injective.comp (rhoPi_injective.comp theta_injective))

theorem finite_lanes : Finite Lanes :=
  have : Finite Word64 := Finite.of_injective BitVec.toFin fun _ _ => BitVec.eq_of_toFin_eq
  Finite.of_injective (fun (a : Lanes) (k : Fin 25) => a[k]) fun _ _ h =>
    Vector.ext fun k hk => congrFun h ⟨k, hk⟩

/-- Settles O49: each step mapping of the round is injective, and the states are finitely many. -/
theorem keccakRoundIsBijection : Obligations.KeccakRoundIsBijection := fun i =>
  have := finite_lanes
  Finite.injective_iff_bijective.1 (keccakRound_injective i)

end Sys2Proof.Machine
end

section
/-! What the padding XORs into the state (R98), and the bytes of a squeeze (R99 to R101). -/

namespace Sys2Proof.Machine

/-- Settles O52: each byte takes the message byte, the suffix and the terminal marker that fall on it. -/
theorem spongePaddingBytes : Obligations.SpongePaddingBytes := by
  refine fun v s rem lst hrem _ => ⟨rfl, fun i => ?_⟩
  have hbyte : (xorPrefix s rem lst)[i.val] = s[i.val] ^^^ rem.getD i.val 0 := by
    rw [xorPrefix_getElem, ← hrem]
    split
    · rfl
    · rw [List.getD_eq_default _ _ (by omega)]
      exact BitVec.xor_zero.symm
  simp only [spPadXor, Fin.getElem_fin, xorAt_getElem, hbyte]

/-! ### The squeeze -/

theorem rate_le_200 (v : SpongeVariant) : v.rate ≤ 200 := (rate_pos v).2.trans (by decide)

/-- The first n bytes of the squeezed stream, each from its chunk (R99). -/
def squeezeBytes (v : SpongeVariant) (n : Nat) (s : SpongeBytes) : List Byte :=
  (List.range n).map fun i => (keccakF^[i / v.rate] s).toList.getD (i % v.rate) 0

@[simp] theorem squeezeBytes_length (v : SpongeVariant) (n : Nat) (s : SpongeBytes) :
    (squeezeBytes v n s).length = n := by simp [squeezeBytes]

theorem squeezeBytes_getD (v : SpongeVariant) {n i : Nat} (hi : i < n) (s : SpongeBytes) :
    (squeezeBytes v n s).getD i 0 = (keccakF^[i / v.rate] s).toList.getD (i % v.rate) 0 := by
  simp [squeezeBytes, hi]

theorem squeezeBytes_take (v : SpongeVariant) {n1 n2 : Nat} (h : n1 ≤ n2) (s : SpongeBytes) :
    (squeezeBytes v n2 s).take n1 = squeezeBytes v n1 s := by
  rw [squeezeBytes, ← List.map_take, List.take_range, Nat.min_eq_left h, squeezeBytes]

/-- The bytes of the first chunk are the first bytes of S. -/
theorem squeezeBytes_of_le {v : SpongeVariant} {n : Nat} (hn : n ≤ v.rate) (s : SpongeBytes) :
    squeezeBytes v n s = s.toList.take n := by
  have hlen : n ≤ s.toList.length := by
    rw [Vector.length_toList]; exact hn.trans (rate_le_200 v)
  refine List.ext_getElem (by simp [hn.trans (rate_le_200 v)]) fun i hi _ => ?_
  rw [squeezeBytes_length] at hi
  have hchunk := hi.trans_le hn
  simp only [squeezeBytes, List.getElem_map, List.getElem_range, List.getElem_take,
    Nat.div_eq_of_lt hchunk, Nat.mod_eq_of_lt hchunk, Function.iterate_zero_apply,
    List.getD_eq_getElem _ _ (hi.trans_le hlen)]

/-- After the first chunk the stream goes on with that of the permuted state. -/
theorem squeezeBytes_of_gt {v : SpongeVariant} {n : Nat} (hn : v.rate < n) (s : SpongeBytes) :
    squeezeBytes v n s = s.toList.take v.rate ++ squeezeBytes v (n - v.rate) (keccakF s) := by
  obtain ⟨m, rfl⟩ := Nat.exists_eq_add_of_le hn.le
  have hrest : ∀ i, (keccakF^[(v.rate + i) / v.rate] s).toList.getD ((v.rate + i) % v.rate) 0 =
      (keccakF^[i / v.rate] (keccakF s)).toList.getD (i % v.rate) 0 := fun i => by
    rw [Nat.add_div_left i (rate_pos v).1, Nat.add_mod_left, Function.iterate_succ_apply]
  rw [← squeezeBytes_of_le le_rfl, Nat.add_sub_cancel_left]
  simp only [squeezeBytes, List.range_add, List.map_append, List.map_map, Function.comp_def, hrest]

theorem squeezePermutations_of_le {v : SpongeVariant} {n : Nat} (hn : n ≤ v.rate) :
    squeezePermutations v n = 0 := by
  have hpos := (rate_pos v).1
  exact Nat.sub_eq_zero_of_le (Nat.le_of_lt_succ ((Nat.div_lt_iff_lt_mul hpos).2 (by omega)))

theorem squeezePermutations_of_gt {v : SpongeVariant} {n : Nat} (hn : v.rate < n) :
    squeezePermutations v n = squeezePermutations v (n - v.rate) + 1 := by
  have hpos := (rate_pos v).1
  have hchunk : 0 < (n - v.rate + v.rate - 1) / v.rate := Nat.div_pos (by omega) hpos
  have hsplit : n + v.rate - 1 = n - v.rate + v.rate - 1 + v.rate := by omega
  rw [squeezePermutations, squeezePermutations, hsplit, Nat.add_div_right _ hpos]
  omega

/-- The squeeze loop permutes between its chunks only, and emits the first bytes of the stream. -/
theorem squeezeLoop_eq (v : SpongeVariant) {fuel need : Nat} (hfuel : need < fuel)
    (s : SpongeBytes) :
    squeezeLoop v.rate fuel need s =
      (keccakF^[squeezePermutations v need] s, squeezeBytes v need s) := by
  induction fuel generalizing need s with
  | zero => exact absurd hfuel (Nat.not_lt_zero _)
  | succ fuel ih =>
    rcases Nat.lt_or_ge v.rate need with hmore | hlast
    · have hpos := (rate_pos v).1
      rw [squeezeLoop_more hmore, ih (by omega), squeezeBytes_of_gt hmore,
        squeezePermutations_of_gt hmore, Function.iterate_succ_apply]
    · rw [squeezeLoop_last hlast, squeezeBytes_of_le hlast, squeezePermutations_of_le hlast,
        Function.iterate_zero_apply]

theorem spSqueeze_eq (v : SpongeVariant) (s : SpongeBytes) (n : Nat) :
    spSqueeze v s n = (keccakF^[squeezePermutations v n] s, squeezeBytes v n s) :=
  squeezeLoop_eq v (Nat.lt_succ_self n) s

/-- Settles O50, from what the loop computes. -/
theorem squeezeEmitsExactlyN : Obligations.SqueezeEmitsExactlyN := by
  intro v s n
  rw [spSqueeze_eq]
  exact ⟨squeezeBytes_length v n s, rfl, fun hn => squeezeBytes_of_le hn s,
    fun i hi => squeezeBytes_getD v hi s⟩

/-- Settles O51: both digests are cut from the stream of one padded state. -/
theorem shorterDigestIsPrefix : Obligations.ShorterDigestIsPrefix := by
  intro v m n1 n2 h
  simp only [spongeHash, spSqueeze_eq, squeezeBytes_take v h]

end Sys2Proof.Machine
end

section
/-! Every command and every step answers (R107). A command answers its writes, or the fault code of the
check that refuses it (R102, R113). -/

namespace Sys2Proof.Machine

/-- With an access or reset input pending a step is its effect, with none the core idles. -/
theorem step_answers (s : State) : ∃ t, step s = .next t := by
  cases hp : s.pending with
  | nil => exact ⟨s, step_idle s hp⟩
  | cons e rest =>
    rw [step_of_pending hp]
    exact ⟨_, step_event e s rest⟩

/-- Settles O7: no case of a command or of a step stops the machine. -/
theorem everyStepAnswers : Obligations.EveryStepAnswers :=
  ⟨fun i s => ⟨_, exec_eq_next i s⟩, step_answers⟩

theorem exec_ignored {s : State} (hp : s.phase = .fault) (i : Instr) : exec i s = .next s := by
  rw [exec_eq_next, unlessFault_fault hp]

theorem exec_refused {i : Instr} {s : State} {c : FaultCode} (hp : s.phase ≠ .fault)
    (hc : commandCheck i s = some c) : exec i s = .next (raiseFault c s) := by
  rw [exec_eq_next, unlessFault_ok hp, commandEffect_eq, hc]; rfl

theorem exec_completes {i : Instr} {s : State} (hp : s.phase ≠ .fault)
    (hc : commandCheck i s = none) : exec i s = .next (commandWrites i s) := by
  rw [exec_eq_next, unlessFault_ok hp, commandEffect_eq, hc]; rfl

theorem not_fault_of_absorb {s : State} (hp : s.phase = .absorb) : s.phase ≠ .fault := by
  simp [hp]

theorem not_fault_of_idle_or_done {s : State} (hp : s.phase = .idle ∨ s.phase = .done) :
    s.phase ≠ .fault := by
  rcases hp with hp | hp <;> simp [hp]

theorem not_absorb_of_idle_or_done {s : State} (hp : s.phase = .idle ∨ s.phase = .done) :
    s.phase ≠ .absorb := by
  rcases hp with hp | hp <;> simp [hp]

end Sys2Proof.Machine
end

section
/-! INIT: its checks, and the computation it starts (R103). -/

namespace Sys2Proof.Machine

theorem commandCheck_init_unsupported {var : Byte} (h : 12 < var.toNat) (s : State) :
    commandCheck (.init var) s = some .unsupportedVariant := by
  rw [commandCheck, initVariant_eq_none.2 h]

theorem commandCheck_init_of_id {var : Byte} {v : Variant} (h : var.toNat = v.id) (s : State) :
    commandCheck (.init var) s =
      if v.isShake && badOutbits s.outbits then some .badArgument else none := by
  rw [commandCheck, initVariant_of_id h]

/-- The ids 11 and 12 are those of SHAKE128 and SHAKE256 (R42). -/
theorem exists_shake_of_id {n : Nat} (h : n = 11 ∨ n = 12) :
    ∃ v : Variant, n = v.id ∧ v.isShake = true := by
  rcases h with rfl | rfl
  · exact ⟨.sponge .shake128, rfl, rfl⟩
  · exact ⟨.sponge .shake256, rfl, rfl⟩

theorem exec_init_starts {var : Byte} {v : Variant} {s : State} (hp : s.phase ≠ .fault)
    (hid : var.toNat = v.id) (hfit : OutbitsFit v s.outbits) :
    exec (.init var) s = .next (startComputation v s) := by
  have hc : commandCheck (.init var) s = none := by
    rw [commandCheck_init_of_id hid, if_neg (by simpa using (outbitsFit_iff v s.outbits).1 hfit)]
  rw [exec_completes hp hc, commandWrites_init, initVariant_of_id hid]; rfl

/-- Settles O8: the two refusals by the check they fail, and the start of any variant whose OUTBITS
fit, which no Merkle–Damgård variant looks at. -/
theorem initStartsComputation : Obligations.InitStartsComputation := by
  intro var s
  refine ⟨fun hp => exec_ignored hp _, fun hp hvar => ?_, fun hp hshake hbad => ?_,
    fun v hp hid => ?_, fun v hp hid hfit => ?_⟩
  · exact exec_refused hp (commandCheck_init_unsupported hvar s)
  · obtain ⟨v, hid, hv⟩ := exists_shake_of_id hshake
    refine exec_refused hp ?_
    rw [commandCheck_init_of_id hid, hv, (badOutbits_iff s.outbits).2 hbad]; rfl
  · exact exec_init_starts hp hid fun h => nomatch h
  · exact exec_init_starts hp hid hfit

end Sys2Proof.Machine
end

section
/-! BLOCK: its checks, and the block it consumes (R104). -/

namespace Sys2Proof.Machine

theorem commandCheck_block_sequence {s : State} (hp : s.phase ≠ .absorb) :
    commandCheck .block s = some .sequenceError := by
  rw [commandCheck, if_pos hp]

theorem commandCheck_block {s : State} (hp : s.phase = .absorb) :
    commandCheck .block s =
      if lengthOverflows s s.var.blockBytes then some .lengthOverflow else none := by
  rw [commandCheck, if_neg (not_not.2 hp)]

theorem exec_block_consumes {s : State} (hp : s.phase = .absorb)
    (hl : s.len.toNat + s.var.blockBytes ≤ Config.maxMsgBytes) :
    exec .block s = .next (consumeBlock s) := by
  rw [exec_completes (not_fault_of_absorb hp)]
  · rfl
  · rw [commandCheck_block hp, (lengthOverflows_false_iff _ _).2 hl]; rfl

/-- LEN as a number: adding a byte count to the register is adding it to its value. -/
theorem len_add_ofNat (x : Word64) (n : Nat) :
    x + BitVec.ofNat 64 n = BitVec.ofNat 64 (x.toNat + n) := by
  rw [BitVec.ofNat_add, BitVec.ofNat_toNat, BitVec.setWidth_eq]

/-- Settles O9: the refusals by the check they fail, and the block in either engine. -/
theorem blockConsumesBlock : Obligations.BlockConsumesBlock := by
  intro s
  refine ⟨fun hp => exec_ignored hp _, fun hp => ?_, fun hp hl => ?_, fun v hp hv hl => ?_,
    fun v hp hv hl => ?_⟩
  · exact exec_refused (not_fault_of_idle_or_done hp)
      (commandCheck_block_sequence (not_absorb_of_idle_or_done hp))
  · refine exec_refused (not_fault_of_absorb hp) ?_
    rw [commandCheck_block hp, if_pos ((lengthOverflows_iff _ _).2 hl)]
  · rw [exec_block_consumes hp (by rw [hv]; exact hl), consumeBlock_md hv, len_add_ofNat]; rfl
  · rw [exec_block_consumes hp (by rw [hv]; exact hl), consumeBlock_sponge hv, len_add_ofNat]; rfl

end Sys2Proof.Machine
end

section
/-! FINAL: its checks, and the digest it writes (R105). -/

namespace Sys2Proof.Machine

theorem commandCheck_final_sequence {s : State} (hp : s.phase ≠ .absorb) (lst : Byte) :
    commandCheck (.final lst) s = some .sequenceError := by
  rw [commandCheck, if_pos hp]

theorem commandCheck_final_argument {s : State} {lst : Byte} (hp : s.phase = .absorb)
    (hb : s.var.blockBytes ≤ lst.toNat) : commandCheck (.final lst) s = some .badArgument := by
  rw [commandCheck, if_neg (not_not.2 hp), if_pos hb]

theorem commandCheck_final {s : State} {lst : Byte} (hp : s.phase = .absorb)
    (hb : lst.toNat < s.var.blockBytes) :
    commandCheck (.final lst) s =
      if lengthOverflows s lst.toNat then some .lengthOverflow else none := by
  rw [commandCheck, if_neg (not_not.2 hp), if_neg (Nat.not_le.2 hb)]

theorem exec_final_finishes {s : State} {lst : Byte} (hp : s.phase = .absorb)
    (hb : lst.toNat < s.var.blockBytes) (hl : s.len.toNat + lst.toNat ≤ Config.maxMsgBytes) :
    exec (.final lst) s =
      .next (finishComputation lst.toNat { s with len := s.len + BitVec.ofNat 64 lst.toNat }) := by
  rw [exec_eq_next, unlessFault_ok (not_fault_of_absorb hp)]
  exact congrArg _ (finalEffect_finishes hp hb hl)

theorem mdFinal_length (v : MdVariant) (h : Chain) (buf : List Byte) (lst total : Nat) :
    (mdFinal v h buf lst total).2.length = v.digestBytes := extractedDigestLength v _

theorem spSqueeze_length (v : SpongeVariant) (s : SpongeBytes) (n : Nat) :
    (spSqueeze v s n).2.length = n := by
  rw [spSqueeze_eq]; exact squeezeBytes_length v n s

/-- The end of FINAL writes a digest of XOFN bytes, whatever the engine left in H, S and LEN. -/
theorem digestWritten_finishDigest (s : State) (len : Word64) (h : Chain) (sp : SpongeBytes)
    {d : List Byte} (hd : d.length = s.xofn.toNat) :
    DigestWritten s (finishDigest d { s with len := len, h := h, sponge := sp }) d := by
  refine ⟨rfl, hd, fun i => ?_⟩
  rw [finishDigest_dout, Fin.getElem_fin, writeDigest_getElem]
  split
  next hi => rw [List.getD_eq_getElem _ _ (hd ▸ hi), List.getD_eq_getElem _ _ (hd ▸ hi)]
  next => rfl

/-- Settles O10: the refusals by the check they fail, and the digest of either engine, which has
XOFN bytes. -/
theorem finalWritesDigest : Obligations.FinalWritesDigest := by
  intro lst s
  refine ⟨fun hp => exec_ignored hp _, fun hp => ?_, fun hp hb => ?_, fun hp hb hl => ?_,
    fun v hp hv hx hb hl => ?_, fun v hp hv hb hl => ?_⟩
  · exact exec_refused (not_fault_of_idle_or_done hp)
      (commandCheck_final_sequence (not_absorb_of_idle_or_done hp) lst)
  · exact exec_refused (not_fault_of_absorb hp) (commandCheck_final_argument hp hb)
  · refine exec_refused (not_fault_of_absorb hp) ?_
    rw [commandCheck_final hp hb, if_pos ((lengthOverflows_iff _ _).2 hl)]
  · refine ⟨_, exec_final_finishes hp (by rw [hv]; exact hb) hl, ?_⟩
    rw [finishComputation_md (s := { s with len := s.len + _ }) hv, ← len_add hl]
    exact ⟨rfl, rfl, rfl, digestWritten_finishDigest s _ _ s.sponge
      ((mdFinal_length v _ _ _ _).trans hx.symm)⟩
  · refine ⟨_, exec_final_finishes hp (by rw [hv]; exact hb) hl, ?_⟩
    rw [finishComputation_sponge (s := { s with len := s.len + _ }) hv, ← len_add hl]
    exact ⟨rfl, rfl, rfl, digestWritten_finishDigest s _ s.h _ (spSqueeze_length v _ _)⟩

end Sys2Proof.Machine
end

section
/-! What BLOCK and FINAL read of BLK (R104, R105, R126). -/

namespace Sys2Proof.Machine

/-- `s` with another BLK. -/
def setBlk (b : Vector Byte 168) (s : State) : State := { s with blk := b }

theorem setBlk_outside (i : Instr) (b : Vector Byte 168) : OutsideChecks i (setBlk b) :=
  ⟨fun _ => rfl, fun _ => commandCheck_congr rfl rfl rfl fun _ => rfl, fun _ _ => rfl⟩

theorem blkPrefix_setBlk {b : Vector Byte 168} {s : State} {n : Nat}
    (hb : ∀ i : Fin 168, i.val < n → b[i] = s.blk[i]) :
    blkPrefix (setBlk b s) n = blkPrefix s n := toList_take_congr hb

/-- BLOCK reads BLK[0..B) only. -/
theorem consumeBlock_setBlk {b : Vector Byte 168} {s : State}
    (hb : ∀ i : Fin 168, i.val < s.var.blockBytes → b[i] = s.blk[i]) :
    consumeBlock (setBlk b s) = setBlk b (consumeBlock s) := by
  obtain ⟨v, hv⟩ | ⟨v, hv⟩ := var_cases s
  · rw [hv] at hb
    rw [consumeBlock_md hv, consumeBlock_md (s := setBlk b s) hv,
      blkPrefix_setBlk (n := v.blockBytes) hb]; rfl
  · rw [hv] at hb
    rw [consumeBlock_sponge hv, consumeBlock_sponge (s := setBlk b s) hv,
      blkPrefix_setBlk (n := v.rate) hb]; rfl

/-- FINAL reads BLK[0..lst) only. -/
theorem finishComputation_setBlk {b : Vector Byte 168} {s : State} {n : Nat}
    (hb : ∀ i : Fin 168, i.val < n → b[i] = s.blk[i]) :
    finishComputation n (setBlk b s) = setBlk b (finishComputation n s) := by
  obtain ⟨v, hv⟩ | ⟨v, hv⟩ := var_cases s
  · rw [finishComputation_md hv, finishComputation_md (s := setBlk b s) hv,
      mdFinal_congr v _ _ s.blk.toList n _ (blkPrefix_setBlk hb)]; rfl
  · rw [finishComputation_sponge hv, finishComputation_sponge (s := setBlk b s) hv,
      blkPrefix_setBlk hb]; rfl

/-- Settles O18: BLK is outside every check, and the writes read no more than the given bytes. -/
theorem commandsReadOnlyTheirBytes : Obligations.CommandsReadOnlyTheirBytes := by
  intro s t b
  refine ⟨fun hb h => ?_, fun lst hb h => ?_⟩
  · exact exec_commutes (setBlk_outside _ b) h fun _ => consumeBlock_setBlk hb
  · exact exec_commutes (setBlk_outside _ b) h fun _ =>
      finishComputation_setBlk (s := { s with len := s.len + lst.setWidth 64 }) hb

end Sys2Proof.Machine
end

section
/-! The work of a command: how often it compresses or permutes (R107, R129). -/

namespace Sys2Proof.Machine

/-- At most 512 bytes take three permutations after the first chunk, and the digest of a fixed-output
variant takes none (R99). -/
theorem squeezePermutations_le_three {v : SpongeVariant} {n : Nat} (hn : n ≤ Config.maxXofBytes)
    (hfixed : v.isShake = false → n = v.digestBytes 0) : squeezePermutations v n ≤ 3 := by
  have hn : n ≤ 512 := hn
  cases v with
  | sha3_224 | sha3_256 | sha3_384 | sha3_512 =>
    rw [hfixed rfl]
    decide
  | shake128 | shake256 =>
    simp only [squeezePermutations, SpongeVariant.rate]
    omega

theorem startComputation_engines (v : Variant) (s : State) :
    ((startComputation v s).h = s.h ∨ ∃ m, (startComputation v s).h = mdIv m) ∧
    ((startComputation v s).sponge = s.sponge ∨
      (startComputation v s).sponge = Vector.replicate 200 0) := by
  cases v with
  | md m => exact ⟨.inr ⟨m, rfl⟩, .inl rfl⟩
  | sponge m => exact ⟨.inl rfl, .inr rfl⟩

/-- The squeeze goes on permuting the state that the padding permuted first (R98, R99). -/
theorem spSqueeze_spPad_fst (v : SpongeVariant) (s : SpongeBytes) (rem : List Byte) (lst n : Nat) :
    (spSqueeze v (spPad v s rem lst) n).1 =
      keccakF^[1 + squeezePermutations v n] (spPadXor v s rem lst) := by
  rw [spSqueeze_eq, Nat.add_comm, Function.iterate_succ_apply]; rfl

theorem mdFinalBlocks_one_or_two (v : MdVariant) (buf : List Byte) (lst total : Nat) :
    (mdFinalBlocks v buf lst total).length = 1 ∨ (mdFinalBlocks v buf lst total).length = 2 := by
  rw [mdFinalBlocks_length]
  split
  · exact .inr rfl
  · exact .inl rfl

theorem init_engines {var : Byte} {s t : State} (h : exec (.init var) s = .next t) :
    (t.h = s.h ∨ ∃ v, t.h = mdIv v) ∧
    (t.sponge = s.sponge ∨ t.sponge = Vector.replicate 200 0) := by
  rcases exec_cases h with ⟨-, rfl⟩ | ⟨-, c, -, rfl⟩ | ⟨-, _, v, -, -, -, rfl⟩ | ⟨hi, -⟩ | ⟨_, hi, -⟩
  · exact ⟨.inl rfl, .inl rfl⟩
  · exact ⟨.inl rfl, .inl rfl⟩
  · exact startComputation_engines v s
  · cases hi
  · cases hi

theorem block_refused_or_consumes {s t : State} (h : exec .block s = .next t) :
    (t.phase = .fault ∧ t.h = s.h ∧ t.sponge = s.sponge) ∨
    (s.phase = .absorb ∧ t = consumeBlock s) := by
  rcases exec_cases h with ⟨hp, rfl⟩ | ⟨-, c, -, rfl⟩ | ⟨-, _, _, hi, -⟩ | ⟨-, hp, -, rfl⟩ | ⟨_, hi, -⟩
  · exact .inl ⟨hp, rfl, rfl⟩
  · exact .inl ⟨rfl, rfl, rfl⟩
  · cases hi
  · exact .inr ⟨hp, rfl⟩
  · cases hi

theorem final_refused_or_finishes {lst : Byte} {s t : State} (h : exec (.final lst) s = .next t) :
    (t.phase = .fault ∧ t.h = s.h ∧ t.sponge = s.sponge) ∨
    (s.phase = .absorb ∧
      t = finishComputation lst.toNat { s with len := s.len + BitVec.ofNat 64 lst.toNat }) := by
  rcases exec_cases h with ⟨hp, rfl⟩ | ⟨-, c, -, rfl⟩ | ⟨-, _, _, hi, -⟩ | ⟨hi, -⟩ |
    ⟨_, hi, hp, -, -, rfl⟩
  · exact .inl ⟨hp, rfl, rfl⟩
  · exact .inl ⟨rfl, rfl, rfl⟩
  · cases hi
  · cases hi
  · cases hi
    exact .inr ⟨hp, rfl⟩

/-- XOFN takes at most four permutations of a sponge computation (R16, R99). -/
theorem State.Inv.squeezePermutations_le {s : State} (hs : s.Inv) (hc : s.computing)
    {v : SpongeVariant} (hv : s.var = .sponge v) : 1 + squeezePermutations v s.xofn.toNat ≤ 4 := by
  have hfixed : v.isShake = false → s.xofn.toNat = v.digestBytes 0 := fun h => by
    have hx := hs.xofnFixed hc (by rw [hv]; exact h)
    rwa [hv] at hx
  have := squeezePermutations_le_three hs.xofnBound hfixed
  omega

/-- Settles O53: a command that does work is an accepted one, and its writes show the work. -/
theorem workIsBounded : Obligations.WorkIsBounded := by
  refine ⟨fun var s t => init_engines, fun s t h => ?_, fun lst s t hs h => ?_⟩
  · rcases block_refused_or_consumes h with hfault | ⟨hp, rfl⟩
    · exact .inl hfault
    · obtain ⟨v, hv⟩ | ⟨v, hv⟩ := var_cases s
      · refine .inr (.inl ⟨v, hv, (consumeBlock_phase s).trans hp, ?_⟩)
        rw [consumeBlock_md hv]
        exact ⟨rfl, rfl⟩
      · refine .inr (.inr ⟨v, hv, (consumeBlock_phase s).trans hp, ?_⟩)
        rw [consumeBlock_sponge hv]
        exact ⟨rfl, rfl⟩
  · rcases final_refused_or_finishes h with hfault | ⟨hp, rfl⟩
    · exact .inl hfault
    · obtain ⟨v, hv⟩ | ⟨v, hv⟩ := var_cases s
      · refine .inr (.inl ⟨v, hv, finishComputation_phase _ _, ?_⟩)
        rw [finishComputation_md (s := { s with len := s.len + _ }) hv]
        exact ⟨rfl, rfl, mdFinalBlocks_one_or_two _ _ _ _⟩
      · refine .inr (.inr ⟨v, hv, finishComputation_phase _ _, ?_⟩)
        rw [finishComputation_sponge (s := { s with len := s.len + _ }) hv]
        exact ⟨rfl, spSqueeze_spPad_fst _ _ _ _ _, hs.squeezePermutations_le (.inl hp) hv⟩

end Sys2Proof.Machine
end

section
/-! The host procedure from SETXOF on, and what it returns where it cannot hash (R106). -/

namespace Sys2Proof.Machine

/-- The state before the INIT of the procedure: SETXOF is issued for SHAKE only (R106). -/
def afterSetXof (v : Variant) (bits : Word32) (s : State) : State :=
  if v.isShake then { s with outbits := bits, resp := .ack } else s

theorem runEvents_hostHash (v : Variant) (m : List Byte) (bits : Word32) (s : State) :
    runEvents (hostHash v m bits) s = runEvents (hashAccesses v m) (afterSetXof v bits s) := by
  rw [hostHash, afterSetXof, runEvents_append]
  cases v.isShake <;> rfl

@[simp] theorem afterSetXof_phase (v : Variant) (bits : Word32) (s : State) :
    (afterSetXof v bits s).phase = s.phase := by
  unfold afterSetXof; split <;> rfl

@[simp] theorem afterSetXof_fcode (v : Variant) (bits : Word32) (s : State) :
    (afterSetXof v bits s).fcode = s.fcode := by
  unfold afterSetXof; split <;> rfl

theorem afterSetXof_outbits {v : Variant} (hv : v.isShake = true) (bits : Word32) (s : State) :
    (afterSetXof v bits s).outbits = bits := by
  rw [afterSetXof, if_pos hv]

/-- INIT finds OUTBITS fit where `bits` is: SETXOF wrote it, or the variant does not look (R103). -/
theorem outbitsFit_afterSetXof (v : Variant) (bits : Word32) (s : State) :
    OutbitsFit v (afterSetXof v bits s).outbits ↔ OutbitsFit v bits :=
  forall_congr' fun hv => by rw [afterSetXof_outbits hv]

theorem digestBytes_afterSetXof (v : Variant) (bits : Word32) (s : State) :
    v.digestBytes (afterSetXof v bits s).outbits.toNat = v.digestBytes bits.toNat := by
  cases hv : v.isShake with
  | true => rw [afterSetXof_outbits hv]
  | false => rw [digestBytes_fixed hv, digestBytes_fixed hv bits.toNat]

theorem hostResult_of_latched {code : FaultCode} {d : BitVec 10} {s : State}
    (h : Latched code d s) : hostResult s = .error code := by
  rw [hostResult, if_neg (by simp [h.phase]), h.fcode]

theorem hostResult_of_done {s : State} (h : s.phase = .done) : hostResult s = .ok (digestOf s) :=
  if_pos h

theorem hostResult_pending (s : State) (p : List HostEvent) :
    hostResult { s with pending := p } = hostResult s := rfl

/-- Settles O34: a latched code stays to the end of the procedure, and each refusal latches its
own. -/
theorem hostProcedureReportsFault : Obligations.HostProcedureReportsFault := by
  intro v m bits s rest
  refine ⟨_, run_events _ rest s, rfl, ?_⟩
  rw [hostResult_pending, runEvents_hostHash]
  refine ⟨fun hp => ?_, fun hp hv hbad => ?_, fun hp hfit hm => ?_⟩
  · have hlatched := afterInit_ignored ((afterSetXof_phase v bits s).trans hp) v
    rw [hostResult_of_latched (hash_latched hlatched m), afterSetXof_fcode]
  · have hunfit : ¬ OutbitsFit v bits := fun h => by
      have := h hv
      omega
    have hrefused := afterInit_refused (s := afterSetXof v bits s) (by simpa using hp)
      (mt (outbitsFit_afterSetXof v bits s).1 hunfit)
    exact hostResult_of_latched (hash_latched hrefused m)
  · exact hostResult_of_latched
      (hash_overflows (by simpa using hp) ((outbitsFit_afterSetXof v bits s).2 hfit) hm)

end Sys2Proof.Machine
end

section
/-! The engine's state along the host procedure: that of MDHash or SpongeHash after as many blocks
(R86, R100, R106). -/

namespace Sys2Proof.Machine

/-- H after the first `q` blocks of `m` (R86). -/
def mdChain (v : MdVariant) (m : List Byte) (q : Nat) : Chain :=
  (List.range q).foldl
    (fun h j => compress v h (slice m (j * v.blockBytes) v.blockBytes)) (mdIv v)

/-- S after the first `q` blocks of `m` (R100). -/
def spongeChain (v : SpongeVariant) (m : List Byte) (q : Nat) : SpongeBytes :=
  (List.range q).foldl (fun s j => spAbsorb v s (slice m (j * v.rate) v.rate))
    (Vector.replicate 200 0)

theorem mdChain_succ (v : MdVariant) (m : List Byte) (q : Nat) :
    mdChain v m (q + 1) =
      compress v (mdChain v m q) (slice m (q * v.blockBytes) v.blockBytes) := by
  simp [mdChain, List.range_succ]

theorem spongeChain_succ (v : SpongeVariant) (m : List Byte) (q : Nat) :
    spongeChain v m (q + 1) = spAbsorb v (spongeChain v m q) (slice m (q * v.rate) v.rate) := by
  simp [spongeChain, List.range_succ]

/-- The engine of `v` has consumed the first `q` blocks of `m`. -/
structure EngineAt (v : Variant) (m : List Byte) (q : Nat) (s : State) : Prop where
  md : ∀ w, v = .md w → s.h = mdChain w m q
  sponge : ∀ w, v = .sponge w → s.sponge = spongeChain w m q

theorem startComputation_engineAt (v : Variant) (m : List Byte) (s : State) :
    EngineAt v m 0 (startComputation v s) where
  md w hv := by subst hv; rfl
  sponge w hv := by subst hv; rfl

theorem consumeBlock_engineAt {v : Variant} {m : List Byte} {q : Nat} {s : State}
    (hs : EngineAt v m q s) (hv : s.var = v)
    (hblk : blkPrefix s v.blockBytes = slice m (q * v.blockBytes) v.blockBytes) :
    EngineAt v m (q + 1) (consumeBlock s) where
  md w hw := by
    subst hw
    rw [consumeBlock_md hv, mdChain_succ, ← hs.md w rfl]
    exact congrArg (compress w s.h) hblk
  sponge w hw := by
    subst hw
    rw [consumeBlock_sponge hv, spongeChain_succ, ← hs.sponge w rfl]
    exact congrArg (spAbsorb w s.sponge) hblk

/-- INIT of the procedure starts the computation of its variant (R103, R106). -/
theorem afterInit_starts {v : Variant} {s : State} (hs : s.phase ≠ .fault)
    (hfit : OutbitsFit v s.outbits) :
    afterInit v s = startComputation v { s with resp := .ack } := by
  rw [outbitsFit_iff] at hfit
  rw [afterInit_eq, unlessFault_ok (s := { s with resp := .ack }) hs, initEffect_ofNat_id,
    if_neg (by simpa using hfit)]

/-- LOADBLK of a full block and BLOCK: the loaded block is consumed. -/
theorem Absorbing.loadThenBlock {v : Variant} {x : BitVec 10} {n : Nat} {s : State}
    (h : Absorbing v x n s) (hle : n + v.blockBytes ≤ Config.maxMsgBytes) {bs : List Byte}
    (hbs : bs.length ≤ 168) :
    runEvents (loadBlk bs ++ [commandWrite .block]) s =
      consumeBlock { s with resp := .ack, blk := overlay bs s.blk } := by
  rw [loadThenCommand_effect hbs rfl,
    unlessFault_ok (s := { s with resp := .ack, blk := overlay bs s.blk }) h.not_fault]
  exact blockEffect_consumes h.phase (by rw [h.var, h.len]; exact hle)

/-- LOADBLK of the remainder and FINAL: the computation is finished on the loaded bytes. -/
theorem Absorbing.loadThenFinal {v : Variant} {x : BitVec 10} {n : Nat} {s : State}
    (h : Absorbing v x n s) {bs : List Byte} (hbs : bs.length < v.blockBytes)
    (hle : n + bs.length ≤ Config.maxMsgBytes) :
    runEvents (loadBlk bs ++ [commandWrite (.final (BitVec.ofNat 8 bs.length))]) s =
      finishComputation bs.length { s with
        resp := .ack, blk := overlay bs s.blk, len := s.len + BitVec.ofNat 64 bs.length } := by
  have h168 : bs.length ≤ 168 := hbs.le.trans (blockBytes_le v)
  have hlst : (BitVec.ofNat 8 bs.length).toNat = bs.length := by
    rw [BitVec.toNat_ofNat, Nat.mod_eq_of_lt (by omega)]
  rw [loadThenCommand_effect h168 rfl,
    unlessFault_ok (s := { s with resp := .ack, blk := overlay bs s.blk }) h.not_fault]
  have hfinal := finalEffect_finishes (s := { s with resp := .ack, blk := overlay bs s.blk })
    (lst := BitVec.ofNat 8 bs.length) h.phase (by rw [hlst, h.var]; exact hbs)
    (by rw [hlst, h.len]; exact hle)
  rw [hlst] at hfinal
  exact hfinal

theorem hash_absorbing {v : Variant} {s : State} (hs : s.phase ≠ .fault)
    (hfit : OutbitsFit v s.outbits) (m : List Byte) {q : Nat}
    (hq : q * v.blockBytes ≤ Config.maxMsgBytes) :
    Absorbing v (initXofn v s.outbits) (q * v.blockBytes)
      (runEvents (blockAccesses v m q) (afterInit v s)) := by
  cases hash_blocks hs hfit m q with
  | absorbing _ h => exact h
  | overflowed hn => omega

/-- Block by block the engine computes what MDHash and SpongeHash compute (R86, R100). -/
theorem hash_engineAt {v : Variant} {s : State} (hs : s.phase ≠ .fault)
    (hfit : OutbitsFit v s.outbits) {m : List Byte} (hm : m.length ≤ Config.maxMsgBytes) {q : Nat}
    (hq : q * v.blockBytes ≤ m.length) :
    EngineAt v m q (runEvents (blockAccesses v m q) (afterInit v s)) := by
  induction q with
  | zero =>
    rw [afterInit_starts hs hfit]
    exact startComputation_engineAt v m _
  | succ q ih =>
    rw [Nat.succ_mul] at hq
    have habs := hash_absorbing hs hfit m (q := q) (by omega)
    obtain ⟨hmd, hsponge⟩ := ih (by omega)
    rw [blockAccesses_succ, runEvents_append]
    generalize runEvents (blockAccesses v m q) (afterInit v s) = t at *
    have hlen := slice_length m (q * v.blockBytes) v.blockBytes hq
    have h168 := hlen.trans_le (blockBytes_le v)
    have hblk := overlay_take _ t.blk h168
    rw [hlen] at hblk
    rw [habs.loadThenBlock (by omega) h168]
    exact consumeBlock_engineAt ⟨hmd, hsponge⟩ habs.var hblk

end Sys2Proof.Machine
end

section
/-! The host procedure computes MDHash and SpongeHash (R86, R100, R106). -/

namespace Sys2Proof.Machine

theorem hashOf_length (v : Variant) (m : List Byte) (bits : Nat) :
    (hashOf v m bits).length = v.digestBytes bits := by
  cases v with
  | md v => exact mdFinal_length v _ _ _ _
  | sponge v => exact spSqueeze_length v _ _

/-- `bits` reaches the digest through its length only (R6, R100). -/
theorem hashOf_congr {v : Variant} {a b : Nat} (h : v.digestBytes a = v.digestBytes b)
    (m : List Byte) : hashOf v m a = hashOf v m b := by
  cases v with
  | md v => rfl
  | sponge v => exact congrArg (spongeHash v m) h

theorem mdHash_eq (v : MdVariant) (m : List Byte) :
    mdHash v m =
      (mdFinal v (mdChain v m (m.length / v.blockBytes)) (remainder (.md v) m)
        (remainder (.md v) m).length m.length).2 := by
  rw [remainder, List.length_drop]; rfl

theorem spongeHash_eq (v : SpongeVariant) (m : List Byte) (n : Nat) :
    spongeHash v m n =
      (spSqueeze v (spPad v (spongeChain v m (m.length / v.rate)) (remainder (.sponge v) m)
        (remainder (.sponge v) m).length) n).2 := by
  rw [remainder, List.length_drop]; rfl

/-- FINAL on the remainder, after the full blocks, writes the digest of the whole message. -/
theorem finishComputation_hashOf {v : Variant} {m : List Byte} {bits : Nat} {s : State}
    (hs : EngineAt v m (m.length / v.blockBytes) s) (hv : s.var = v)
    (hblk : blkPrefix s (remainder v m).length = remainder v m) (hlen : s.len.toNat = m.length)
    (hx : s.xofn.toNat = v.digestBytes bits) :
    ∃ h sp, finishComputation (remainder v m).length s =
      finishDigest (hashOf v m bits) { s with h := h, sponge := sp } := by
  cases v with
  | md v =>
    have hbuf : s.blk.toList.take (remainder (.md v) m).length =
        (remainder (.md v) m).take (remainder (.md v) m).length := by
      rw [List.take_length]; exact hblk
    refine ⟨_, s.sponge, (finishComputation_md hv _).trans (congrArg₂ finishDigest ?_ rfl)⟩
    rw [hs.md v rfl, hlen, mdFinal_congr v _ _ _ _ _ hbuf]
    exact (mdHash_eq v m).symm
  | sponge v =>
    refine ⟨s.h, _, (finishComputation_sponge hv _).trans (congrArg₂ finishDigest ?_ rfl)⟩
    rw [hs.sponge v rfl, hblk, hx]
    exact (spongeHash_eq v m _).symm

/-- The host reads the digest that FINAL wrote, where it has XOFN bytes (R58, R105). -/
theorem digestOf_finishDigest {d : List Byte} {s : State} (hd : d.length = s.xofn.toNat)
    (hx : s.xofn.toNat ≤ 512) : digestOf (finishDigest d s) = d := by
  refine List.ext_getElem (by simp [digestOf, hd, hx]) fun i _ hi => ?_
  have h512 : i < 512 := by omega
  simp only [digestOf, List.getElem_take, finishDigest_dout, Vector.getElem_toList,
    writeDigest_getElem]
  rw [if_pos (hd ▸ hi), List.getD_eq_getElem _ _ hi]

/-- What the procedure leaves: a finished computation whose digest is the message's. -/
theorem hash_computes {v : Variant} {s : State} (hs : s.phase ≠ .fault)
    (hfit : OutbitsFit v s.outbits) {m : List Byte} (hm : m.length ≤ Config.maxMsgBytes) :
    ∃ u : State, runEvents (hashAccesses v m) s = finishDigest (hashOf v m s.outbits.toNat) u ∧
      u.len.toNat = m.length ∧ u.xofn.toNat = v.digestBytes s.outbits.toNat := by
  have hsplit := blocks_add_remainder v m
  have habs := hash_absorbing hs hfit m (q := m.length / v.blockBytes) (by omega)
  obtain ⟨hmd, hsp⟩ := hash_engineAt hs hfit hm (q := m.length / v.blockBytes) (by omega)
  rw [runEvents_hashAccesses]
  generalize runEvents (blockAccesses v m (m.length / v.blockBytes)) (afterInit v s) = t at *
  have hlen := len_add (x := t.len) (n := (remainder v m).length) (by rw [habs.len]; omega)
  rw [habs.len, hsplit] at hlen
  have hx := initXofn_toNat ((outbitsFit_iff v s.outbits).1 hfit)
  rw [habs.loadThenFinal (remainder_lt v m) (by omega)]
  obtain ⟨h, sp, he⟩ := finishComputation_hashOf (bits := s.outbits.toNat)
    (s := { t with resp := .ack, blk := overlay (remainder v m) t.blk, len := t.len + _ })
    ⟨hmd, hsp⟩ habs.var (overlay_take _ _ (remainder_le v m)) hlen (habs.xofn ▸ hx)
  exact ⟨_, he, hlen, habs.xofn ▸ hx⟩

/-- Settles O33: the engine follows MDHash or SpongeHash block by block, and FINAL writes the
digest. -/
theorem hostProcedureComputesHash : Obligations.HostProcedureComputesHash := by
  intro v m bits s rest hp hm hfit
  have hfit' := (outbitsFit_afterSetXof v bits s).2 hfit
  obtain ⟨u, he, hlen, hx⟩ :=
    hash_computes (s := afterSetXof v bits s) (by simpa using hp) hfit' hm
  rw [digestBytes_afterSetXof] at hx
  rw [hashOf_congr (digestBytes_afterSetXof v bits s)] at he
  have h512 := hx.trans_le (digestBytes_le ((outbitsFit_iff v bits).1 hfit))
  have hdigest : digestOf (finishDigest (hashOf v m bits.toNat) u) = hashOf v m bits.toNat :=
    digestOf_finishDigest ((hashOf_length v m _).trans hx.symm) h512
  refine ⟨_, run_events _ rest s, rfl, ?_⟩
  rw [runEvents_hostHash, he]
  exact ⟨rfl, hlen, hx, hdigest, (hostResult_of_done rfl).trans (congrArg _ hdigest)⟩

end Sys2Proof.Machine
end

section
/-! Fault entry seen from the host (R111), the sticky FAULT phase (R112), and which check decides the
outcome of a command (R113). -/

namespace Sys2Proof.Machine

/-- Settles O6: with nothing pending there is no action to take. -/
theorem idleCoreHolds : Obligations.IdleCoreHolds := step_idle

/-! ### Fault entry -/

/-- A command that reaches FAULT did so by fault entry: none of the three completions ends there. -/
theorem exec_enters_fault {i : Instr} {s t : State} (h : exec i s = .next t)
    (hs : s.phase ≠ .fault) (ht : t.phase = .fault) : ∃ c, c ≠ .none ∧ t = raiseFault c s := by
  rcases exec_cases h with ⟨hf, -⟩ | ⟨-, hc⟩ | ⟨-, _, v, -, -, -, rfl⟩ | ⟨-, -, -, rfl⟩ |
    ⟨_, -, -, -, -, rfl⟩
  · exact absurd hf hs
  · exact hc
  · simp at ht
  · exact absurd ((consumeBlock_phase s).symm.trans ht) hs
  · simp at ht

/-- Outside FAULT a word that is no command is a fault entry (R43, R102). -/
theorem step_write_cmd_illegal {s : State} {w : Word32} {e : IllegalWord} (hd : decode w = .error e)
    (hs : s.phase ≠ .fault) (rest : List HostEvent) :
    step { s with pending := .write 0x000 4 w :: rest } =
      .next (raiseFault .illegalCommand { s with pending := rest, resp := .ack }) := by
  rw [step_write_cmd, hd]
  exact congrArg Host.Outcome.next (unlessFault_ok hs)

/-- Settles O11: a word that is a command or none reaches FAULT by fault entry only. -/
theorem refusedCommandChangesOnlyPhaseAndFcode :
    Obligations.RefusedCommandChangesOnlyPhaseAndFcode := by
  intro s t w rest hs h ht
  have entered : ∃ c, c ≠ .none ∧ t = raiseFault c { s with pending := rest, resp := .ack } := by
    cases hd : decode w with
    | ok i => rw [step_write_cmd, hd] at h; exact exec_enters_fault h hs ht
    | error e =>
      rw [step_write_cmd_illegal hd hs] at h; cases h
      exact ⟨.illegalCommand, by simp, rfl⟩
  obtain ⟨c, hc, rfl⟩ := entered
  exact ⟨hc, rfl⟩

/-! ### The sticky FAULT phase -/

/-- In FAULT a word written to CMD, a command or none, is acknowledged and ignored. -/
theorem step_write_cmd_ignored {s : State} (hs : s.phase = .fault) (w : Word32)
    (rest : List HostEvent) :
    step { s with pending := .write 0x000 4 w :: rest } =
      .next { s with pending := rest, resp := .ack } := by
  rw [step_write_cmd]
  cases decode w with
  | ok i => exact exec_ignored (s := { s with pending := rest, resp := .ack }) hs i
  | error e => exact congrArg Host.Outcome.next (unlessFault_fault hs)

/-- Of the moves of a step only a reset input starts in FAULT and ends elsewhere. -/
theorem step_leaves_fault {s t : State} (h : step s = .next t) (hs : s.phase = .fault)
    (ht : t.phase ≠ .fault) : s.pending.head? = some .reset := by
  cases step_move h with
  | reset hr => exact hr
  | stays _ hst => exact absurd (hst.trans hs) ht
  | refused _ _ _ hf => exact absurd hf ht
  | started _ hi | consumed hi | finished _ hi => exact absurd hs hi.1

/-- `s` with another PHASE and FCODE. -/
def setFault (p : Phase) (c : FaultCode) (s : State) : State := { s with phase := p, fcode := c }

/-- STATUS, at its own offset, is the one register that shows PHASE and FCODE (R14, R25). -/
theorem memRead_setFault {a : Nat} (ha : a ≠ 0x004) (p : Phase) (c : FaultCode) (s : State)
    (n : Nat) : memRead (setFault p c s) a n = memRead s a n := by
  unfold memRead
  by_cases hadm : admitted a n = true
  · rw [if_pos hadm, if_pos hadm]
    cases hr : regionOf a with
    | status =>
      have hlo := (regionOf_status_iff a).1 hr
      obtain rfl | rfl := admitted_width hadm
      · have := (admitted_byte_iff a).1 hadm; omega
      · have := (admitted_word_offsets a).1 hadm; omega
    | cmd | outbits | lenLo | lenHi | blk | dout | reserved => rfl
  · rw [if_neg hadm, if_neg hadm]

theorem hostRead_setFault {a : Nat} (ha : a ≠ 0x004) (p : Phase) (c : FaultCode) (s : State)
    (n : Nat) : hostRead (setFault p c s) a n = setFault p c (hostRead s a n) := by
  unfold hostRead
  rw [memRead_setFault ha]
  cases memRead s a n <;> rfl

theorem hostWrite_setFault (p : Phase) (c : FaultCode) (s : State) (a n : Nat) (v : Word32) :
    hostWrite (setFault p c s) a n v = (hostWrite s a n v).map (setFault p c) := by
  unfold hostWrite
  split_ifs with hadm hn
  · cases regionOf a <;> rfl
  · cases regionOf a <;> rfl
  · rfl

/-- Outside STATUS and CMD an access acts alike in every phase (R112). -/
theorem hostEvent_setFault {e : HostEvent}
    (he : (∃ a n, e = .read a n ∧ a ≠ 0x004) ∨ (∃ a n v, e = .write a n v ∧ a ≠ 0x000))
    (p : Phase) (c : FaultCode) (s : State) :
    hostEvent e (setFault p c s) = (hostEvent e s).map (setFault p c) := by
  obtain ⟨a, n, rfl, ha⟩ | ⟨a, n, v, rfl, -⟩ := he
  · exact congrArg HostAction.done (hostRead_setFault ha p c s n)
  · exact hostWrite_setFault p c s a n v

theorem step_setFault {s t : State} {e : HostEvent} {rest : List HostEvent}
    (he : (∃ a n, e = .read a n ∧ a ≠ 0x004) ∨ (∃ a n v, e = .write a n v ∧ a ≠ 0x000))
    (h : step { s with pending := e :: rest } = .next t) (p : Phase) (c : FaultCode) :
    step { setFault p c s with pending := e :: rest } = .next (setFault p c t) := by
  have hcmd : ∀ w, e ≠ .write 0x000 4 w := by
    rintro w rfl
    simp at he
  obtain ⟨u, hu⟩ := hostEvent_done hcmd { s with pending := rest }
  have hu' : hostEvent e { setFault p c s with pending := rest } = .done (setFault p c u) := by
    rw [← HostAction.map, ← hu]
    exact hostEvent_setFault he p c { s with pending := rest }
  rw [step_event, eventEffect_of_done hu] at h
  rw [step_event, eventEffect_of_done hu']
  cases h
  rfl

/-- Settles O12: commands are ignored, the moves of a step leave FAULT by reset only, and the other
accesses do not look at PHASE and FCODE. -/
theorem faultIsSticky : Obligations.FaultIsSticky :=
  ⟨fun _ w rest hs => step_write_cmd_ignored hs w rest, fun _ _ h hs ht => step_leaves_fault h hs ht,
    fun _ _ p c _ _ _ he h => step_setFault he h p c⟩

/-! ### The deciding check -/

/-- A check that fails decides the outcome: its code is latched. -/
theorem exec_latches {i : Instr} {s t : State} {c : FaultCode} (h : exec i s = .next t)
    (hs : s.phase ≠ .fault) (hc : commandCheck i s = some c) :
    t.phase = .fault ∧ t.fcode = c := by
  rw [exec_refused hs hc] at h
  cases h
  exact ⟨rfl, rfl⟩

theorem commandCheck_init_argument {var : Byte} {s : State}
    (hshake : var.toNat = 11 ∨ var.toNat = 12)
    (hbad : s.outbits.toNat % 8 ≠ 0 ∨ 4096 < s.outbits.toNat) :
    commandCheck (.init var) s = some .badArgument := by
  obtain ⟨v, hid, hv⟩ := exists_shake_of_id hshake
  rw [commandCheck_init_of_id hid, hv, (badOutbits_iff s.outbits).2 hbad]; rfl

/-- The rows of R113 for INIT. -/
theorem exec_init_outcome {var : Byte} {s t : State} (h : exec (.init var) s = .next t)
    (hs : s.phase ≠ .fault) :
    if 12 < var.toNat then t.phase = .fault ∧ t.fcode = .unsupportedVariant
    else if (var.toNat = 11 ∨ var.toNat = 12) ∧
        (s.outbits.toNat % 8 ≠ 0 ∨ 4096 < s.outbits.toNat) then
      t.phase = .fault ∧ t.fcode = .badArgument
    else t.phase = .absorb := by
  split_ifs with hvar hbad
  · exact exec_latches h hs (commandCheck_init_unsupported hvar s)
  · exact exec_latches h hs (commandCheck_init_argument hbad.1 hbad.2)
  · obtain ⟨v, hv⟩ := Option.ne_none_iff_exists'.1 (mt initVariant_eq_none.1 hvar)
    have hid := initVariant_id hv
    have hfit : OutbitsFit v s.outbits := by
      rw [outbitsFit_iff, isShake_iff_id, ← hid, badOutbits_iff]
      exact hbad
    rw [exec_init_starts hs hid hfit] at h
    cases h
    rfl

/-- The rows of R113 for BLOCK. -/
theorem exec_block_outcome {s t : State} (h : exec .block s = .next t) (hs : s.phase ≠ .fault) :
    if s.phase ≠ .absorb then t.phase = .fault ∧ t.fcode = .sequenceError
    else if 2 ^ 61 - 1 < s.len.toNat + s.var.blockBytes then
      t.phase = .fault ∧ t.fcode = .lengthOverflow
    else t.phase = .absorb := by
  split_ifs with hp hl
  · exact exec_latches h hs (commandCheck_block_sequence hp)
  · refine exec_latches h hs ?_
    rw [commandCheck_block (not_not.1 hp), if_pos ((lengthOverflows_iff _ _).2 hl)]
  · rw [exec_block_consumes (not_not.1 hp) (Nat.not_lt.1 hl)] at h
    cases h
    exact (consumeBlock_phase s).trans (not_not.1 hp)

/-- The rows of R113 for FINAL. -/
theorem exec_final_outcome {lst : Byte} {s t : State} (h : exec (.final lst) s = .next t)
    (hs : s.phase ≠ .fault) :
    if s.phase ≠ .absorb then t.phase = .fault ∧ t.fcode = .sequenceError
    else if s.var.blockBytes ≤ lst.toNat then t.phase = .fault ∧ t.fcode = .badArgument
    else if 2 ^ 61 - 1 < s.len.toNat + lst.toNat then
      t.phase = .fault ∧ t.fcode = .lengthOverflow
    else t.phase = .done := by
  split_ifs with hp hb hl
  · exact exec_latches h hs (commandCheck_final_sequence hp lst)
  · exact exec_latches h hs (commandCheck_final_argument (not_not.1 hp) hb)
  · refine exec_latches h hs ?_
    rw [commandCheck_final (not_not.1 hp) (Nat.not_le.1 hb),
      if_pos ((lengthOverflows_iff _ _).2 hl)]
  · rw [exec_final_finishes (not_not.1 hp) (Nat.not_le.1 hb) (Nat.not_lt.1 hl)] at h
    cases h
    exact finishComputation_phase _ _

/-- Settles O13: FAULT first, then the decoder, then the checks of the decoded command. -/
theorem faultPriority : Obligations.FaultPriority := by
  intro s t w rest h
  have exec_of_decode : ∀ i, decode w = .ok i →
      exec i { s with pending := rest, resp := .ack } = .next t := fun i hd => by
    rwa [step_write_cmd, hd] at h
  refine ⟨fun hs => ?_, fun hs => ⟨fun e hd => ?_,
    fun var hd => (exec_init_outcome (exec_of_decode _ hd) hs :),
    fun hd => (exec_block_outcome (exec_of_decode _ hd) hs :),
    fun lst hd => (exec_final_outcome (exec_of_decode _ hd) hs :)⟩⟩
  · rw [step_write_cmd_ignored hs] at h
    cases h
    rfl
  · rw [step_write_cmd_illegal hd hs] at h
    cases h
    exact ⟨rfl, rfl⟩

end Sys2Proof.Machine
end
